-- ==== Sys2Proof/Word.lean ====
section
/-! DEFINITION. The two bit-vector types of the block (00_scope.md R8): a byte and a 32-bit word. -/

namespace Sys2Proof

/-- A byte, a probability, an element of `PROB` (R8). Bit 0 is the least significant. -/
abbrev Byte := BitVec 8

/-- A command word or a control and status register (R8). Bit 0 is the least significant. -/
abbrev Word := BitVec 32

end Sys2Proof
end

