-- ==== Sys2Proof/Syntax.lean ====
section
/-! DEFINITION. The sixteen commands (30_encoding.md R95), one constructor per row of the opcode table, with the operand
fields of R86 and R94. -/

namespace Sys2Proof

/-- The operand fields of format T (R92): block type, start position, presence and nonzero flag of the above and of the
left neighbour. -/
structure WalkOperands where
  bt : BitVec 2
  skipdc : Bool
  ap : Bool
  anz : Bool
  lp : Bool
  lnz : Bool
deriving DecidableEq, Repr

/-- A command. `cat` and `cls` hold the raw field; the reserved values (R98) are the ill-formed terms of
Sys2Proof/WellFormed.lean. -/
inductive Instr where
  | nop
  | bdInit
  | bdGet (p : Byte)
  | bdGetu
  | beInit
  | bePut (b : Bool) (p : Byte)
  | bePutu (b : Bool)
  | beFlush
  | tvDec (cat : BitVec 3)
  | tvEnc (cat : BitVec 3)
  | twDec (o : WalkOperands)
  | twEnc (o : WalkOperands)
  | brcClr
  | qzQuant (cls : BitVec 2)
  | qzDequant (cls : BitVec 2)
  | qzTakedc
deriving DecidableEq, Repr

end Sys2Proof
end

