-- ==== Sys2Proof/WellFormed.lean ====
section
/-! DEFINITION. Which terms are commands of the set: those without a reserved field value (30_encoding.md R98). -/

namespace Sys2Proof

/-- `CAT` 1 to 6 are the six categories; 0 and 7 are reserved (R98). -/
def catLegal (cat : BitVec 3) : Bool := cat != 0 && cat != 7

/-- `CLS` 0 to 2 are the three classes; 3 is reserved (R98). -/
def clsLegal (cls : BitVec 2) : Bool := cls != 3

/-- No field of the command has a reserved value (R98). `P` = 0 is an invalid operand, not a reserved encoding, so
`BD.GET 0` and `BE.PUT b, 0` are well formed. -/
def Instr.wellFormed : Instr → Bool
  | .nop => true
  | .bdInit => true
  | .bdGet _ => true
  | .bdGetu => true
  | .beInit => true
  | .bePut _ _ => true
  | .bePutu _ => true
  | .beFlush => true
  | .tvDec cat => catLegal cat
  | .tvEnc cat => catLegal cat
  | .twDec _ => true
  | .twEnc _ => true
  | .brcClr => true
  | .qzQuant cls => clsLegal cls
  | .qzDequant cls => clsLegal cls
  | .qzTakedc => true

end Sys2Proof
end

