-- ==== Sys2Proof/Decode.lean ====
section
/-! DEFINITION. The command word: fields, decoder, encoder (30_encoding.md R85 to R98). The decoder is total on 32-bit
words and rejects by name. A word whose `CAT` or `CLS` holds a reserved value decodes to the ill-formed term of
its opcode, whose meaning raises `UnsupportedMode` before anything else (R103 step 3, log entry 18). -/

namespace Sys2Proof

/-- Why the decoder rejects a word. Either way the block raises `UnsupportedMode` (R96, R97). -/
inductive Reject where
  /-- The opcode is not in the table of R95 (R96). -/
  | reservedOpcode (op : Byte)
  /-- The opcode is defined and a reserved bit of its format is 1 (R97). -/
  | reservedBit (op : Byte)
deriving DecidableEq, Repr

/-- `OP`, bits 31 to 24 (R85). -/
def opcodeOf (w : Word) : Byte := w.extractLsb' 24 8

/-- `F`, bits 23 to 0 (R85). -/
def operandsOf (w : Word) : BitVec 24 := w.extractLsb' 0 24

/-- Accept the command when the reserved bits of its format are all 0 (R97). -/
def whenClear {n : Nat} (w : Word) (reserved : BitVec n) (i : Instr) : Except Reject Instr :=
  if reserved = 0 then .ok i else .error (.reservedBit (opcodeOf w))

/-- The operand fields of format T (R92, R94). -/
def walkOperandsOf (w : Word) : WalkOperands where
  bt := w.extractLsb' 0 2
  skipdc := w.getLsbD 2
  ap := w.getLsbD 3
  anz := w.getLsbD 4
  lp := w.getLsbD 5
  lnz := w.getLsbD 6

/-- Format N: bits 23 to 0 reserved (R87). -/
def formatN (w : Word) (i : Instr) : Except Reject Instr := whenClear w (operandsOf w) i

/-- Format G: `P` = bits 7 to 0, bits 23 to 8 reserved (R88). -/
def formatG (w : Word) (f : Byte → Instr) : Except Reject Instr :=
  whenClear w (w.extractLsb' 8 16) (f (w.extractLsb' 0 8))

/-- Format U: `B` = bit 8, `P` = bits 7 to 0, bits 23 to 9 reserved (R89). -/
def formatU (w : Word) (f : Bool → Byte → Instr) : Except Reject Instr :=
  whenClear w (w.extractLsb' 9 15) (f (w.getLsbD 8) (w.extractLsb' 0 8))

/-- Format B: `B` = bit 8, bits 23 to 9 and 7 to 0 reserved (R90). -/
def formatB (w : Word) (f : Bool → Instr) : Except Reject Instr :=
  whenClear w (w.extractLsb' 9 15 ++ w.extractLsb' 0 8) (f (w.getLsbD 8))

/-- Format C: `CAT` = bits 2 to 0, bits 23 to 3 reserved (R91). -/
def formatC (w : Word) (f : BitVec 3 → Instr) : Except Reject Instr :=
  whenClear w (w.extractLsb' 3 21) (f (w.extractLsb' 0 3))

/-- Format T: bits 6 to 0 are fields, bits 23 to 7 reserved (R92). -/
def formatT (w : Word) (f : WalkOperands → Instr) : Except Reject Instr :=
  whenClear w (w.extractLsb' 7 17) (f (walkOperandsOf w))

/-- Format Q: `CLS` = bits 1 to 0, bits 23 to 2 reserved (R93). -/
def formatQ (w : Word) (f : BitVec 2 → Instr) : Except Reject Instr :=
  whenClear w (w.extractLsb' 2 22) (f (w.extractLsb' 0 2))

/-- The decoder: the opcode map of R95, then the reserved bits of the format (R96, R97). -/
def decode (w : Word) : Except Reject Instr :=
  match (opcodeOf w).toNat with
  | 0x00 => formatN w .nop
  | 0x10 => formatN w .bdInit
  | 0x11 => formatG w .bdGet
  | 0x12 => formatN w .bdGetu
  | 0x20 => formatN w .beInit
  | 0x21 => formatU w .bePut
  | 0x22 => formatB w .bePutu
  | 0x23 => formatN w .beFlush
  | 0x30 => formatC w .tvDec
  | 0x31 => formatC w .tvEnc
  | 0x40 => formatT w .twDec
  | 0x41 => formatT w .twEnc
  | 0x42 => formatN w .brcClr
  | 0x50 => formatQ w .qzQuant
  | 0x51 => formatQ w .qzDequant
  | 0x52 => formatN w .qzTakedc
  | _ => .error (.reservedOpcode (opcodeOf w))

/-- A word from its opcode and its operand field (R85). -/
def wordOf (op : Byte) (f : BitVec 24) : Word := op ++ f

/-- The operand field of format U, and with `p` = 0 of format B (R89, R90). -/
def bitAndProb (b : Bool) (p : Byte) : BitVec 24 := (0 : BitVec 15) ++ BitVec.ofBool b ++ p

/-- The operand field of format T, `0lLaAstt` below seventeen reserved zeros (R92). -/
def walkField (o : WalkOperands) : BitVec 24 :=
  (0 : BitVec 17) ++ BitVec.ofBool o.lnz ++ BitVec.ofBool o.lp ++ BitVec.ofBool o.anz ++ BitVec.ofBool o.ap ++
    BitVec.ofBool o.skipdc ++ o.bt

/-- The word of a command (R87 to R95). -/
def encode : Instr → Word
  | .nop => wordOf 0x00 0
  | .bdInit => wordOf 0x10 0
  | .bdGet p => wordOf 0x11 ((0 : BitVec 16) ++ p)
  | .bdGetu => wordOf 0x12 0
  | .beInit => wordOf 0x20 0
  | .bePut b p => wordOf 0x21 (bitAndProb b p)
  | .bePutu b => wordOf 0x22 (bitAndProb b 0)
  | .beFlush => wordOf 0x23 0
  | .tvDec cat => wordOf 0x30 ((0 : BitVec 21) ++ cat)
  | .tvEnc cat => wordOf 0x31 ((0 : BitVec 21) ++ cat)
  | .twDec o => wordOf 0x40 (walkField o)
  | .twEnc o => wordOf 0x41 (walkField o)
  | .brcClr => wordOf 0x42 0
  | .qzQuant cls => wordOf 0x50 ((0 : BitVec 22) ++ cls)
  | .qzDequant cls => wordOf 0x51 ((0 : BitVec 22) ++ cls)
  | .qzTakedc => wordOf 0x52 0

/-- The `match` column of R95 for the command of this constructor. -/
def matchOf : Instr → Word
  | .nop => 0x00000000
  | .bdInit => 0x10000000
  | .bdGet _ => 0x11000000
  | .bdGetu => 0x12000000
  | .beInit => 0x20000000
  | .bePut _ _ => 0x21000000
  | .bePutu _ => 0x22000000
  | .beFlush => 0x23000000
  | .tvDec _ => 0x30000000
  | .tvEnc _ => 0x31000000
  | .twDec _ => 0x40000000
  | .twEnc _ => 0x41000000
  | .brcClr => 0x42000000
  | .qzQuant _ => 0x50000000
  | .qzDequant _ => 0x51000000
  | .qzTakedc => 0x52000000

/-- The `mask` column of R95 for the command of this constructor. -/
def maskOf : Instr → Word
  | .nop => 0xFFFFFFFF
  | .bdInit => 0xFFFFFFFF
  | .bdGet _ => 0xFFFFFF00
  | .bdGetu => 0xFFFFFFFF
  | .beInit => 0xFFFFFFFF
  | .bePut _ _ => 0xFFFFFE00
  | .bePutu _ => 0xFFFFFEFF
  | .beFlush => 0xFFFFFFFF
  | .tvDec _ => 0xFFFFFFF8
  | .tvEnc _ => 0xFFFFFFF8
  | .twDec _ => 0xFFFFFF80
  | .twEnc _ => 0xFFFFFF80
  | .brcClr => 0xFFFFFFFF
  | .qzQuant _ => 0xFFFFFFFC
  | .qzDequant _ => 0xFFFFFFFC
  | .qzTakedc => 0xFFFFFFFF

/-- The command word whose low `nbits` bits are `w` and whose other bits are 0 (bit 0 the least significant, R8). A
command is one word (R85), so there is nothing to lay out. -/
def tableWord (nbits w : Nat) : Word := BitVec.ofNat 32 (w % 2 ^ nbits)

/-- The command the decoder reads from that word. -/
def decodeTableWord (nbits w : Nat) : Option Instr :=
  match decode (tableWord nbits w) with
  | .ok i => some i
  | .error _ => none

end Sys2Proof
end

