-- ==== Sys2Proof/Config.lean ====
section
/-! DEFINITION. What is fixed for the machine and what the spec leaves open: the numbers inside each space (R50, R69),
the open parameters (R6), the shape of the configuration tables (R7), and the free values. The values of the
tables stand in Sys2Proof/Machine/Tables.lean. -/

namespace Sys2Proof

/-- The open sizes of the two buffers (00_scope.md R6, U12). -/
structure Sizes where
  /-- `IBUF_SIZE` -/
  ibuf : Nat
  /-- `OBUF_SIZE` -/
  obuf : Nat
deriving DecidableEq, Repr

/-- One element of a space a host transaction can name (10_state.md R50, 20_memory.md R69). Every index is bounded, so that
an index outside its space cannot be written (R66 (d)). The command port is reached by `HostCmd` alone. -/
inductive Element (z : Sizes) where
  | csr (n : Fin 64)
  | coef (slot : Fin 16)
  | prob (j : Fin 1056)
  | brc (j : Fin 2112)
  | ibuf (i : Fin z.ibuf)
  | obuf (i : Fin z.obuf)
deriving DecidableEq, Repr

/-- What a bus address reaches: an element of a space, or the command port (R50, R69). -/
inductive BusTarget (z : Sizes) where
  | element (e : Element z)
  | commandPort
deriving DecidableEq, Repr

/-- Where one target sits on the bus: its address, and the place of its bit 0 in the datum of an access, its byte lane
(R61, R69). -/
structure BusCell (z : Sizes) where
  address : Nat
  lane : Nat
  target : BusTarget z
deriving DecidableEq, Repr

/-- The open parameter `BUSMAP` (00_scope.md R6, R69, U11): the width of the bus in bits, and what sits where. -/
structure BusMap (z : Sizes) where
  width : Nat
  cells : List (BusCell z)
deriving DecidableEq, Repr

/-- The six extended magnitude ranges, `CAT` 1 to 6 (42_token_value.md R156). -/
inductive Category where
  | cat1
  | cat2
  | cat3
  | cat4
  | cat5
  | cat6
deriving DecidableEq, Repr

/-- The twelve outcomes of one position (43_token_walker.md R171). -/
inductive Token where
  | eob
  | zero
  | one
  | two
  | three
  | four
  | cat (c : Category)
deriving DecidableEq, Repr

/-- Where one answer at a tree node leads (R172): to an outcome or to another node. -/
inductive Branch where
  | leaf (t : Token)
  | node (k : Fin 11)
deriving DecidableEq, Repr

/-- One row of the decision table of R172. -/
structure TreeRow where
  onFalse : Branch
  onTrue : Branch
deriving DecidableEq, Repr

/-- One row of the category table of R156: the base magnitude and the fixed probabilities of the extra bits, first-read
(most significant) bit first. The length `L` is the number of probabilities. -/
structure CategoryRow where
  base : Nat
  probs : List Byte
deriving DecidableEq, Repr

/-- The configuration fields of 00_scope.md R7. -/
structure Tables where
  /-- `ZIGZAG`: position to storage slot (R175). -/
  zigzag : Fin 16 → Fin 16
  /-- `BAND`: position to coefficient band (R175). -/
  band : Fin 16 → Fin 8
  /-- The token tree (R172). -/
  tree : Fin 11 → TreeRow
  /-- The category table with `PCAT` (R156). -/
  category : Category → CategoryRow
  /-- `PROB_UNIFORM` (R6). -/
  probUniform : Byte

namespace Config

/-- `IBUF_SIZE` and `OBUF_SIZE` in the reset state. The spec leaves them OPEN (R6, U12); every state carries its own.
DESIGN CHOICE, log entry 4 (unsafe). -/
def defaultSizes : Sizes where
  ibuf := 65536
  obuf := 65536

/-- `BUSMAP` in the reset state: nothing on a bus of 32 bits. The spec leaves it OPEN (R6, U11); every state carries its own.
DESIGN CHOICE, log entry 13 (unsafe). -/
def defaultBusMap : BusMap defaultSizes where
  width := 32
  cells := []

/-- What a host read of an element returns while the block is halted, other than `STATUS`, `ERR`, `ERRINFO`, `CSEQ`
(60_exceptions.md R271, U1): any value, at each point of the transaction list. Free value, log entry 5 (safe). -/
opaque haltedRead (z : Sizes) : Nat → Element z → Word

/-- Bits 5 to 1 of `STATUS` after an error raised during execution (R271, U1): not to be relied on. Free value, log entry
5 (safe). -/
opaque haltedStatus : Nat → BitVec 5

/-- What a host read of `OBUF` at or beyond `OBUF_LEN` returns (10_state.md R54, U2): any value, at each point of the
transaction list. Free value, log entry 5 (safe). -/
opaque staleOutput : Nat → Nat → Byte

/-- What the reset numbered `n` leaves in byte `i` of `IBUF` (R53: unspecified), as a host read of a byte nothing has
written since that reset sees it. Free value, log entry 5 (safe). -/
opaque unwrittenInput : Nat → Nat → Byte

end Config

end Sys2Proof
end

