-- ==== Sys2Proof/Machine/State.lean ====
section
/-! DEFINITION. The state of the block (10_state.md R20 to R54) as plain data, the host transactions it is driven by
(00_scope.md R13), the block's errors (60_exceptions.md R261), the reasons the model stops, and the state after reset. -/

namespace Sys2Proof.Machine

/-- The contents of one element-indexed space: pairs of an index and an element, indices strictly rising, no entry equal
to what an unlisted index reads as. With `w = 8` this is a list of `Host.Cell`. -/
abbrev Memory (w : Nat) := List (Nat × BitVec w)

/-- The two kinds of space behind a `Memory`: a table, reset to 0 (`PROB`, `BRC`), and a buffer, whose contents after
reset are unspecified (`IBUF`, `OBUF`; R53). -/
inductive Backing where
  | table
  | buffer
deriving DecidableEq, Repr

/-- The sixteen coefficient registers (R21). -/
abbrev Coefs := Vector (BitVec 16) 16

/-- A host transaction (00_scope.md R13, 45_system.md R246 to R249). -/
inductive HostTx (z : Sizes) where
  | reset
  | read (e : Element z)
  | write (e : Element z) (v : Word)
  | cmd (w : Word)
deriving DecidableEq, Repr

/-- What stands around the block and is no state of it (R20): the open parameters (00_scope.md R6), which no step changes,
and the host's transactions still to be performed, first one first (45_system.md R250). They stand together because the
sizes bound the indices of the others (20_memory.md R66 (d)). -/
structure Port where
  /-- `IBUF_SIZE` and `OBUF_SIZE` -/
  sizes : Sizes
  /-- `BUSMAP` -/
  busMap : BusMap sizes
  /-- the host's list -/
  pending : List (HostTx sizes)
deriving DecidableEq, Repr

/-- The boolean decoder: its flags, the latched partition and its working registers (R25, R38 to R40, R47). -/
structure Decoder where
  /-- `BD_ACTIVE` -/
  active : Bool
  /-- `BD_EOI` -/
  eoi : Bool
  /-- `BD_LBASE` -/
  lbase : Word
  /-- `BD_LLEN` -/
  llen : Word
  /-- `BD_POS` -/
  pos : Word
  /-- `BD_VALUE` -/
  value : Word
  /-- `BD_RANGE` -/
  range : Byte
  /-- `BD_BITCNT` -/
  bitcnt : BitVec 3
  /-- `BD_QCNT` -/
  qcnt : Word
deriving DecidableEq, Repr

/-- The boolean encoder: its flag, its working registers and the output buffer only it writes (R25, R41 to R43, R50). -/
structure Encoder where
  /-- `BE_ACTIVE` -/
  active : Bool
  /-- `BE_BOTTOM` -/
  bottom : Word
  /-- `BE_RANGE` -/
  range : Byte
  /-- `BE_BITCNT` -/
  bitcnt : BitVec 5
  /-- `BE_QCNT` -/
  qcnt : Word
  /-- `OBUF_LEN` -/
  len : Word
  /-- `OBUF` -/
  obuf : Memory 8
deriving DecidableEq, Repr

/-- What the last walk left for observation (R25, R44, R45). -/
structure WalkResult where
  /-- `TW_POS` -/
  pos : BitVec 5
  /-- `TW_CTX` -/
  ctx : BitVec 2
  /-- `TW_EOB` -/
  eob : Bool
deriving DecidableEq, Repr

/-- The six quantizer steps (R46). -/
structure Steps where
  /-- `QSTEP_Y_DC` -/
  yDc : BitVec 16
  /-- `QSTEP_Y_AC` -/
  yAc : BitVec 16
  /-- `QSTEP_Y2_DC` -/
  y2Dc : BitVec 16
  /-- `QSTEP_Y2_AC` -/
  y2Ac : BitVec 16
  /-- `QSTEP_UV_DC` -/
  uvDc : BitVec 16
  /-- `QSTEP_UV_AC` -/
  uvAc : BitVec 16
deriving DecidableEq, Repr

/-- The state of the machine: the block's (R20), then the model's own fields. -/
structure State where
  /-- `c[0..15]` (R21) -/
  coef : Coefs
  /-- `ERR` (R32); nonzero exactly when the block is halted -/
  err : BitVec 3
  /-- `ERRINFO` (R33) -/
  errInfo : Word
  /-- `CSEQ` (R24) -/
  cseq : Word
  /-- `BITR` (R34) -/
  bitr : Bool
  /-- `VAL` (R35) -/
  val : BitVec 16
  /-- `DCR` (R36) -/
  dcr : BitVec 16
  /-- `BD_BASE` (R37) -/
  bdBase : Word
  /-- `BD_LEN` (R37) -/
  bdLen : Word
  /-- the boolean decoder -/
  bd : Decoder
  /-- the boolean encoder and `OBUF` -/
  be : Encoder
  /-- the last walk -/
  tw : WalkResult
  /-- the quantizer steps -/
  qstep : Steps
  /-- `PROB` (R48) -/
  prob : Memory 8
  /-- `BRC` (R49) -/
  brc : Memory 32
  /-- `IBUF` (R50) -/
  ibuf : Memory 8
  /-- The model's own: the open parameters and the host's list. -/
  port : Port
  /-- The model's own: the value the last transaction returned (R250). -/
  reply : Option Word
  /-- The model's own: the halting error was raised during execution (60_exceptions.md R271). -/
  midHalt : Bool
  /-- The model's own: transactions other than `HostRead` performed so far; it picks the free values. -/
  tick : Nat
  /-- The model's own: `HostReset` transactions performed so far; it picks the free values. -/
  resets : Nat
deriving DecidableEq, Repr

/-- The sizes of the buffers. -/
abbrev State.sizes (s : State) : Sizes := s.port.sizes

/-- `IBUF_SIZE` (R6). -/
abbrev State.ibufSize (s : State) : Nat := s.sizes.ibuf

/-- `OBUF_SIZE` (R6). -/
abbrev State.obufSize (s : State) : Nat := s.sizes.obuf

/-- The host transactions still to be performed (R250). -/
abbrev State.host (s : State) : List (HostTx s.sizes) := s.port.pending

/-- The port with another list of transactions. -/
def Port.withPending (p : Port) (l : List (HostTx p.sizes)) : Port := { p with pending := l }

/-- The state with another list of transactions. -/
def State.withHost (s : State) (l : List (HostTx s.sizes)) : State := { s with port := s.port.withPending l }

/-- The errors of the block (60_exceptions.md R261). Raising one is a NEXT state (R270). -/
inductive Err where
  | malformedBitstream
  | rangeViolation
  | unsupportedMode
  | invalidProbability
  | sequenceError
  | divideByZero
  | bufferBounds
deriving DecidableEq, Repr

/-- Why the model stops. None of these is an error of the block; each is a point where the spec gives no value to go on
with. -/
inductive Fault where
  /-- Raised by `BD.INIT` and by every command that makes a decode query, when the decoder fetches an `IBUF` byte no host
  write has filled since reset: "Treat the first as a fault of the model" (10_state.md R54). Safe: the hardware goes on
  with an unknown byte. Log entry 6. -/
  | unwrittenInput
  /-- Raised by the commands that make an encode query and by `BE.FLUSH`, when a carry runs past the first byte of `OBUF`:
  "treat the case `i < 0` as a fault of the model" (41_boolean_encoder.md R134). No run from reset reaches it. Safe. Log entry 8. -/
  | carryPastStart
  /-- Raised by the same commands, when a carry meets a byte below `OBUF_LEN` that has no value; no run from reset
  reaches it. Safe. Log entry 10. -/
  | unwrittenOutput
  /-- Raised by every command that makes a query, when the range register is 0, so that the renormalisation loop of
  R113 or R133 would not end; no run from reset reaches it. Safe. Log entry 9. -/
  | rangeCollapsed
deriving DecidableEq, Repr

/-- Why the model gives no meaning. -/
inductive Refusal where
  /-- The command of this mnemonic has no meaning yet. Raised by `exec`'s arms only. Safe. -/
  | notModelled (mnemonic : String)
deriving DecidableEq, Repr

/-- The decoder after reset (R53). -/
def Decoder.reset : Decoder where
  active := false
  eoi := false
  lbase := 0
  llen := 0
  pos := 0
  value := 0
  range := 0
  bitcnt := 0
  qcnt := 0

/-- The encoder after reset (R53): no byte of `OBUF` has a value (R54). -/
def Encoder.reset : Encoder where
  active := false
  bottom := 0
  range := 0
  bitcnt := 0
  qcnt := 0
  len := 0
  obuf := []

/-- The state after reset (10_state.md R53): every register, flag, latch, table element and counter is 0, and no byte of
`IBUF` and `OBUF` has a value (R54). The model's own fields: DESIGN CHOICE, log entries 1, 3, 4, 5, 13. -/
def State.reset : State where
  coef := Vector.replicate 16 0
  err := 0
  errInfo := 0
  cseq := 0
  bitr := false
  val := 0
  dcr := 0
  bdBase := 0
  bdLen := 0
  bd := Decoder.reset
  be := Encoder.reset
  tw := { pos := 0, ctx := 0, eob := false }
  qstep := { yDc := 0, yAc := 0, y2Dc := 0, y2Ac := 0, uvDc := 0, uvAc := 0 }
  prob := []
  brc := []
  ibuf := []
  port := { sizes := Config.defaultSizes, busMap := Config.defaultBusMap, pending := [] }
  reply := none
  midHalt := false
  tick := 0
  resets := 0

end Sys2Proof.Machine
end

