-- ==== Sys2Proof/Machine/Ops.lean ====
section
/-! DEFINITION. The operations every unit shares: element-indexed memories (10_state.md R10, R50), coefficient registers
(R10, R21), the result of a piece of a command, accepting a command (R24) and the halt entry (60_exceptions.md R270). -/

namespace Sys2Proof.Machine

/-! ### Memories -/

/-- What an unlisted index reads as: 0 in a table (R53); no value in a buffer, whose contents after reset are unspecified
(R54, log entry 6). -/
def Backing.unlisted {w : Nat} : Backing → Option (BitVec w)
  | .table => some 0
  | .buffer => none

/-- The listed element at an index. -/
def Memory.find {w : Nat} : Memory w → Nat → Option (BitVec w)
  | [], _ => none
  | (k, v) :: m, a => if a = k then some v else Memory.find m a

/-- List an element at its place. -/
def Memory.put {w : Nat} : Memory w → Nat → BitVec w → Memory w
  | [], a, v => [(a, v)]
  | (k, x) :: m, a, v =>
    if a < k then (a, v) :: (k, x) :: m
    else if a = k then (a, v) :: m
    else (k, x) :: Memory.put m a v

/-- Take an index off the list. -/
def Memory.erase {w : Nat} (m : Memory w) (a : Nat) : Memory w := m.filter fun c => c.1 != a

/-- `MemRead(space, a, 1)` (R10); none where the element has no value. -/
def Memory.read {w : Nat} (k : Backing) (m : Memory w) (a : Nat) : Option (BitVec w) := (m.find a).or k.unlisted

/-- `MemWrite(space, a, 1, v)` (R10), keeping the canonical form. -/
def Memory.write {w : Nat} (k : Backing) (m : Memory w) (a : Nat) (v : BitVec w) : Memory w :=
  if some v = k.unlisted then m.erase a else m.put a v

/-- The element of a table, where every index has a value. -/
def Memory.get {w : Nat} (m : Memory w) (a : Nat) : BitVec w := (m.read .table a).getD 0

/-- The canonical form: indices strictly rising, no entry equal to what an unlisted index reads as. -/
abbrev Memory.wf {w : Nat} (k : Backing) (m : Memory w) : Prop :=
  (m.map Prod.fst).Pairwise (· < ·) ∧ ∀ c ∈ m, some c.2 ≠ (k.unlisted : Option (BitVec w))

/-- Every listed index is inside a space of `n` elements. -/
abbrev Memory.within {w : Nat} (n : Nat) (m : Memory w) : Prop := ∀ c ∈ m, c.1 < n

/-! ### Coefficient registers -/

/-- `c[slot]` as a mathematical integer (R9, R10). -/
def State.c (s : State) (slot : Fin 16) : Int := s.coef[slot].toInt

/-- `c[slot] <- v` (R10): the low 16 bits of `v`. -/
def State.setC (s : State) (slot : Fin 16) (v : Int) : State :=
  { s with coef := s.coef.set slot (BitVec.ofInt 16 v) }

/-! ### The result of a piece of a command -/

/-- How a piece of a command over the state `σ` ends: with a value, with an error raised there (R11), or with a stop of
the model. An error carries the state reached by then (60_exceptions.md R265, R268, R271; log entry 7). -/
inductive Res (σ α : Type) where
  | ok (a : α) (s : σ)
  | raise (e : Err) (s : σ)
  | stop (f : Fault)
deriving DecidableEq, Repr

/-- Go on with the value and the state reached. -/
def Res.bind {σ α β : Type} (r : Res σ α) (f : α → σ → Res σ β) : Res σ β :=
  match r with
  | .ok a s => f a s
  | .raise e s => .raise e s
  | .stop x => .stop x

/-- Put a unit's state back into the whole. -/
def Res.into {σ τ α : Type} (r : Res σ α) (f : σ → τ) : Res τ α :=
  match r with
  | .ok a s => .ok a (f s)
  | .raise e s => .raise e (f s)
  | .stop x => .stop x

/-! ### Accepting a command, and halt entry -/

/-- The block is halted (R25, R31). -/
def State.halted (s : State) : Bool := s.err != 0

/-- Accepting a command counts it (R24, 30_encoding.md R103 step 2). The number of the command is the `CSEQ` before. -/
def State.accept (s : State) : State := { s with cseq := s.cseq + 1 }

/-- The number `n` of the command being executed: `CSEQ` was advanced to `n + 1` when it was accepted (R24, R270). -/
def State.commandNumber (s : State) : Word := s.cseq - 1

/-- The error codes (R261). -/
def Err.code : Err → BitVec 3
  | .malformedBitstream => 1
  | .rangeViolation => 2
  | .unsupportedMode => 3
  | .invalidProbability => 4
  | .sequenceError => 5
  | .divideByZero => 6
  | .bufferBounds => 7

/-- Halt entry (R270): `ERR <- code(E)`, `ERRINFO <- n`, nothing else. -/
def State.haltEntry (s : State) (e : Err) : State := { s with err := e.code, errInfo := s.commandNumber }

/-- An error of the checks before execution (R103 steps 3 to 5): the state is as the command found it (R271). -/
def reject (e : Err) (s : State) : Host.Outcome State Fault Refusal := .next (s.haltEntry e)

/-- The end of execution (R103 step 6). After an error raised here the state is unspecified and nothing observes it (R271,
log entries 5 and 7). -/
def finish (r : Res State Unit) : Host.Outcome State Fault Refusal :=
  match r with
  | .ok _ s => .next s
  | .raise e s => .next { s.haltEntry e with midHalt := true }
  | .stop f => .fault f

end Sys2Proof.Machine
end

