-- ==== Sys2Proof/Machine/Tables.lean ====
section
/-! DEFINITION. The values of the configuration tables (00_scope.md R6, R7), the one instance the spec gives. They come
from its general-knowledge passages G2 to G5 (log entry 14). -/

namespace Sys2Proof.Machine

/-- `ZIGZAG` (R6, R175). -/
def zigzagTable : Vector (Fin 16) 16 := #v[0, 1, 4, 8, 5, 2, 3, 6, 9, 12, 13, 10, 7, 11, 14, 15]

/-- `BAND` (R6, R175). -/
def bandTable : Vector (Fin 8) 16 := #v[0, 1, 2, 3, 6, 4, 5, 6, 6, 6, 6, 6, 6, 6, 6, 7]

/-- The eleven-node tree (R172). -/
def treeTable : Vector TreeRow 11 := #v[
  ⟨.leaf .eob, .node 1⟩,
  ⟨.leaf .zero, .node 2⟩,
  ⟨.leaf .one, .node 3⟩,
  ⟨.node 4, .node 6⟩,
  ⟨.leaf .two, .node 5⟩,
  ⟨.leaf .three, .leaf .four⟩,
  ⟨.node 7, .node 8⟩,
  ⟨.leaf (.cat .cat1), .leaf (.cat .cat2)⟩,
  ⟨.node 9, .node 10⟩,
  ⟨.leaf (.cat .cat3), .leaf (.cat .cat4)⟩,
  ⟨.leaf (.cat .cat5), .leaf (.cat .cat6)⟩]

/-- The category table with `PCAT` (R156). -/
def categoryTable : Category → CategoryRow
  | .cat1 => ⟨5, [159]⟩
  | .cat2 => ⟨7, [165, 145]⟩
  | .cat3 => ⟨11, [173, 148, 140]⟩
  | .cat4 => ⟨19, [176, 155, 140, 135]⟩
  | .cat5 => ⟨35, [180, 157, 141, 134, 130]⟩
  | .cat6 => ⟨67, [254, 254, 243, 230, 196, 177, 153, 140, 133, 130, 129]⟩

/-- The instance of the configuration (R7). -/
def tables : Tables where
  zigzag i := zigzagTable[i]
  band i := bandTable[i]
  tree k := treeTable[k]
  category := categoryTable
  probUniform := 128

/-- `MAX_MAG`, the largest codable magnitude, 67 + 2^11 - 1 (R6). -/
def maxMag : Nat := 2114

end Sys2Proof.Machine
end

