-- ==== Sys2Proof/Machine/BoolDecoder.lean ====
section
/-! DEFINITION. The boolean decoder: `BD.INIT`, `BD.GET`, `BD.GETU` and the decode query `get(p)` (40_boolean_decoder.md). -/

namespace Sys2Proof.Machine

/-- `split = 1 + (((range - 1) * p) >> 8)`, the same in both directions (R113, 41_boolean_encoder.md R133). -/
def split (range p : Byte) : Nat := 1 + ((range.toNat - 1) * p.toNat) >>> 8

/-- `next_byte()` (R112). -/
def Decoder.nextByte (ibuf : Memory 8) (d : Decoder) : Res Decoder Byte :=
  if d.pos.toNat < d.llen.toNat then
    match ibuf.read .buffer (d.lbase.toNat + d.pos.toNat) with
    | some b => .ok b { d with pos := d.pos + 1 }
    | none => .stop .unwrittenInput
  else .ok 0 { d with eoi := true }

/-- One shift of the renormalisation loop of R113: double value and range, count, and fetch a byte when the count
reaches 8. The 3-bit count holds 0 when R113's count is 8. -/
def Decoder.shift (ibuf : Memory 8) (d : Decoder) : Res Decoder Unit :=
  let d := { d with value := d.value <<< 1, range := d.range <<< 1, bitcnt := d.bitcnt + 1 }
  if d.bitcnt = 0 then
    (d.nextByte ibuf).bind fun b d => .ok () { d with value := d.value ||| b.zeroExtend 32 }
  else .ok () d

/-- The renormalisation loop of R113. A range of at least 1 needs at most 7 shifts (R118 (c)), so 8 tests are enough;
only a range of 0 is left over (log entry 9). -/
def Decoder.renorm (ibuf : Memory 8) : Nat → Decoder → Res Decoder Unit
  | 0, _ => .stop .rangeCollapsed
  | n + 1, d =>
    if 128 ≤ d.range.toNat then .ok () d
    else (d.shift ibuf).bind fun _ d => Decoder.renorm ibuf n d

/-- The decision of R113: the lower part of the interval, of size `split`, is 0. -/
def Decoder.decision (p : Byte) (d : Decoder) : Bool := split d.range p * 256 ≤ d.value.toNat

/-- The interval left by the decision (R113). -/
def Decoder.narrow (p : Byte) (d : Decoder) : Decoder :=
  if d.decision p then
    { d with
      range := BitVec.ofNat 8 (d.range.toNat - split d.range p)
      value := BitVec.ofNat 32 (d.value.toNat - split d.range p * 256) }
  else { d with range := BitVec.ofNat 8 (split d.range p) }

/-- The decode query `get(p)` (R113). -/
def Decoder.get (ibuf : Memory 8) (p : Byte) (d : Decoder) : Res Decoder Bool :=
  (Decoder.renorm ibuf 8 (d.narrow p)).bind fun _ d' => .ok (d.decision p) { d' with qcnt := d'.qcnt + 1 }

/-- `get(p)` on the whole state: it reads `IBUF` and changes only the decoder. -/
def getQuery (p : Byte) (s : State) : Res State Bool :=
  (s.bd.get s.ibuf p).into fun d => { s with bd := d }

/-- A command of the decoder runs only while `BD_ACTIVE` (R103 step 4, 60_exceptions.md R266). -/
def whenDecoding (s : State) (k : Host.Outcome State Fault Refusal) : Host.Outcome State Fault Refusal :=
  if s.bd.active then k else reject .sequenceError s

/-- The partition `[base, base + len)` lies inside a buffer of `size` bytes: mathematical integers, no wrap (R111). -/
def partitionFits (base len : Word) (size : Nat) : Bool := base.toNat + len.toNat ≤ size

/-- Opening a partition (R111): the latches, the counters, and the first two bytes, big-endian. -/
def Decoder.openPartition (ibuf : Memory 8) (base len : Word) (d : Decoder) : Res Decoder Unit :=
  let d := { d with lbase := base, llen := len, pos := 0, eoi := false, qcnt := 0 }
  (d.nextByte ibuf).bind fun b0 d =>
    (d.nextByte ibuf).bind fun b1 d =>
      .ok () { d with value := (b0 ++ b1).zeroExtend 32, range := 255, bitcnt := 0, active := true }

/-- `BD.INIT` (R111). -/
def execBdInit (s : State) : Host.Outcome State Fault Refusal :=
  if partitionFits s.bdBase s.bdLen s.ibufSize then
    finish ((s.bd.openPartition s.ibuf s.bdBase s.bdLen).into fun d => { s with bd := d })
  else reject .bufferBounds s

/-- Decode one decision into `BITR`. -/
def getToBitr (p : Byte) (s : State) : Res State Unit :=
  (getQuery p s).bind fun b s => .ok () { s with bitr := b }

/-- `BD.GET p` (R114, R116). -/
def execBdGet (p : Byte) (s : State) : Host.Outcome State Fault Refusal :=
  whenDecoding s (if p = 0 then reject .invalidProbability s else finish (getToBitr p s))

/-- `BD.GETU` (R115). -/
def execBdGetu (s : State) : Host.Outcome State Fault Refusal :=
  whenDecoding s (finish (getToBitr tables.probUniform s))

end Sys2Proof.Machine
end

