-- ==== Sys2Proof/Machine/BoolEncoder.lean ====
section
/-! DEFINITION. The boolean encoder: `BE.INIT`, `BE.PUT`, `BE.PUTU`, `BE.FLUSH` and the encode query `put(b, p)`
(41_boolean_encoder.md). -/

namespace Sys2Proof.Machine

/-- `write_byte(b)` (R135). -/
def Encoder.writeByte (size : Nat) (b : Byte) (e : Encoder) : Res Encoder Unit :=
  if e.len.toNat = size then .raise .bufferBounds e
  else .ok () { e with obuf := e.obuf.write .buffer e.len.toNat b, len := e.len + 1 }

/-- Add 1 to the number formed by the bytes below index `i`, most significant first (R134). Running off the front is a
fault of the model, as R134 asks. -/
def carryInto (obuf : Memory 8) : Nat → Except Fault (Memory 8)
  | 0 => .error .carryPastStart
  | i + 1 =>
    match obuf.read .buffer i with
    | none => .error .unwrittenOutput
    | some x =>
      if x = 255 then carryInto (obuf.write .buffer i 0) i
      else .ok (obuf.write .buffer i (x + 1))

/-- `add_one_to_output()` (R134). -/
def Encoder.addOne (e : Encoder) : Res Encoder Unit :=
  match carryInto e.obuf e.len.toNat with
  | .ok o => .ok () { e with obuf := o }
  | .error f => .stop f

/-- `add_one_to_output()` when the carry bit is set (R133, R138). -/
def Encoder.carryWhen (carry : Bool) (e : Encoder) : Res Encoder Unit :=
  if carry then e.addOne else .ok () e

/-- One shift of the renormalisation loop of R133. -/
def Encoder.shift (size : Nat) (e : Encoder) : Res Encoder Unit :=
  (Encoder.carryWhen e.bottom.msb { e with range := e.range <<< 1 }).bind fun _ e =>
    let e := { e with bottom := e.bottom <<< 1, bitcnt := e.bitcnt - 1 }
    if e.bitcnt = 0 then
      (e.writeByte size (e.bottom.extractLsb' 24 8)).bind fun _ e =>
        .ok () { e with bottom := e.bottom &&& 0x00FFFFFF, bitcnt := 8 }
    else .ok () e

/-- The renormalisation loop of R133; at most 7 shifts for a range of at least 1, so 8 tests are enough (log entry 9). -/
def Encoder.renorm (size : Nat) : Nat → Encoder → Res Encoder Unit
  | 0, _ => .stop .rangeCollapsed
  | n + 1, e =>
    if 128 ≤ e.range.toNat then .ok () e
    else (e.shift size).bind fun _ e => Encoder.renorm size n e

/-- The interval left by coding the decision (R133). -/
def Encoder.narrow (b : Bool) (p : Byte) (e : Encoder) : Encoder :=
  if b then
    { e with
      bottom := e.bottom + BitVec.ofNat 32 (split e.range p)
      range := BitVec.ofNat 8 (e.range.toNat - split e.range p) }
  else { e with range := BitVec.ofNat 8 (split e.range p) }

/-- The encode query `put(b, p)` (R133). -/
def Encoder.put (size : Nat) (b : Bool) (p : Byte) (e : Encoder) : Res Encoder Unit :=
  (Encoder.renorm size 8 (e.narrow b p)).bind fun _ e => .ok () { e with qcnt := e.qcnt + 1 }

/-- `put(b, p)` on the whole state: it changes only the encoder and its buffer. -/
def putQuery (b : Bool) (p : Byte) (s : State) : Res State Unit :=
  (s.be.put s.obufSize b p).into fun e => { s with be := e }

/-- A command of the encoder runs only while `BE_ACTIVE` (R103 step 4, 60_exceptions.md R266). -/
def whenEncoding (s : State) (k : Host.Outcome State Fault Refusal) : Host.Outcome State Fault Refusal :=
  if s.be.active then k else reject .sequenceError s

/-- Starting an output stream (R131). -/
def Encoder.start (e : Encoder) : Encoder :=
  { e with range := 255, bottom := 0, bitcnt := 24, len := 0, qcnt := 0, active := true }

/-- `BE.INIT` (R131). -/
def execBeInit (s : State) : Host.Outcome State Fault Refusal := .next { s with be := s.be.start }

/-- `BE.PUT b, p` (R136). -/
def execBePut (b : Bool) (p : Byte) (s : State) : Host.Outcome State Fault Refusal :=
  whenEncoding s (if p = 0 then reject .invalidProbability s else finish (putQuery b p s))

/-- `BE.PUTU b` (R137). -/
def execBePutu (b : Bool) (s : State) : Host.Outcome State Fault Refusal :=
  whenEncoding s (finish (putQuery b tables.probUniform s))

/-- Append the top `n` bytes of `v`, most significant first (R138). -/
def Encoder.writeTop (size : Nat) : Nat → Word → Encoder → Res Encoder Unit
  | 0, _, e => .ok () e
  | n + 1, v, e =>
    (e.writeByte size (v.extractLsb' 24 8)).bind fun _ e => Encoder.writeTop size n (v <<< 8) e

/-- Finishing the stream (R138): the pending carry, the pending bits brought to the top, four bytes. -/
def Encoder.flush (size : Nat) (e : Encoder) : Res Encoder Unit :=
  (Encoder.carryWhen (e.bottom.getLsbD (32 - e.bitcnt.toNat)) e).bind fun _ e =>
    (e.writeTop size 4 (e.bottom <<< e.bitcnt.toNat)).bind fun _ e => .ok () { e with active := false }

/-- `BE.FLUSH` (R138). -/
def execBeFlush (s : State) : Host.Outcome State Fault Refusal :=
  whenEncoding s (finish ((s.be.flush s.obufSize).into fun e => { s with be := e }))

end Sys2Proof.Machine
end

