-- ==== Sys2Proof/Machine/Operands.lean ====
section
/-! DEFINITION. Operand forms: the category, the quantizer class, the walk operands, and the indices of the tables. -/

namespace Sys2Proof.Machine

/-- The category a `CAT` field selects (42_token_value.md R156); none for the reserved values 0 and 7 (R98). -/
def categoryOf (cat : BitVec 3) : Option Category :=
  match cat.toNat with
  | 1 => some .cat1
  | 2 => some .cat2
  | 3 => some .cat3
  | 4 => some .cat4
  | 5 => some .cat5
  | 6 => some .cat6
  | _ => none

/-- The DC and the AC step a `CLS` field selects (44_quantizer.md R222); none for the reserved value 3 (R98). -/
def stepsOf (q : Steps) (cls : BitVec 2) : Option (BitVec 16 × BitVec 16) :=
  match cls.toNat with
  | 0 => some (q.yDc, q.yAc)
  | 1 => some (q.y2Dc, q.y2Ac)
  | 2 => some (q.uvDc, q.uvAc)
  | _ => none

/-- The step of a slot: the DC step for slot 0, the AC step for the others (R222). -/
def slotStep (dc ac : BitVec 16) (slot : Fin 16) : BitVec 16 := if slot = 0 then dc else ac

/-- The first coded position (43_token_walker.md R173). -/
def firstPosition (o : WalkOperands) : Nat := if o.skipdc then 1 else 0

/-- The coded positions, in order (R173). -/
def codedPositions (o : WalkOperands) : List (Fin 16) := (List.finRange 16).drop (firstPosition o)

/-- The initial context `(AP & ANZ) + (LP & LNZ)` (R174). -/
def initialContext (o : WalkOperands) : Fin 3 :=
  match o.ap && o.anz, o.lp && o.lnz with
  | false, false => 0
  | true, false => 1
  | false, true => 1
  | true, true => 2

/-- Where in the tables a tree decision looks: block type, band, context (R175). -/
structure TreeCtx where
  bt : BitVec 2
  band : Fin 8
  ctx : Fin 3
deriving DecidableEq, Repr

/-- The tables' row for a position (R175). -/
def treeCtx (bt : BitVec 2) (i : Fin 16) (ctx : Fin 3) : TreeCtx := ⟨bt, tables.band i, ctx⟩

/-- The linear index of `PROB[bt][band][ctx][node]` (10_state.md R48). -/
def probIndex (t : TreeCtx) (node : Fin 11) : Nat := ((t.bt.toNat * 8 + t.band) * 3 + t.ctx) * 11 + node

/-- The linear index of `BRC[bt][band][ctx][node][b]` (R49). -/
def brcIndex (t : TreeCtx) (node : Fin 11) (b : Bool) : Nat := probIndex t node * 2 + b.toNat

/-- The context for the position after an outcome (43_token_walker.md R171, R177): 0 after a zero, 1 after a magnitude of
1, 2 after a greater one. -/
def contextAfter : Token → Fin 3
  | .eob => 0
  | .zero => 0
  | .one => 1
  | .two => 2
  | .three => 2
  | .four => 2
  | .cat _ => 2

end Sys2Proof.Machine
end

