-- ==== Sys2Proof/Machine/Quantizer.lean ====
section
/-! DEFINITION. The quantizer: `QZ.QUANT`, `QZ.DEQUANT`, `QZ.TAKEDC` (44_quantizer.md). -/

namespace Sys2Proof.Machine

/-- `tdiv(a, b)` for a positive `b` (00_scope.md R9): `sign(a) * floor(abs(a) / b)`. -/
def tdiv (a : Int) (b : Nat) : Int := a.sign * (a.natAbs / b : Nat)

/-- The block with each coefficient `c[slot]` replaced by the low 16 bits of `f slot c[slot]`. -/
def State.mapCoefs (s : State) (f : Fin 16 → Int → Int) : State :=
  { s with coef := Vector.ofFn fun slot => BitVec.ofInt 16 (f slot (s.c slot)) }

/-- `QZ.QUANT cls` (R225, R226). -/
def execQzQuant (cls : BitVec 2) (s : State) : Host.Outcome State Fault Refusal :=
  match stepsOf s.qstep cls with
  | none => reject .unsupportedMode s
  | some (dc, ac) =>
    if dc = 0 ∨ ac = 0 then reject .divideByZero s
    else .next (s.mapCoefs fun slot v => tdiv v (slotStep dc ac slot).toNat)

/-- The product of a coefficient and its step, a mathematical integer (R230). -/
def product (s : State) (dc ac : BitVec 16) (slot : Fin 16) : Int := s.c slot * (slotStep dc ac slot).toNat

/-- An integer that fits a coefficient register (R230). -/
def fitsCoef (v : Int) : Bool := -32768 ≤ v && v ≤ 32767

/-- `QZ.DEQUANT cls` (R230): all products are checked before any register is written. -/
def execQzDequant (cls : BitVec 2) (s : State) : Host.Outcome State Fault Refusal :=
  match stepsOf s.qstep cls with
  | none => reject .unsupportedMode s
  | some (dc, ac) =>
    if (List.finRange 16).all fun slot => fitsCoef (product s dc ac slot) then
      .next (s.mapCoefs fun slot _ => product s dc ac slot)
    else reject .rangeViolation s

/-- `QZ.TAKEDC` (R235). -/
def execQzTakedc (s : State) : Host.Outcome State Fault Refusal :=
  .next { s.setC 0 0 with dcr := s.coef[0] }

end Sys2Proof.Machine
end

