-- ==== Sys2Proof/Machine/System.lean ====
section
/-! DEFINITION. The command of no unit: `NOP` (45_system.md R245). -/

namespace Sys2Proof.Machine

/-- `NOP` (R245): nothing changes but `CSEQ`, which `State.accept` has advanced. -/
def execNop (s : State) : Host.Outcome State Fault Refusal := .next s

end Sys2Proof.Machine
end

