-- ==== Sys2Proof/Machine/TokenValue.lean ====
section
/-! DEFINITION. The token value coder: `TV.DEC`, `TV.ENC` and the internal operations the walker shares
(42_token_value.md). -/

namespace Sys2Proof.Machine

/-- The decode loop of R158 from the accumulator `acc`: one query per probability, first bit read the most significant. -/
def tvDecBits : List Byte → Nat → State → Res State Nat
  | [], acc, s => .ok acc s
  | p :: ps, acc, s => (getQuery p s).bind fun b s => tvDecBits ps (acc <<< 1 ||| b.toNat) s

/-- `tv_dec(cat)` (R158): `base + accumulated`. -/
def tvDec (c : Category) (s : State) : Res State Nat :=
  (tvDecBits (tables.category c).probs 0 s).bind fun acc s => .ok ((tables.category c).base + acc) s

/-- The offset of a magnitude in its category; none outside the category's range (R159). -/
def tvOffset (c : Category) (mag : Nat) : Option Nat :=
  if (tables.category c).base ≤ mag ∧ mag - (tables.category c).base < 2 ^ (tables.category c).probs.length then
    some (mag - (tables.category c).base)
  else none

/-- The encode loop of R159: one query per probability, bit `L - 1` of the offset first. -/
def tvEncBits : List Byte → Nat → State → Res State Unit
  | [], _, s => .ok () s
  | p :: ps, off, s => (putQuery (off.testBit ps.length) p s).bind fun _ s => tvEncBits ps off s

/-- `tv_enc(cat, mag)` (R159): the range check, then exactly `L` queries. -/
def tvEnc (c : Category) (mag : Nat) (s : State) : Res State Unit :=
  match tvOffset c mag with
  | some off => tvEncBits (tables.category c).probs off s
  | none => .raise .rangeViolation s

/-- `TV.DEC cat` (R160). -/
def execTvDec (cat : BitVec 3) (s : State) : Host.Outcome State Fault Refusal :=
  match categoryOf cat with
  | none => reject .unsupportedMode s
  | some c => whenDecoding s (finish ((tvDec c s).bind fun v s => .ok () { s with val := BitVec.ofNat 16 v }))

/-- `TV.ENC cat` (R165): the range check comes before execution (R103 step 5, 60_exceptions.md R263). -/
def execTvEnc (cat : BitVec 3) (s : State) : Host.Outcome State Fault Refusal :=
  match categoryOf cat with
  | none => reject .unsupportedMode s
  | some c =>
    whenEncoding s
      (if (tvOffset c s.val.toNat).isNone then reject .rangeViolation s else finish (tvEnc c s.val.toNat s))

end Sys2Proof.Machine
end

