-- ==== Sys2Proof/Machine/Walker.lean ====
section
/-! DEFINITION. The coefficient token walker: `TW.DEC`, `TW.ENC`, `BRC.CLR` (43_token_walker.md). -/

namespace Sys2Proof.Machine

/-! ### Tree decisions -/

/-- Count one tree decision, modulo 2^32 (R176). -/
def State.countBranch (s : State) (t : TreeCtx) (node : Fin 11) (b : Bool) : State :=
  { s with brc := s.brc.write .table (brcIndex t node b) (s.brc.get (brcIndex t node b) + 1) }

/-- The query `Q(k)` of R180: the element of `PROB`, the decision, the branch counter. -/
def treeGet (t : TreeCtx) (node : Fin 11) (s : State) : Res State Bool :=
  if s.prob.get (probIndex t node) = 0 then .raise .invalidProbability s
  else (getQuery (s.prob.get (probIndex t node)) s).bind fun b s => .ok b (s.countBranch t node b)

/-- The query `E(k, b)` of R190. -/
def treePut (t : TreeCtx) (node : Fin 11) (b : Bool) (s : State) : Res State Unit :=
  if s.prob.get (probIndex t node) = 0 then .raise .invalidProbability s
  else (putQuery b (s.prob.get (probIndex t node)) s).bind fun _ s => .ok () (s.countBranch t node b)

/-- The `E` queries of a path, in order. -/
def treePutAll (t : TreeCtx) : List (Fin 11 × Bool) → State → Res State Unit
  | [], s => .ok () s
  | (k, b) :: path, s => (treePut t k b s).bind fun _ s => treePutAll t path s

/-- Where the answer at a node leads (R172). -/
def branchOf (node : Fin 11) (b : Bool) : Branch :=
  if b then (tables.tree node).onTrue else (tables.tree node).onFalse

/-- Walk the tree from a node down to an outcome (R172). The eleven nodes bound the depth. A tree that led nowhere would
be the "invalid state" of 60_exceptions.md R262; this one never does (log entry 15). -/
def treeWalk (t : TreeCtx) : Nat → Fin 11 → State → Res State Token
  | 0, _, s => .raise .malformedBitstream s
  | n + 1, node, s =>
    (treeGet t node s).bind fun b s =>
      match branchOf node b with
      | .leaf tok => .ok tok s
      | .node k => treeWalk t n k s

/-- The node a position begins at: 0 with the end-of-block check, 1 after a zero (R178). -/
def startNode (lastz : Bool) : Fin 11 := if lastz then 1 else 0

/-! ### TW.DEC -/

/-- The magnitude of an outcome (R171), with the extra bits of a category. -/
def magnitudeGet : Token → State → Res State Nat
  | .eob, s => .ok 0 s
  | .zero, s => .ok 0 s
  | .one, s => .ok 1 s
  | .two, s => .ok 2 s
  | .three, s => .ok 3 s
  | .four, s => .ok 4 s
  | .cat c, s => tvDec c s

/-- The magnitude and the sign bit of a nonzero outcome (R179), stored at the position's slot (R175). -/
def coefGet (i : Fin 16) (tok : Token) (s : State) : Res State Unit :=
  (magnitudeGet tok s).bind fun mag s =>
    (getQuery tables.probUniform s).bind fun negative s =>
      .ok () (s.setC (tables.zigzag i) (if negative then -(mag : Int) else mag))

/-- Where a walk ended: position, context, end-of-block decision (R25, R44, R45). -/
def walkResult (pos : Nat) (ctx : Fin 3) (eob : Bool) : WalkResult where
  pos := BitVec.ofNat 5 pos
  ctx := BitVec.ofNat 2 ctx
  eob := eob

/-- The loop of R180 over the positions still to be decoded. -/
def walkDec (bt : BitVec 2) : List (Fin 16) → Fin 3 → Bool → State → Res State WalkResult
  | [], ctx, _, s => .ok (walkResult 16 ctx false) s
  | i :: rest, ctx, lastz, s =>
    (treeWalk (treeCtx bt i ctx) 11 (startNode lastz) s).bind fun tok s =>
      match tok with
      | .eob => .ok (walkResult i ctx true) s
      | .zero => walkDec bt rest 0 true s
      | tok => (coefGet i tok s).bind fun _ s => walkDec bt rest (contextAfter tok) false s

/-- Record where the walk ended (R180, R190). -/
def endWalk (r : Res State WalkResult) : Res State Unit := r.bind fun w s => .ok () { s with tw := w }

/-- Clear the sixteen coefficient registers (R180, D17). -/
def State.clearCoefs (s : State) : State := { s with coef := Vector.replicate 16 0 }

/-- `TW.DEC` (R180). -/
def execTwDec (o : WalkOperands) (s : State) : Host.Outcome State Fault Refusal :=
  whenDecoding s (finish (endWalk (walkDec o.bt (codedPositions o) (initialContext o) false s.clearCoefs)))

/-! ### TW.ENC -/

/-- The outcome that stands for a magnitude (R171, R190). -/
def tokenOf (a : Nat) : Token :=
  if a = 0 then .zero
  else if a = 1 then .one
  else if a = 2 then .two
  else if a = 3 then .three
  else if a = 4 then .four
  else if a ≤ 6 then .cat .cat1
  else if a ≤ 10 then .cat .cat2
  else if a ≤ 18 then .cat .cat3
  else if a ≤ 34 then .cat .cat4
  else if a ≤ 66 then .cat .cat5
  else .cat .cat6

/-- The decisions of an outcome, from node 1, in the order of R190; of `EOB`, from node 0. -/
def pathOf : Token → List (Fin 11 × Bool)
  | .eob => [(0, false)]
  | .zero => [(1, false)]
  | .one => [(1, true), (2, false)]
  | .two => [(1, true), (2, true), (3, false), (4, false)]
  | .three => [(1, true), (2, true), (3, false), (4, true), (5, false)]
  | .four => [(1, true), (2, true), (3, false), (4, true), (5, true)]
  | .cat .cat1 => [(1, true), (2, true), (3, true), (6, false), (7, false)]
  | .cat .cat2 => [(1, true), (2, true), (3, true), (6, false), (7, true)]
  | .cat .cat3 => [(1, true), (2, true), (3, true), (6, true), (8, false), (9, false)]
  | .cat .cat4 => [(1, true), (2, true), (3, true), (6, true), (8, false), (9, true)]
  | .cat .cat5 => [(1, true), (2, true), (3, true), (6, true), (8, true), (10, false)]
  | .cat .cat6 => [(1, true), (2, true), (3, true), (6, true), (8, true), (10, true)]

/-- The decisions of an outcome other than `EOB` at a position: "not end of block" first, unless the position before was
zero (R178). -/
def positionPath (lastz : Bool) (tok : Token) : List (Fin 11 × Bool) :=
  if lastz then pathOf tok else (0, true) :: pathOf tok

/-- The extra bits of a magnitude (R190). -/
def extraPut : Token → Nat → State → Res State Unit
  | .eob, _, s => .ok () s
  | .zero, _, s => .ok () s
  | .one, _, s => .ok () s
  | .two, _, s => .ok () s
  | .three, _, s => .ok () s
  | .four, _, s => .ok () s
  | .cat c, a, s => tvEnc c a s

/-- The coefficient coded at a position (R21, R175). -/
def coefAt (s : State) (i : Fin 16) : Int := s.c (tables.zigzag i)

/-- The extra bits and the sign bit of a nonzero coefficient (R179). -/
def coefPut (v : Int) (s : State) : Res State Unit :=
  (extraPut (tokenOf v.natAbs) v.natAbs s).bind fun _ s => putQuery (decide (v < 0)) tables.probUniform s

/-- `n_end`, one past the last nonzero coded position, or the first position (R190). -/
def endPosition (s : State) (o : WalkOperands) : Nat :=
  (codedPositions o).foldl (fun n i => if coefAt s i ≠ 0 then i.val + 1 else n) (firstPosition o)

/-- The loop of R190 over the positions still to be coded. -/
def walkEnc (bt : BitVec 2) (nEnd : Nat) : List (Fin 16) → Fin 3 → Bool → State → Res State WalkResult
  | [], ctx, _, s => .ok (walkResult 16 ctx false) s
  | i :: rest, ctx, lastz, s =>
    if !lastz && nEnd ≤ i.val then
      (treePutAll (treeCtx bt i ctx) (pathOf .eob) s).bind fun _ s => .ok (walkResult i ctx true) s
    else
      let v := coefAt s i
      let tok := tokenOf v.natAbs
      (treePutAll (treeCtx bt i ctx) (positionPath lastz tok) s).bind fun _ s =>
        if v = 0 then walkEnc bt nEnd rest 0 true s
        else (coefPut v s).bind fun _ s => walkEnc bt nEnd rest (contextAfter tok) false s

/-- Every coded coefficient is in the codable range (R190, 60_exceptions.md R263 (a)). -/
def allCodable (s : State) (o : WalkOperands) : Bool :=
  (codedPositions o).all fun i => (coefAt s i).natAbs ≤ maxMag

/-- `TW.ENC` (R190): the range check comes before the first query. -/
def execTwEnc (o : WalkOperands) (s : State) : Host.Outcome State Fault Refusal :=
  whenEncoding s
    (if allCodable s o then
      finish (endWalk (walkEnc o.bt (endPosition s o) (codedPositions o) (initialContext o) false s))
    else reject .rangeViolation s)

/-! ### BRC.CLR -/

/-- `BRC.CLR` (R200): every counter reads 0. -/
def execBrcClr (s : State) : Host.Outcome State Fault Refusal := .next { s with brc := [] }

end Sys2Proof.Machine
end

