-- ==== Sys2Proof/Machine/Dispatch.lean ====
section
/-! DEFINITION. One arm per command, each one call of its meaning. -/

namespace Sys2Proof.Machine

/-- Execute a decoded command on a state that has accepted it (30_encoding.md R103, steps 3 to 6). -/
def exec (i : Instr) (s : State) : Host.Outcome State Fault Refusal :=
  match i with
  | .nop => Sys2Proof.Machine.execNop s
  | .bdInit => Sys2Proof.Machine.execBdInit s
  | .bdGet p => Sys2Proof.Machine.execBdGet p s
  | .bdGetu => Sys2Proof.Machine.execBdGetu s
  | .beInit => Sys2Proof.Machine.execBeInit s
  | .bePut b p => Sys2Proof.Machine.execBePut b p s
  | .bePutu b => Sys2Proof.Machine.execBePutu b s
  | .beFlush => Sys2Proof.Machine.execBeFlush s
  | .tvDec cat => Sys2Proof.Machine.execTvDec cat s
  | .tvEnc cat => Sys2Proof.Machine.execTvEnc cat s
  | .twDec o => Sys2Proof.Machine.execTwDec o s
  | .twEnc o => Sys2Proof.Machine.execTwEnc o s
  | .brcClr => Sys2Proof.Machine.execBrcClr s
  | .qzQuant cls => Sys2Proof.Machine.execQzQuant cls s
  | .qzDequant cls => Sys2Proof.Machine.execQzDequant cls s
  | .qzTakedc => Sys2Proof.Machine.execQzTakedc s

end Sys2Proof.Machine
end

