-- ==== Sys2Proof/Machine/Flags.lean ====
section
/-! DEFINITION. The flags (10_state.md R25, R26) and the `STATUS` word (R31). -/

namespace Sys2Proof.Machine

/-- `HAS_NZ` of a block (R26): some coefficient is nonzero. -/
def Coefs.hasNz (c : Coefs) : Bool := c.toList.any (· != 0)

/-- The flag `HAS_NZ` (R26, D32): a function of the registers. -/
def State.hasNz (s : State) : Bool := Coefs.hasNz s.coef

/-- The flags `BD_ACTIVE` to `TW_EOB`, `STATUS` bits 5 to 1 (R31). -/
def State.flags (s : State) : BitVec 5 :=
  BitVec.ofBool s.tw.eob ++ BitVec.ofBool s.hasNz ++ BitVec.ofBool s.bd.eoi ++ BitVec.ofBool s.be.active ++
    BitVec.ofBool s.bd.active

/-- The `STATUS` word made of `HALTED` and the other five flags; bits 31 to 6 read 0 (R31). -/
def statusWord (halted : Bool) (flags : BitVec 5) : Word := (0 : BitVec 26) ++ flags ++ BitVec.ofBool halted

/-- `STATUS` (R31). After an error raised during execution only `HALTED` is defined (R271, 95_test_vectors.md P4): the
other flags are a free value (log entry 5). -/
def State.status (s : State) : Word :=
  statusWord s.halted (if s.midHalt then Config.haltedStatus s.tick else s.flags)

end Sys2Proof.Machine
end

