-- ==== Sys2Proof/Machine/HostPort.lean ====
section
/-! DEFINITION. The host's side: `HostRead`, `HostWrite`, `HostReset` (45_system.md R246 to R248) and the register map
(10_state.md R28 to R46). -/

namespace Sys2Proof.Machine

/-- A control and status register as the host reads it (R30 to R46): unimplemented bits 0, `DCR` sign-extended, reserved
numbers 0 (R28). -/
def csrRead (s : State) (n : Nat) : Word :=
  match n with
  | 0 => s.status
  | 1 => s.err.zeroExtend 32
  | 2 => s.errInfo
  | 3 => s.cseq
  | 4 => (BitVec.ofBool s.bitr).zeroExtend 32
  | 5 => s.val.zeroExtend 32
  | 6 => s.dcr.signExtend 32
  | 7 => s.bdBase
  | 8 => s.bdLen
  | 9 => s.bd.pos
  | 10 => s.bd.value
  | 11 => s.bd.range.zeroExtend 32
  | 12 => s.bd.bitcnt.zeroExtend 32
  | 13 => s.bd.qcnt
  | 14 => s.be.bottom
  | 15 => s.be.range.zeroExtend 32
  | 16 => s.be.bitcnt.zeroExtend 32
  | 17 => s.be.qcnt
  | 18 => s.be.len
  | 19 => s.tw.pos.zeroExtend 32
  | 20 => s.tw.ctx.zeroExtend 32
  | 21 => s.qstep.yDc.zeroExtend 32
  | 22 => s.qstep.yAc.zeroExtend 32
  | 23 => s.qstep.y2Dc.zeroExtend 32
  | 24 => s.qstep.y2Ac.zeroExtend 32
  | 25 => s.qstep.uvDc.zeroExtend 32
  | 26 => s.qstep.uvAc.zeroExtend 32
  | _ => 0

/-- A host write to a control and status register (R248): the RW registers take the low bits; the others ignore it. -/
def csrWrite (s : State) (n : Nat) (v : Word) : State :=
  match n with
  | 5 => { s with val := v.setWidth 16 }
  | 7 => { s with bdBase := v }
  | 8 => { s with bdLen := v }
  | 21 => { s with qstep := { s.qstep with yDc := v.setWidth 16 } }
  | 22 => { s with qstep := { s.qstep with yAc := v.setWidth 16 } }
  | 23 => { s with qstep := { s.qstep with y2Dc := v.setWidth 16 } }
  | 24 => { s with qstep := { s.qstep with y2Ac := v.setWidth 16 } }
  | 25 => { s with qstep := { s.qstep with uvDc := v.setWidth 16 } }
  | 26 => { s with qstep := { s.qstep with uvAc := v.setWidth 16 } }
  | _ => s

/-- Readable while halted: `STATUS`, `ERR`, `ERRINFO`, `CSEQ` (60_exceptions.md R271). -/
def readableHalted {z : Sizes} : Element z → Bool
  | .csr n => n.val ≤ 3
  | .coef _ => false
  | .prob _ => false
  | .brc _ => false
  | .ibuf _ => false
  | .obuf _ => false

/-- The byte of `IBUF` as the host reads it; what the last reset left where nothing was written (R53, R54, log entry 5). -/
def ibufByte (s : State) (i : Nat) : Byte := (s.ibuf.read .buffer i).getD (Config.unwrittenInput s.resets i)

/-- The byte of `OBUF` as the host reads it; any value at or beyond `OBUF_LEN` (R54, log entry 5). -/
def obufByte (s : State) (i : Nat) : Byte :=
  if i < s.be.len.toNat then (s.be.obuf.read .buffer i).getD (Config.staleOutput s.tick i) else Config.staleOutput s.tick i

/-- What an element holds, as a 32-bit word (R247). -/
def elementValue (s : State) : Element s.sizes → Word
  | .csr n => csrRead s n
  | .coef slot => s.coef[slot].signExtend 32
  | .prob j => (s.prob.get j).zeroExtend 32
  | .brc j => s.brc.get j
  | .ibuf i => (ibufByte s i).zeroExtend 32
  | .obuf i => (obufByte s i).zeroExtend 32

/-- The value of a `HostRead` (R247, R271). -/
def hostRead (s : State) (e : Element s.sizes) : Word :=
  if s.halted && !readableHalted e then Config.haltedRead s.sizes s.tick e else elementValue s e

/-- A write to an element while the block runs (R248). -/
def elementWrite (s : State) (e : Element s.sizes) (v : Word) : State :=
  match e with
  | .csr n => csrWrite s n v
  | .coef slot => { s with coef := s.coef.set slot (v.setWidth 16) }
  | .prob j => { s with prob := s.prob.write .table j (v.setWidth 8) }
  | .brc _ => s
  | .ibuf i => { s with ibuf := s.ibuf.write .buffer i (v.setWidth 8) }
  | .obuf _ => s

/-- `HostWrite` (R248): nothing while halted (R271). -/
def hostWrite (s : State) (e : Element s.sizes) (v : Word) : State := if s.halted then s else elementWrite s e v

/-- `HostReset` (R246): the reset state, halted or not. The host's list, the parameters and the counters of the free values
are not state of the block (log entry 12). -/
def hostReset (s : State) : State :=
  { State.reset with port := s.port, tick := s.tick, resets := s.resets + 1 }

end Sys2Proof.Machine
end

