-- ==== Sys2Proof/Machine/Present.lean ====
section
/-! DEFINITION. Performing one host transaction (45_system.md R250). -/

namespace Sys2Proof.Machine

/-- `HostCmd(w)` (R249, 30_encoding.md R103): ignored while halted; else counted, decoded, and executed or rejected. -/
def present (w : Word) (s : State) : Host.Outcome State Fault Refusal :=
  if s.halted then .next s
  else
    match decode w with
    | .ok i => exec i s.accept
    | .error _ => reject .unsupportedMode s.accept

/-- `HostRead` (R247): the value is returned and nothing of the block changes. -/
def performRead (s : State) (e : Element s.sizes) : State := { s with reply := some (hostRead s e) }

/-- One transaction on a state it has been taken from (R250). -/
def transact (s : State) (t : HostTx s.sizes) : Host.Outcome State Fault Refusal :=
  match t with
  | .reset => .next (hostReset s)
  | .read e => .next (performRead s e)
  | .write e v => .next (hostWrite s e v)
  | .cmd w => present w s

/-- The count of transactions that can change the block, for the free values: a read changes nothing (20_memory.md R67). -/
def tickAfter {z : Sizes} (t : HostTx z) (n : Nat) : Nat :=
  match t with
  | .reset => n + 1
  | .read _ => n
  | .write _ _ => n + 1
  | .cmd _ => n + 1

/-- Take a transaction off the host's list; it has returned nothing yet. -/
def State.taken (s : State) (t : HostTx s.sizes) (rest : List (HostTx s.sizes)) : State :=
  { s.withHost rest with reply := none, tick := tickAfter t s.tick }

/-- Put a transaction at the head of the host's list. -/
def State.presenting (s : State) (t : HostTx s.sizes) : State := s.withHost (t :: s.host)

end Sys2Proof.Machine
end

