-- ==== Sys2Proof/Machine/Step.lean ====
section
/-! DEFINITION. The step: the next host transaction (45_system.md R250). -/

namespace Sys2Proof.Machine

/-- Perform the first transaction of the host's list. With none left the run has ended (00_scope.md R14) and nothing
changes, since only transactions act on the block (R13; log entry 1). -/
def step (s : State) : Host.Outcome State Fault Refusal :=
  match s.host with
  | [] => .next s
  | t :: rest => transact (s.taken t rest) t

/-- `s` with the command word presented next (log entry 2): the block fetches nothing (10_state.md R23), the host presents
each word with `HostCmd`. -/
def State.withFetchWord (s : State) (nbits w : Nat) : State := s.presenting (.cmd (tableWord nbits w))

end Sys2Proof.Machine
end

