-- ==== Sys2Proof/Machine/Bus.lean ====
section
/-! DEFINITION. The bus side of the host: how the open parameter `BUSMAP` turns an access at a bus address into a host
transaction (00_scope.md R6, 20_memory.md R66 (d), R69, U11; log entry 13). -/

namespace Sys2Proof.Machine

/-- An access on the platform's bus: an address and, for a write, a datum. -/
inductive BusAccess where
  | read (address : Nat)
  | write (address : Nat) (datum : Nat)
deriving DecidableEq, Repr

/-- What sits at an address. -/
def busCellAt {z : Sizes} (m : BusMap z) (address : Nat) : Option (BusCell z) :=
  m.cells.find? fun c => c.address == address

/-- The 32-bit datum on the lane of a cell (R61). -/
def fromLane {z : Sizes} (c : BusCell z) (datum : Nat) : Word := BitVec.ofNat 32 (datum >>> c.lane)

/-- A 32-bit datum put on the lane of a cell of a bus of `width` bits (R61). -/
def toLane {z : Sizes} (width : Nat) (c : BusCell z) (v : Word) : Nat := v.toNat <<< c.lane % 2 ^ width

/-- The transaction of a write to a cell (R248, R249). -/
def busWrite {z : Sizes} (c : BusCell z) (datum : Nat) : HostTx z :=
  match c.target with
  | .element e => .write e (fromLane c datum)
  | .commandPort => .cmd (fromLane c datum)

/-- The transaction of a read of a cell: "The command port is not readable" (R247). -/
def busRead {z : Sizes} (c : BusCell z) : Option (HostTx z) :=
  match c.target with
  | .element e => some (.read e)
  | .commandPort => none

/-- The transaction an access stands for; none for an access that decodes to no element, which is not a transaction of
this interface (R66 (d)). -/
def busTransaction {z : Sizes} (m : BusMap z) (a : BusAccess) : Option (HostTx z) :=
  match a with
  | .read address => (busCellAt m address).bind busRead
  | .write address datum => (busCellAt m address).map (busWrite · datum)

/-- The state whose next transaction is the one the access stands for. -/
def State.onBus (s : State) (a : BusAccess) : Option State := (busTransaction s.port.busMap a).map s.presenting

/-- The datum the bus carries back after the step of a read: the reply on the lane of the cell. -/
def busReply (s : State) (address : Nat) : Option Nat :=
  (busCellAt s.port.busMap address).bind fun c => s.reply.map (toLane s.port.busMap.width c)

end Sys2Proof.Machine
end

