-- ==== Sys2Proof/Safety.lean ====
section
/-! DEFINITION. When a run has gone wrong (00_scope.md R14), the numbers the coder's rules speak of, and the invariant of
the machine: what 10_state.md R33, R38, R39, R41, R43 to R45 and 41_boolean_encoder.md R134 say of every command boundary. -/

namespace Sys2Proof.Machine

/-- A run has gone wrong exactly when `ERR` is nonzero at its end (R14). -/
def GoneWrong (s : State) : Prop := s.err ≠ 0

/-! ### The encoder's output as a number -/

/-- The number formed by the bytes below index `n`, most significant first (R134). -/
def outNumber (obuf : Memory 8) : Nat → Nat
  | 0 => 0
  | n + 1 => outNumber obuf n * 256 + ((obuf.read .buffer n).getD 0).toNat

/-- The shifts made since `BE.INIT`: 24 before the first byte, 8 before each later one (R133). -/
def Encoder.shifts (e : Encoder) : Nat := 8 * e.len.toNat + 24 - e.bitcnt.toNat

/-- The low end of the encoder's interval, in units of 2^-(8 + shifts): the bytes written with the pending bits of
`BE_BOTTOM` behind them (R133, R134). -/
def Encoder.low (e : Encoder) : Nat :=
  outNumber e.obuf e.len.toNat * 2 ^ (32 - e.bitcnt.toNat) + e.bottom.toNat

/-- What holds of an encoder inside a query, between two shifts. -/
structure Encoder.Coding (e : Encoder) (size : Nat) : Prop where
  range_pos : 1 ≤ e.range.toNat
  bitcnt_pos : 1 ≤ e.bitcnt.toNat
  bitcnt_le : e.bitcnt.toNat ≤ 24
  bitcnt_le_of_len : e.len.toNat ≠ 0 → e.bitcnt.toNat ≤ 8
  /-- The carry position is bit `32 - BE_BITCNT`: the interval reaches no higher (R133). -/
  pending : e.bottom.toNat + e.range.toNat ≤ 2 ^ (33 - e.bitcnt.toNat)
  /-- "the number the encoder builds ... always stays below the top of the initial interval, 255/256" (R134). -/
  below_top : e.low + e.range.toNat ≤ 255 * 2 ^ e.shifts
  written : ∀ i, i < e.len.toNat → (e.obuf.read .buffer i).isSome
  len_le : e.len.toNat ≤ size

/-- What holds of an active encoder at a command boundary: R41 and R134. -/
structure Encoder.Sound (e : Encoder) (size : Nat) : Prop extends Encoder.Coding e size where
  range_ge : 128 ≤ e.range.toNat

/-- Every byte the decoder can still fetch from its partition has been written (R54, 20_memory.md R68). -/
def Decoder.InputWritten (d : Decoder) (ibuf : Memory 8) : Prop :=
  ∀ k, d.pos.toNat ≤ k → k < d.llen.toNat → (ibuf.read .buffer (d.lbase.toNat + k)).isSome

/-- The next byte of the partition, if there is one, has been written. -/
def Decoder.NextWritten (d : Decoder) (ibuf : Memory 8) : Prop :=
  d.pos.toNat < d.llen.toNat → (ibuf.read .buffer (d.lbase.toNat + d.pos.toNat)).isSome

/-! ### The invariant -/

/-- Each space is in canonical form and holds nothing outside its bounds (R50). -/
structure State.SpacesOk (s : State) : Prop where
  prob_wf : s.prob.wf .table
  prob_within : s.prob.within 1056
  brc_wf : s.brc.wf .table
  brc_within : s.brc.within 2112
  ibuf_wf : s.ibuf.wf .buffer
  ibuf_within : s.ibuf.within s.ibufSize
  obuf_wf : s.be.obuf.wf .buffer
  obuf_within : s.be.obuf.within s.obufSize

/-- What holds of the two coder halves at a command boundary, while the block is not halted. -/
structure State.CodersOk (s : State) : Prop where
  /-- R39 -/
  bd_range : s.bd.active → 128 ≤ s.bd.range.toNat
  /-- R41, R134 -/
  be_sound : s.be.active → s.be.Sound s.obufSize

/-- The invariant of the machine. -/
structure State.Inv (s : State) : Prop where
  spaces : s.SpacesOk
  coders : s.err = 0 → s.CodersOk
  /-- R38 -/
  bd_pos : s.bd.pos.toNat ≤ s.bd.llen.toNat
  /-- R47, R111: the open partition lies inside `IBUF`. -/
  bd_inside : s.bd.lbase.toNat + s.bd.llen.toNat ≤ s.ibufSize
  /-- R43 -/
  be_len : s.be.len.toNat ≤ s.obufSize
  /-- R44 -/
  tw_pos : s.tw.pos.toNat ≤ 16
  /-- R45 -/
  tw_ctx : s.tw.ctx.toNat ≤ 2
  /-- R33: "0 otherwise". -/
  err_info : s.err = 0 → s.errInfo = 0
  /-- R262: code 1 has no cause. -/
  no_malformed : s.err ≠ Err.malformedBitstream.code
  /-- An error during execution halts the block (R271). -/
  mid_halt : s.midHalt → s.err ≠ 0
  /-- `OBUF_LEN`, a register of 32 bits, can count the bytes of `OBUF` (R43, log entry 11). -/
  obuf_countable : s.obufSize < 2 ^ 32

/-! ### The words of the statements -/

/-- Every probability a walk of block type `bt` can look up is loaded (R48: 0 means "not loaded"). -/
def State.Loaded (s : State) (bt : BitVec 2) : Prop :=
  ∀ band ctx node, s.prob.get (probIndex ⟨bt, band, ctx⟩ node) ≠ 0

/-- The context after a coefficient of magnitude `a` (43_token_walker.md R177). -/
def contextOf (a : Nat) : Fin 3 := if a = 0 then 0 else if a = 1 then 1 else 2

/-- One decision of a walk: the branch counter it increments (none for a fixed probability), the bit, and the probability it
is coded with (R176). -/
structure Decision where
  counter : Option Nat
  bit : Bool
  prob : Byte
deriving DecidableEq, Repr

/-- The decision at a tree node: its bit, the element of `PROB` and the counter of the walk's place (R172, R175, R176). -/
def treeDecision (prob : Memory 8) (t : TreeCtx) (d : Fin 11 × Bool) : Decision where
  counter := some (brcIndex t d.1 d.2)
  bit := d.2
  prob := prob.get (probIndex t d.1)

/-- The bits of an offset, most significant first, with the category's fixed probabilities (42_token_value.md R159). -/
def offsetDecisions (c : Category) (off : Nat) : List Decision :=
  (List.range (tables.category c).probs.length).map fun k =>
    { counter := none, bit := off.testBit ((tables.category c).probs.length - 1 - k)
      prob := (tables.category c).probs.getD k 0 }

/-- The extra bits of a magnitude (R171). -/
def extraDecisions : Token → Nat → List Decision
  | .eob, _ => []
  | .zero, _ => []
  | .one, _ => []
  | .two, _ => []
  | .three, _ => []
  | .four, _ => []
  | .cat c, a => offsetDecisions c (a - (tables.category c).base)

/-- The sign bit: 1 means negative, with the uniform probability (R179). -/
def signDecision (v : Int) : Decision where
  counter := none
  bit := decide (v < 0)
  prob := 128

/-- The decisions of a coefficient: tree, extra bits, sign (R178, R179). -/
def coefDecisions (prob : Memory 8) (t : TreeCtx) (lastz : Bool) (v : Int) : List Decision :=
  (positionPath lastz (tokenOf v.natAbs)).map (treeDecision prob t) ++
    if v = 0 then [] else extraDecisions (tokenOf v.natAbs) v.natAbs ++ [signDecision v]

/-- The decisions of the positions still to be coded: an end of block at `n`, except directly after a zero; else the
coefficient at the position, then the rest with the context it leaves (R177, R178). -/
def blockDecisions (prob : Memory 8) (bt : BitVec 2) (value : Fin 16 → Int) (n : Nat) :
    List (Fin 16) → Fin 3 → Bool → List Decision
  | [], _, _ => []
  | i :: rest, ctx, lastz =>
    if lastz = false ∧ n ≤ i.val then [treeDecision prob ⟨bt, tables.band i, ctx⟩ (0, false)]
    else
      coefDecisions prob ⟨bt, tables.band i, ctx⟩ lastz (value i) ++
        blockDecisions prob bt value n rest (contextOf (value i).natAbs) (decide (value i = 0))

/-- The decisions that code the block in the coefficient registers, its end of block at `n` (R180, R190). -/
def State.walkDecisions (s : State) (o : WalkOperands) (n : Nat) : List Decision :=
  blockDecisions s.prob o.bt (fun i => s.c (tables.zigzag i)) n (codedPositions o) (initialContext o) false

/-- What a list of decisions adds to the branch counter `j` (R176). -/
def countsOf (ds : List Decision) (j : Nat) : Word := BitVec.ofNat 32 ((ds.map Decision.counter).count (some j))

/-- Follow a path of decisions from a node of the tree; an outcome if the path visits the nodes it names and ends there
(R172). -/
def followPath : Fin 11 → List (Fin 11 × Bool) → Option Token
  | _, [] => none
  | k, (j, b) :: path =>
    if j = k then
      match branchOf k b with
      | .leaf tok => if path = [] then some tok else none
      | .node n => followPath n path
    else none

/-- The number of a list of bits, most significant first (20_memory.md R63). -/
def bitsNumber (bits : List Bool) : Nat := bits.foldl (fun n b => 2 * n + b.toNat) 0

/-- Present words one after another; none where the model stops. -/
def presentAll : List Word → State → Option State
  | [], s => some s
  | w :: ws, s =>
    match present w s with
    | .next t => presentAll ws t
    | .fault _ => none
    | .refused _ => none

/-- Present words one after another and read `BITR` after each. -/
def answers : List Word → State → Option (List Bool × State)
  | [], s => some ([], s)
  | w :: ws, s =>
    match present w s with
    | .next t => (answers ws t).map fun r => (t.bitr :: r.1, r.2)
    | .fault _ => none
    | .refused _ => none

/-- Encode blocks one after another: write each to the coefficient registers, walk it, note where the walk ended. -/
def encodeBlocks : List (WalkOperands × Coefs) → State → Option (List WalkResult × State)
  | [], s => some ([], s)
  | (o, c) :: blocks, s =>
    match present (encode (.twEnc o)) { s with coef := c } with
    | .next t => (encodeBlocks blocks t).map fun r => (t.tw :: r.1, r.2)
    | .fault _ => none
    | .refused _ => none

/-- Decode blocks one after another: walk each, note the coefficients and where the walk ended. -/
def decodeBlocks : List WalkOperands → State → Option (List (Coefs × WalkResult) × State)
  | [], s => some ([], s)
  | o :: os, s =>
    match present (encode (.twDec o)) s with
    | .next t => (decodeBlocks os t).map fun r => ((t.coef, t.tw) :: r.1, r.2)
    | .fault _ => none
    | .refused _ => none

/-- What a block is after it has been encoded and decoded: position 0 is not coded with `SKIPDC` (R173, R191). -/
def codedPart (b : WalkOperands × Coefs) : Coefs := if b.1.skipdc then b.2.set 0 0 else b.2

/-- A partition of `d` holds exactly the output of the encoder `e`: the bytes `OBUF[0 .. OBUF_LEN-1]`, in order (R62). -/
structure HoldsStream (e d : State) : Prop where
  len : d.bdLen = e.be.len
  fits : d.bdBase.toNat + d.bdLen.toNat ≤ d.ibufSize
  bytes : ∀ i, i < e.be.len.toNat → d.ibuf.read .buffer (d.bdBase.toNat + i) = e.be.obuf.read .buffer i

end Sys2Proof.Machine
end

