-- ==== Sys2Proof/Certificates/Slice0/Obligations.lean ====
section
/-! DEFINITION. The statements for the provers, from the numbered rules of spec/. Numbers of errors, registers and fields are
written out, so that a statement can be held beside its rule. -/

open Sys2Proof Sys2Proof.Machine

/-! ### Encoding -/

/-- Decoding the word of a command gives the command back, with every operand at every value, the reserved ones too (R85
to R95; the ill-formed terms are the model's, log entry 18). -/
def Obligations.DecodeOfEncode : Prop := ∀ i : Instr, decode (encode i) = .ok i

/-- A word that decodes is the word of what it decodes to: no bit of a word is dropped (R85 to R97). -/
def Obligations.EncodeOfDecode : Prop := ∀ (w : Word) (i : Instr), decode w = .ok i → encode i = w

/-- R95: "a word `w` encodes the command exactly when `w & mask = match` and the field-value conditions of rule R98 hold". -/
def Obligations.WordMatchesItsRow : Prop :=
  ∀ (i : Instr) (w : Word),
    (∃ j : Instr, decode w = .ok j ∧ j.wellFormed = true ∧ matchOf j = matchOf i) ↔
      w &&& maskOf i = matchOf i ∧
        match i with
        | .tvDec _ => w.extractLsb' 0 3 ≠ 0 ∧ w.extractLsb' 0 3 ≠ 7
        | .tvEnc _ => w.extractLsb' 0 3 ≠ 0 ∧ w.extractLsb' 0 3 ≠ 7
        | .qzQuant _ => w.extractLsb' 0 2 ≠ 3
        | .qzDequant _ => w.extractLsb' 0 2 ≠ 3
        | _ => True

/-- R96, R97, R98, R264: a reserved opcode, a 1 in a reserved bit, `CAT` = 0 or 7, `CLS` = 3 raise `UnsupportedMode` (code 3),
whatever the preconditions; the command is counted, nothing else changes. -/
def Obligations.ReservedWordRaisesUnsupportedMode : Prop :=
  ∀ (s : State) (w : Word), s.err = 0 →
    ((∀ i : Instr, w.extractLsb' 24 8 ≠ (matchOf i).extractLsb' 24 8) ∨
      (∃ i : Instr, w.extractLsb' 24 8 = (matchOf i).extractLsb' 24 8 ∧ w &&& maskOf i ≠ matchOf i) ∨
      ((w.extractLsb' 24 8 = 0x30 ∨ w.extractLsb' 24 8 = 0x31) ∧ (w.extractLsb' 0 3 = 0 ∨ w.extractLsb' 0 3 = 7)) ∨
      ((w.extractLsb' 24 8 = 0x50 ∨ w.extractLsb' 24 8 = 0x51) ∧ w.extractLsb' 0 2 = 3)) →
    present w s = .next { s with cseq := s.cseq + 1, err := 3, errInfo := s.cseq }

/-- R104: the worked encodings, legal and illegal. -/
def Obligations.WorkedEncodings : Prop :=
  decode 0x00000000 = .ok .nop ∧ decode 0x10000000 = .ok .bdInit ∧ decode 0x11000080 = .ok (.bdGet 128) ∧
  decode 0x11000001 = .ok (.bdGet 1) ∧ decode 0x12000000 = .ok .bdGetu ∧ decode 0x20000000 = .ok .beInit ∧
  decode 0x210001C8 = .ok (.bePut true 200) ∧ decode 0x210000FF = .ok (.bePut false 255) ∧
  decode 0x22000100 = .ok (.bePutu true) ∧ decode 0x23000000 = .ok .beFlush ∧ decode 0x30000006 = .ok (.tvDec 6) ∧
  decode 0x31000001 = .ok (.tvEnc 1) ∧
  decode 0x40000003 = .ok (.twDec ⟨3, false, false, false, false, false⟩) ∧
  decode 0x4000003C = .ok (.twDec ⟨0, true, true, true, true, false⟩) ∧
  decode 0x4100007A = .ok (.twEnc ⟨2, false, true, true, true, true⟩) ∧
  decode 0x42000000 = .ok .brcClr ∧ decode 0x50000000 = .ok (.qzQuant 0) ∧ decode 0x51000002 = .ok (.qzDequant 2) ∧
  decode 0x52000000 = .ok .qzTakedc ∧
  (∀ s : State, s.err = 0 → ∀ w : Word, w = 0x11000100 ∨ w = 0x30000000 ∨ w = 0x50000003 ∨ w = 0x01000000 →
    present w s = .next { s with cseq := s.cseq + 1, err := 3, errInfo := s.cseq }) ∧
  (∀ s : State, s.err = 0 →
    present 0x11000000 s =
      .next { s with cseq := s.cseq + 1, err := if s.bd.active then 4 else 5, errInfo := s.cseq })

/-! ### Host transactions -/

/-- The step that presents a command word runs the decoded command on the state that has counted it (R103, R250). -/
def Obligations.StepRunsDecodedCommand : Prop :=
  ∀ (s : State) (w : Word) (rest : List (HostTx s.sizes)) (i : Instr),
    s.host = .cmd w :: rest → s.err = 0 → decode w = .ok i →
      step s = exec i { s.withHost rest with reply := none, tick := s.tick + 1, cseq := s.cseq + 1 } ∧
      step (s.withFetchWord 32 w.toNat) = exec i { s with reply := none, tick := s.tick + 1, cseq := s.cseq + 1 }

/-- R271: while `ERR` is nonzero a command and a host write change nothing, `STATUS`, `ERR`, `ERRINFO`, `CSEQ` read as
defined, and every other read returns some value. -/
def Obligations.HaltedBlockIgnoresHost : Prop :=
  ∀ (s : State) (t : HostTx s.sizes) (rest : List (HostTx s.sizes)), s.err ≠ 0 → s.host = t :: rest →
    (∀ w, t = .cmd w → step s = .next { s.withHost rest with reply := none, tick := s.tick + 1 }) ∧
    (∀ e v, t = .write e v → step s = .next { s.withHost rest with reply := none, tick := s.tick + 1 }) ∧
    (∀ e, t = .read e → ∃ v, step s = .next { s.withHost rest with reply := some v } ∧
      (e = .csr 0 → v.getLsbD 0 = true ∧ v >>> 6 = 0) ∧ (e = .csr 1 → v.toNat = s.err.toNat) ∧
      (e = .csr 2 → v = s.errInfo) ∧ (e = .csr 3 → v = s.cseq))

/-- R246: `HostReset` puts every piece of the block's state to its reset value, whatever the state was, and is the only way
out of the halted state. The host's list, the open parameters and the counters of the free values are the model's own (log
entries 1, 3, 4, 5, 12, 13). -/
def Obligations.ResetIsTheOnlyWayOut : Prop :=
  (∀ (s : State) (rest : List (HostTx s.sizes)), s.host = .reset :: rest → ∃ t, step s = .next t ∧
    t = { State.reset with port := s.port.withPending rest, tick := t.tick, resets := t.resets }) ∧
  ∀ s t : State, s.err ≠ 0 → (∀ rest, s.host ≠ .reset :: rest) → step s = .next t →
    t.err = s.err ∧ t.errInfo = s.errInfo ∧ t.cseq = s.cseq

/-- R53: after reset every register reads 0, every coefficient, probability and counter is 0, the latches are 0, and no byte
of a buffer has a value (R54). -/
def Obligations.StateAfterReset : Prop :=
  (∀ n, hostRead State.reset (.csr n) = 0) ∧ (∀ k, State.reset.c k = 0) ∧
  (∀ j, State.reset.prob.get j = 0) ∧ (∀ j, State.reset.brc.get j = 0) ∧
  State.reset.err = 0 ∧ State.reset.bd.active = false ∧ State.reset.be.active = false ∧ State.reset.bd.eoi = false ∧
  State.reset.hasNz = false ∧ State.reset.tw.eob = false ∧
  State.reset.bd.lbase = 0 ∧ State.reset.bd.llen = 0 ∧
  (∀ i, State.reset.ibuf.read .buffer i = none) ∧ ∀ i, State.reset.be.obuf.read .buffer i = none

/-- R24: `CSEQ` counts the accepted commands, whether they complete or raise an error; a halted block counts nothing, no
other transaction counts, reset clears it. -/
def Obligations.AcceptedCommandsAreCounted : Prop :=
  ∀ (s t : State) (x : HostTx s.sizes) (rest : List (HostTx s.sizes)), s.host = x :: rest → step s = .next t →
    t.cseq =
      match x with
      | .cmd _ => if s.err = 0 then s.cseq + 1 else s.cseq
      | .reset => 0
      | .read _ => s.cseq
      | .write _ _ => s.cseq

/-- R32, R33, R270: an error leaves the number of its command in `ERRINFO` and halts the block; without one `ERR` and
`ERRINFO` stay. -/
def Obligations.ErrorNamesItsCommand : Prop :=
  ∀ (s t : State) (w : Word) (rest : List (HostTx s.sizes)), s.host = .cmd w :: rest → s.err = 0 → step s = .next t →
    (t.err ≠ 0 → t.errInfo = s.cseq ∧ t.cseq = s.cseq + 1 ∧ t.status.getLsbD 0 = true) ∧
    (t.err = 0 → t.errInfo = s.errInfo ∧ t.status.getLsbD 0 = false)

/-- R248: what a host write does to a running block: the element takes the low bits of the value where it is writable, every
other element reads as before (`STATUS` follows the coefficients), nothing else changes. `u` is what the block's state
becomes, still with the host's list of before, so that both sides name the same elements. -/
def Obligations.HostWriteSetsOneElement : Prop :=
  ∀ (s : State) (e : Element s.sizes) (v : Word) (rest : List (HostTx s.sizes)),
    s.err = 0 → s.midHalt = false → s.host = .write e v :: rest →
    ∃ u : State,
      let t : State := { s with
        coef := u.coef, val := u.val, bdBase := u.bdBase, bdLen := u.bdLen, qstep := u.qstep, prob := u.prob, ibuf := u.ibuf }
      step s = .next { t.withHost rest with reply := none, tick := s.tick + 1 } ∧
      (match e with
        | .csr n =>
          hostRead t e =
            if n = 7 ∨ n = 8 then v
            else if n = 5 ∨ 21 ≤ n.val ∧ n.val ≤ 26 then (v.setWidth 16).zeroExtend 32
            else hostRead s e
        | .coef _ => hostRead t e = (v.setWidth 16).signExtend 32
        | .prob _ => hostRead t e = (v.setWidth 8).zeroExtend 32
        | .brc _ => hostRead t e = hostRead s e
        | .ibuf _ => hostRead t e = (v.setWidth 8).zeroExtend 32
        | .obuf _ => hostRead t e = hostRead s e) ∧
      ∀ e' : Element s.sizes, e' ≠ e → ((∃ k, e = .coef k) → e' ≠ .csr 0) → hostRead t e' = hostRead s e'

/-- R67: "A `HostRead` of any space has no side effect and is idempotent: two reads with no transaction between them return
the same value", halted or not: the value of the element, which RegisterMap gives for a running block and
HaltedBlockIgnoresHost for a halted one. -/
def Obligations.HostReadIsIdempotent : Prop :=
  (∀ (s : State) (e : Element s.sizes) (rest : List (HostTx s.sizes)), s.host = .read e :: rest →
    step s = .next { s.withHost rest with reply := some (hostRead s e) }) ∧
  ∀ (s : State) (e : Element s.sizes) (rest : List (HostTx s.sizes)), s.host = .read e :: .read e :: rest →
    ∃ v, v = hostRead s e ∧ step s = .next { s.withHost (.read e :: rest) with reply := some v } ∧
      step { s.withHost (.read e :: rest) with reply := some v } = .next { s.withHost rest with reply := some v }

/-- R31, R26: the bits of `STATUS`; `HAS_NZ` says that some coefficient is nonzero. After an error raised during execution
the flags other than `HALTED` are not to be relied on (R271). Reset value 0. -/
def Obligations.StatusBits : Prop :=
  (∀ s : State,
    (hostRead s (.csr 0)).getLsbD 0 = decide (s.err ≠ 0) ∧ hostRead s (.csr 0) >>> 6 = 0 ∧
    (s.midHalt = false →
      (hostRead s (.csr 0)).getLsbD 1 = s.bd.active ∧ (hostRead s (.csr 0)).getLsbD 2 = s.be.active ∧
      (hostRead s (.csr 0)).getLsbD 3 = s.bd.eoi ∧ ((hostRead s (.csr 0)).getLsbD 4 = true ↔ ∃ k, s.c k ≠ 0) ∧
      (hostRead s (.csr 0)).getLsbD 5 = s.tw.eob)) ∧
  hostRead State.reset (.csr 0) = 0

/-- R247, R28, R30, R36: what the host reads on a running block: the registers under their numbers, unimplemented bits 0,
`DCR` and the coefficients sign-extended, the reserved numbers 0; the elements of `PROB` and the bytes zero-extended, the
counters. A byte of `IBUF` counts once written, a byte of `OBUF` below `OBUF_LEN` (R54). -/
def Obligations.RegisterMap : Prop :=
  ∀ s : State, s.err = 0 →
    (hostRead s (.csr 1)).toNat = s.err.toNat ∧ hostRead s (.csr 2) = s.errInfo ∧ hostRead s (.csr 3) = s.cseq ∧
    (hostRead s (.csr 4)).toNat = s.bitr.toNat ∧ (hostRead s (.csr 5)).toNat = s.val.toNat ∧
    (hostRead s (.csr 6)).toInt = s.dcr.toInt ∧ hostRead s (.csr 7) = s.bdBase ∧ hostRead s (.csr 8) = s.bdLen ∧
    hostRead s (.csr 9) = s.bd.pos ∧ hostRead s (.csr 10) = s.bd.value ∧
    (hostRead s (.csr 11)).toNat = s.bd.range.toNat ∧ (hostRead s (.csr 12)).toNat = s.bd.bitcnt.toNat ∧
    hostRead s (.csr 13) = s.bd.qcnt ∧ hostRead s (.csr 14) = s.be.bottom ∧
    (hostRead s (.csr 15)).toNat = s.be.range.toNat ∧ (hostRead s (.csr 16)).toNat = s.be.bitcnt.toNat ∧
    hostRead s (.csr 17) = s.be.qcnt ∧ hostRead s (.csr 18) = s.be.len ∧
    (hostRead s (.csr 19)).toNat = s.tw.pos.toNat ∧ (hostRead s (.csr 20)).toNat = s.tw.ctx.toNat ∧
    (hostRead s (.csr 21)).toNat = s.qstep.yDc.toNat ∧ (hostRead s (.csr 22)).toNat = s.qstep.yAc.toNat ∧
    (hostRead s (.csr 23)).toNat = s.qstep.y2Dc.toNat ∧ (hostRead s (.csr 24)).toNat = s.qstep.y2Ac.toNat ∧
    (hostRead s (.csr 25)).toNat = s.qstep.uvDc.toNat ∧ (hostRead s (.csr 26)).toNat = s.qstep.uvAc.toNat ∧
    (∀ n : Fin 64, 27 ≤ n.val → hostRead s (.csr n) = 0) ∧ (∀ k, (hostRead s (.coef k)).toInt = s.c k) ∧
    (∀ j : Fin 1056, (hostRead s (.prob j)).toNat = (s.prob.get j).toNat) ∧
    (∀ j : Fin 2112, hostRead s (.brc j) = s.brc.get j) ∧
    (∀ (i : Fin s.ibufSize) (b : Byte), s.ibuf.read .buffer i = some b → (hostRead s (.ibuf i)).toNat = b.toNat) ∧
    ∀ (i : Fin s.obufSize) (b : Byte), i.val < s.be.len.toNat → s.be.obuf.read .buffer i = some b →
      (hostRead s (.obuf i)).toNat = b.toNat

/-- R6, R66 (d), R69: an access on the platform's bus acts through `BUSMAP` alone: a read of an address where an element sits
answers what `HostRead` of the element does, on the element's lane; a write does what `HostWrite` of the element does, and a
write to the command port presents the word; an access that decodes to no element, and a read of the command port, is no
transaction. The form of `BUSMAP` is the model's (log entry 13). -/
def Obligations.BusAccessIsItsTransaction : Prop :=
  ∀ s : State,
    (∀ address, (∀ c ∈ s.port.busMap.cells, c.address ≠ address) →
      s.onBus (.read address) = none ∧ ∀ datum, s.onBus (.write address datum) = none) ∧
    ∀ c ∈ s.port.busMap.cells, (∀ c' ∈ s.port.busMap.cells, c'.address = c.address → c' = c) →
      (∀ e, c.target = .element e →
        (∃ t, s.onBus (.read c.address) = some t ∧
          step t = .next { s with reply := some (hostRead s e) } ∧
          busReply { s with reply := some (hostRead s e) } c.address =
            some ((hostRead s e).toNat * 2 ^ c.lane % 2 ^ s.port.busMap.width)) ∧
        ∀ datum, s.onBus (.write c.address datum) =
          some (s.withHost (.write e (BitVec.ofNat 32 (datum / 2 ^ c.lane)) :: s.host))) ∧
      (c.target = .commandPort →
        s.onBus (.read c.address) = none ∧
        ∀ datum, s.onBus (.write c.address datum) =
          some (s.withHost (.cmd (BitVec.ofNat 32 (datum / 2 ^ c.lane)) :: s.host)))

/-! ### Errors

`exec` runs on a state that has accepted the command, so the command's number, which R270 puts into `ERRINFO`, is `CSEQ` - 1
there (log entry 16). -/

/-- R266: without its half of the coder active a coder command raises `SequenceError` (code 5) and changes nothing else; the
other commands have no precondition. The two halves are independent. -/
def Obligations.UnitPreconditions : Prop :=
  (∀ (s : State) (i : Instr), s.bd.active = false →
    ((∃ p, i = .bdGet p) ∨ i = .bdGetu ∨ (∃ cat, i = .tvDec cat ∧ cat ≠ 0 ∧ cat ≠ 7) ∨ ∃ o, i = .twDec o) →
    exec i s = .next { s with err := 5, errInfo := s.cseq - 1 }) ∧
  (∀ (s : State) (i : Instr), s.be.active = false →
    ((∃ b p, i = .bePut b p) ∨ (∃ b, i = .bePutu b) ∨ i = .beFlush ∨ (∃ cat, i = .tvEnc cat ∧ cat ≠ 0 ∧ cat ≠ 7) ∨
      ∃ o, i = .twEnc o) →
    exec i s = .next { s with err := 5, errInfo := s.cseq - 1 }) ∧
  ∀ (s t : State) (i : Instr), s.err = 0 → exec i s = .next t → t.err = 5 →
    (s.bd.active = false ∧ ((∃ p, i = .bdGet p) ∨ i = .bdGetu ∨ (∃ cat, i = .tvDec cat) ∨ ∃ o, i = .twDec o)) ∨
    (s.be.active = false ∧
      ((∃ b p, i = .bePut b p) ∨ (∃ b, i = .bePutu b) ∨ i = .beFlush ∨ (∃ cat, i = .tvEnc cat) ∨ ∃ o, i = .twEnc o))

/-- R116, R265: `P` = 0 raises `InvalidProbability` (code 4) after the precondition and before any change. -/
def Obligations.ZeroProbabilityOperand : Prop :=
  ∀ s : State,
    (s.bd.active = true → exec (.bdGet 0) s = .next { s with err := 4, errInfo := s.cseq - 1 }) ∧
    (s.be.active = true → ∀ b, exec (.bePut b 0) s = .next { s with err := 4, errInfo := s.cseq - 1 })

/-- R265: a query of a tree node whose element of `PROB` is 0 raises `InvalidProbability` there, in either direction, with
nothing of the query done; in particular a walk whose first query meets one: node 0 of the first coded position with the
initial context. -/
def Obligations.UnloadedTableStopsAWalk : Prop :=
  (∀ (s : State) (t : TreeCtx) (node : Fin 11), s.prob.get (probIndex t node) = 0 →
    treeGet t node s = .raise .invalidProbability s ∧ ∀ b, treePut t node b s = .raise .invalidProbability s) ∧
  ∀ (s : State) (o : WalkOperands) (i : Fin 16), s.err = 0 → i.val = firstPosition o →
    s.prob.get (probIndex ⟨o.bt, tables.band i, initialContext o⟩ 0) = 0 →
    (s.bd.active = true → ∃ t, exec (.twDec o) s = .next t ∧ t.err = 4 ∧ t.errInfo = s.cseq - 1) ∧
    (s.be.active = true → (∀ j : Fin 16, i ≤ j → (s.c (tables.zigzag j)).natAbs ≤ 2114) →
      ∃ t, exec (.twEnc o) s = .next t ∧ t.err = 4 ∧ t.errInfo = s.cseq - 1)

/-- R263: the three causes of `RangeViolation` (code 2), each found before the command writes anything; no decoding command
raises it. -/
def Obligations.RangeViolationBeforeAnyChange : Prop :=
  (∀ (s : State) (o : WalkOperands), s.be.active = true →
    (∃ j : Fin 16, (o.skipdc = true → j ≠ 0) ∧ 2114 < (s.c (tables.zigzag j)).natAbs) →
    exec (.twEnc o) s = .next { s with err := 2, errInfo := s.cseq - 1 }) ∧
  (∀ (s : State) (cat : BitVec 3) (c : Category), s.be.active = true → categoryOf cat = some c →
    (s.val.toNat < (tables.category c).base ∨
      (tables.category c).base + 2 ^ (tables.category c).probs.length ≤ s.val.toNat) →
    exec (.tvEnc cat) s = .next { s with err := 2, errInfo := s.cseq - 1 }) ∧
  (∀ (s : State) (cls : BitVec 2) (dc ac : BitVec 16), stepsOf s.qstep cls = some (dc, ac) →
    (∃ k : Fin 16, s.c k * (if k = 0 then dc.toNat else ac.toNat) < -32768 ∨
      32767 < s.c k * (if k = 0 then dc.toNat else ac.toNat)) →
    exec (.qzDequant cls) s = .next { s with err := 2, errInfo := s.cseq - 1 }) ∧
  ∀ (s t : State) (i : Instr), s.err = 0 → exec i s = .next t → t.err = 2 →
    (∃ o, i = .twEnc o) ∨ (∃ cat, i = .tvEnc cat) ∨ ∃ cls, i = .qzDequant cls

/-- R261, R262: which commands can raise which code; no command raises code 1. Code 3 comes from the ill-formed
terms that words with a reserved field value decode to (log entry 18). -/
def Obligations.CodesByCommand : Prop :=
  ∀ (s t : State) (i : Instr), s.err = 0 → exec i s = .next t →
    t.err ≠ 1 ∧
    (t.err = 3 → i.wellFormed = false) ∧
    (t.err = 4 → (i = .bdGet 0 ∨ ∃ b, i = .bePut b 0) ∨ (∃ o, i = .twDec o) ∨ ∃ o, i = .twEnc o) ∧
    (t.err = 6 → ∃ cls, i = .qzQuant cls) ∧
    (t.err = 7 → i = .bdInit ∨ i = .beFlush ∨ (∃ b p, i = .bePut b p) ∨ (∃ b, i = .bePutu b) ∨ (∃ cat, i = .tvEnc cat) ∨
      ∃ o, i = .twEnc o)

/-- R271, R263 to R267: an error found before execution (codes 2, 3, 5, 6) leaves everything but `ERR` and `ERRINFO` as the
command found it. -/
def Obligations.EarlyErrorsChangeNothingElse : Prop :=
  ∀ (s t : State) (i : Instr), s.err = 0 → exec i s = .next t → (t.err = 2 ∨ t.err = 3 ∨ t.err = 5 ∨ t.err = 6) →
    t = { s with err := t.err, errInfo := s.cseq - 1 }

/-! ### The boolean decoder -/

/-- R111: `BD.INIT`, word 0x10000000, opens the partition, whether one is open or not, or raises `BufferBounds` (code 7) and
changes nothing else. -/
def Obligations.BdInitOpensPartition : Prop :=
  decode 0x10000000 = .ok .bdInit ∧ ∀ s : State,
    (s.bdBase.toNat + s.bdLen.toNat ≤ s.ibufSize →
      (∀ k, k < 2 → k < s.bdLen.toNat → (s.ibuf.read .buffer (s.bdBase.toNat + k)).isSome) →
      exec .bdInit s = .next { s with
        bd := {
          active := true
          eoi := decide (s.bdLen.toNat < 2)
          lbase := s.bdBase
          llen := s.bdLen
          pos := BitVec.ofNat 32 (min 2 s.bdLen.toNat)
          value := BitVec.ofNat 32
            ((if 0 < s.bdLen.toNat then ((s.ibuf.read .buffer s.bdBase.toNat).getD 0).toNat else 0) * 256 +
              if 1 < s.bdLen.toNat then ((s.ibuf.read .buffer (s.bdBase.toNat + 1)).getD 0).toNat else 0)
          range := 255
          bitcnt := 0
          qcnt := 0 } }) ∧
    (s.ibufSize < s.bdBase.toNat + s.bdLen.toNat →
      exec .bdInit s = .next { s with err := 7, errInfo := s.cseq - 1 })

/-- R113, R112: what `BD.GET p` and `BD.GETU` leave: the decision in `BITR`, the narrowed interval after `k` doublings, the
byte fetched when the count passes 8, zero beyond the partition, one more query; nothing else changes. -/
def Obligations.DecodeQueryResult : Prop :=
  ∀ (s : State) (i : Instr) (p : Byte), (i = .bdGet p ∧ p ≠ 0 ∨ i = .bdGetu ∧ p = 128) →
    s.bd.active = true → 128 ≤ s.bd.range.toNat → s.bd.NextWritten s.ibuf →
    let sp := 1 + ((s.bd.range.toNat - 1) * p.toNat) >>> 8
    let b := decide (sp <<< 8 ≤ s.bd.value.toNat)
    let r := if b then s.bd.range.toNat - sp else sp
    let v := if b then s.bd.value.toNat - sp <<< 8 else s.bd.value.toNat
    let byte := if s.bd.pos.toNat < s.bd.llen.toNat then
      ((s.ibuf.read .buffer (s.bd.lbase.toNat + s.bd.pos.toNat)).getD 0).toNat else 0
    ∃ k, k ≤ 7 ∧ 128 ≤ r * 2 ^ k ∧ r * 2 ^ k ≤ 255 ∧
      exec i s = .next { s with
        bitr := b
        bd := { s.bd with
          range := BitVec.ofNat 8 (r * 2 ^ k)
          value :=
            if s.bd.bitcnt.toNat + k < 8 then BitVec.ofNat 32 (v * 2 ^ k)
            else BitVec.ofNat 32 (v * 2 ^ k) ||| BitVec.ofNat 32 (byte * 2 ^ (s.bd.bitcnt.toNat + k - 8))
          bitcnt := BitVec.ofNat 3 ((s.bd.bitcnt.toNat + k) % 8)
          pos := if 8 ≤ s.bd.bitcnt.toNat + k ∧ s.bd.pos.toNat < s.bd.llen.toNat then s.bd.pos + 1 else s.bd.pos
          eoi := s.bd.eoi || decide (8 ≤ s.bd.bitcnt.toNat + k ∧ s.bd.llen.toNat ≤ s.bd.pos.toNat)
          qcnt := s.bd.qcnt + 1 } }

/-- R118 (a) to (e): the facts about a decode query from a range of at least 128. -/
def Obligations.DecodeQueryFacts : Prop :=
  ∀ (s t : State) (p : Byte), s.bd.active = true → 128 ≤ s.bd.range.toNat → p ≠ 0 → exec (.bdGet p) s = .next t →
    let sp := 1 + ((s.bd.range.toNat - 1) * p.toNat) >>> 8
    1 ≤ sp ∧ sp ≤ s.bd.range.toNat - 1 ∧
    128 ≤ t.bd.range.toNat ∧ t.bd.range.toNat ≤ 255 ∧
    t.bd.pos.toNat ≤ s.bd.pos.toNat + 1 ∧
    (s.bd.value.toNat < s.bd.range.toNat * 256 →
      t.bd.value.toNat < t.bd.range.toNat * 256 ∧ t.bd.value.toNat < 2 ^ 16)

/-- R115: "`BD.GETU` and `BD.GET 128` have identical effects on every piece of state"; word 0x12000000; the only error is
`SequenceError` (code 5), raised exactly when the decoder is not active. -/
def Obligations.BdGetuIsBdGetHalf : Prop :=
  decode 0x12000000 = .ok .bdGetu ∧
  ∀ s : State, exec .bdGetu s = exec (.bdGet 128) s ∧
    (s.bd.active = false → exec .bdGetu s = .next { s with err := 5, errInfo := s.cseq - 1 }) ∧
    ∀ t, s.bd.active = true → exec .bdGetu s = .next t → t.err = s.err

/-- R54: a query that needs a byte of `IBUF` nothing has written since reset stops the model; one that needs none goes on; so
does `BD.INIT` when one of its first two bytes is missing. -/
def Obligations.UnwrittenInputStopsADecode : Prop :=
  (∀ (s : State) (i : Instr) (p : Byte), (i = .bdGet p ∧ p ≠ 0 ∨ i = .bdGetu ∧ p = 128) →
    s.bd.active = true → 128 ≤ s.bd.range.toNat → s.bd.pos.toNat < s.bd.llen.toNat →
    s.ibuf.read .buffer (s.bd.lbase.toNat + s.bd.pos.toNat) = none →
    let sp := 1 + ((s.bd.range.toNat - 1) * p.toNat) >>> 8
    let r := if sp <<< 8 ≤ s.bd.value.toNat then s.bd.range.toNat - sp else sp
    ∃ k, k ≤ 7 ∧ 128 ≤ r * 2 ^ k ∧ r * 2 ^ k ≤ 255 ∧
      (8 ≤ s.bd.bitcnt.toNat + k → exec i s = .fault .unwrittenInput) ∧
      (s.bd.bitcnt.toNat + k < 8 → ∃ t, exec i s = .next t ∧ t.err = s.err ∧ t.bd.pos = s.bd.pos)) ∧
  ∀ (s : State) (k : Nat), s.bdBase.toNat + s.bdLen.toNat ≤ s.ibufSize → k < 2 → k < s.bdLen.toNat →
    s.ibuf.read .buffer (s.bdBase.toNat + k) = none → exec .bdInit s = .fault .unwrittenInput

/-! ### The boolean encoder -/

/-- R131: `BE.INIT`, word 0x20000000, writes exactly six pieces of state; the bytes of `OBUF` are not cleared. -/
def Obligations.BeInitStartsStream : Prop :=
  decode 0x20000000 = .ok .beInit ∧ ∀ s : State, exec .beInit s = .next { s with
    be := { active := true, bottom := 0, range := 255, bitcnt := 24, qcnt := 0, len := 0, obuf := s.be.obuf } }

/-- R133 to R136, R268: what `BE.PUT b, p` and `BE.PUTU b` leave on an active encoder that meets its invariant: the narrowed
interval after `k` doublings; when the count runs out within them, one byte appended after any carry, or `BufferBounds` on a
full buffer; nothing else changes. A carry adds 1 to the number the bytes before form and passes no byte but 0xFF. -/
def Obligations.EncodeQueryResult : Prop :=
  ∀ (s : State) (i : Instr) (b : Bool) (p : Byte), (i = .bePut b p ∧ p ≠ 0 ∨ i = .bePutu b ∧ p = 128) →
    s.err = 0 → s.be.active = true → s.be.Sound s.obufSize → s.obufSize < 2 ^ 32 →
    let sp := 1 + ((s.be.range.toNat - 1) * p.toNat) >>> 8
    let r := if b then s.be.range.toNat - sp else sp
    let x := s.be.bottom.toNat + if b then sp else 0
    let c := s.be.bitcnt.toNat
    let n := s.be.len.toNat
    ∃ k t, k ≤ 7 ∧ 128 ≤ r * 2 ^ k ∧ r * 2 ^ k ≤ 255 ∧ exec i s = .next t ∧
      (k < c → t = { s with
        be := { s.be with
          range := BitVec.ofNat 8 (r * 2 ^ k), bottom := BitVec.ofNat 32 (x * 2 ^ k), bitcnt := BitVec.ofNat 5 (c - k)
          qcnt := s.be.qcnt + 1 } }) ∧
      (c ≤ k → n < s.obufSize → t = { s with
        be := { s.be with
          range := BitVec.ofNat 8 (r * 2 ^ k), bottom := BitVec.ofNat 32 (x * 2 ^ c % 2 ^ 24 * 2 ^ (k - c))
          bitcnt := BitVec.ofNat 5 (c + 8 - k), qcnt := s.be.qcnt + 1, len := s.be.len + 1, obuf := t.be.obuf } } ∧
        t.be.obuf.read .buffer n = some (BitVec.ofNat 8 (x * 2 ^ c / 2 ^ 24)) ∧
        outNumber t.be.obuf n = outNumber s.be.obuf n + x * 2 ^ c / 2 ^ 32 ∧
        (∀ a, n < a → t.be.obuf.read .buffer a = s.be.obuf.read .buffer a) ∧
        (x * 2 ^ c < 2 ^ 32 → ∀ a, a < n → t.be.obuf.read .buffer a = s.be.obuf.read .buffer a) ∧
        ∀ a j, a < j → j < n → s.be.obuf.read .buffer j ≠ some 255 →
          t.be.obuf.read .buffer a = s.be.obuf.read .buffer a) ∧
      (c ≤ k → n = s.obufSize → t.err = 7 ∧ t.errInfo = s.cseq - 1)

/-- R137: "Identical in every effect to `BE.PUT b, 128`"; opcode 0x22 with `B` = bit 8; `SequenceError` (code 5) when the
encoder is not active, `BufferBounds` (code 7) the only other error. -/
def Obligations.BePutuIsBePutHalf : Prop :=
  decode 0x22000000 = .ok (.bePutu false) ∧ decode 0x22000100 = .ok (.bePutu true) ∧
  ∀ (s : State) (b : Bool), exec (.bePutu b) s = exec (.bePut b 128) s ∧
    (s.be.active = false → exec (.bePutu b) s = .next { s with err := 5, errInfo := s.cseq - 1 }) ∧
    ∀ t, s.be.active = true → exec (.bePutu b) s = .next t → t.err = s.err ∨ t.err = 7

/-- R138: `BE.FLUSH` appends exactly four bytes, after a pending carry, and stops the encoder; the bytes then form the low end
of the interval, brought up by `BE_BITCNT` bits. Without room for four bytes it raises `BufferBounds`. -/
def Obligations.BeFlushEndsStream : Prop :=
  ∀ s : State, s.err = 0 → s.be.active = true → s.be.Sound s.obufSize → s.obufSize < 2 ^ 32 →
    let n := s.be.len.toNat
    ∃ t, exec .beFlush s = .next t ∧
      (n + 4 ≤ s.obufSize → t = { s with be := { s.be with active := false, len := s.be.len + 4, obuf := t.be.obuf } } ∧
        outNumber t.be.obuf (n + 4) =
          (outNumber s.be.obuf n * 2 ^ (32 - s.be.bitcnt.toNat) + s.be.bottom.toNat) * 2 ^ s.be.bitcnt.toNat ∧
        (∀ a, n + 4 ≤ a → t.be.obuf.read .buffer a = s.be.obuf.read .buffer a) ∧
        (s.be.bottom.getLsbD (32 - s.be.bitcnt.toNat) = false →
          ∀ a, a < n → t.be.obuf.read .buffer a = s.be.obuf.read .buffer a) ∧
        ∀ a j, a < j → j < n → s.be.obuf.read .buffer j ≠ some 255 →
          t.be.obuf.read .buffer a = s.be.obuf.read .buffer a) ∧
      (s.obufSize < n + 4 → t.err = 7 ∧ t.errInfo = s.cseq - 1)

/-- R110: the bytes an encoder produced from a list of decisions, opened as a partition, give the same decisions back to
queries with the same probabilities, and the decoder never invents a byte (R138). -/
def Obligations.DecodeInvertsEncode : Prop :=
  ∀ (s e d : State) (ds : List (Bool × Byte)), s.obufSize < 2 ^ 32 →
    presentAll (encode .beInit :: ds.map (fun q => encode (.bePut q.1 q.2)) ++ [encode .beFlush]) s = some e →
    e.err = 0 → d.err = 0 → HoldsStream e d →
    ∃ u t, present (encode .bdInit) d = .next u ∧
      answers (ds.map fun q => encode (.bdGet q.2)) u = some (ds.map Prod.fst, t) ∧ t.err = 0 ∧ t.bd.eoi = false

/-! ### The token value coder -/

/-- R156: the category table. -/
def Obligations.CategoryTable : Prop :=
  categoryOf 0 = none ∧ categoryOf 7 = none ∧
  (categoryOf 1).map tables.category = some ⟨5, [159]⟩ ∧
  (categoryOf 2).map tables.category = some ⟨7, [165, 145]⟩ ∧
  (categoryOf 3).map tables.category = some ⟨11, [173, 148, 140]⟩ ∧
  (categoryOf 4).map tables.category = some ⟨19, [176, 155, 140, 135]⟩ ∧
  (categoryOf 5).map tables.category = some ⟨35, [180, 157, 141, 134, 130]⟩ ∧
  (categoryOf 6).map tables.category = some ⟨67, [254, 254, 243, 230, 196, 177, 153, 140, 133, 130, 129]⟩

/-- R157: each base is the previous base plus `2^L`; with the literal values 1 to 4 the ranges cover every magnitude from 1
to 2114 exactly once, and nothing else. -/
def Obligations.EveryMagnitudeHasOneCoding : Prop :=
  (∀ p ∈ [(Category.cat1, Category.cat2), (.cat2, .cat3), (.cat3, .cat4), (.cat4, .cat5), (.cat5, .cat6)],
    (tables.category p.2).base = (tables.category p.1).base + 2 ^ (tables.category p.1).probs.length) ∧
  (∀ a, 1 ≤ a → a ≤ 4 → ∀ c, tvOffset c a = none) ∧
  (∀ a, 5 ≤ a → a ≤ 2114 → ∃ c, (tvOffset c a).isSome ∧ ∀ c', (tvOffset c' a).isSome → c' = c) ∧
  ∀ a, 2114 < a → ∀ c, tvOffset c a = none

/-- R158, R160: `TV.DEC cat` sets `VAL` to the base plus the number the `L` bits form that `L` commands `BD.GET` with the
category's probabilities would give, leaves the decoder as they would, and changes nothing else. -/
def Obligations.TvDecReadsAnOffset : Prop :=
  ∀ (s : State) (cat : BitVec 3) (c : Category), categoryOf cat = some c → s.Inv → s.err = 0 → s.bd.active = true →
    s.bd.InputWritten s.ibuf →
    ∃ t u bits, exec (.tvDec cat) s = .next t ∧
      answers ((tables.category c).probs.map fun p => encode (.bdGet p)) s = some (bits, u) ∧
      t = { s with bd := u.bd, val := t.val } ∧
      t.val.toNat = (tables.category c).base + bitsNumber bits ∧
      t.val.toNat < (tables.category c).base + 2 ^ (tables.category c).probs.length ∧
      t.bd.qcnt = s.bd.qcnt + BitVec.ofNat 32 (tables.category c).probs.length

/-- R159, R165: `TV.ENC cat` with `VAL` in the category's range does to the encoder what `L` commands `BE.PUT` of the bits
of the offset, most significant first, with the category's probabilities do, and changes nothing else; it ends in an error
exactly when they do: `BufferBounds` (code 7), which room for `L` bytes rules out (R268). -/
def Obligations.TvEncWritesAnOffset : Prop :=
  ∀ (s : State) (cat : BitVec 3) (c : Category) (off : Nat), categoryOf cat = some c → s.Inv → s.err = 0 →
    s.be.active = true → s.val.toNat = (tables.category c).base + off → off < 2 ^ (tables.category c).probs.length →
    ∃ t u, exec (.tvEnc cat) s = .next t ∧
      presentAll ((List.range (tables.category c).probs.length).map fun k =>
        encode (.bePut (off.testBit ((tables.category c).probs.length - 1 - k)) ((tables.category c).probs.getD k 0))) s =
          some u ∧
      t.err = u.err ∧
      (t.err ≠ 0 → t.err = 7 ∧ t.errInfo = s.cseq - 1 ∧
        s.obufSize < s.be.len.toNat + (tables.category c).probs.length) ∧
      (t.err = 0 → t = { s with be := u.be } ∧
        t.be.qcnt = s.be.qcnt + BitVec.ofNat 32 (tables.category c).probs.length ∧
        ∀ a, t.be.len.toNat ≤ a → t.be.obuf.read .buffer a = s.be.obuf.read .buffer a)

/-! ### The token walker -/

/-- R172, R171: the decision table, row by row, and the paths of the outcomes: what the encoder emits for an outcome leads the
decoder to it, from node 0 and from node 1; and the outcome that stands for each magnitude. -/
def Obligations.TreeRowsAndPaths : Prop :=
  tables.tree 0 = ⟨.leaf .eob, .node 1⟩ ∧ tables.tree 1 = ⟨.leaf .zero, .node 2⟩ ∧ tables.tree 2 = ⟨.leaf .one, .node 3⟩ ∧
  tables.tree 3 = ⟨.node 4, .node 6⟩ ∧ tables.tree 4 = ⟨.leaf .two, .node 5⟩ ∧
  tables.tree 5 = ⟨.leaf .three, .leaf .four⟩ ∧ tables.tree 6 = ⟨.node 7, .node 8⟩ ∧
  tables.tree 7 = ⟨.leaf (.cat .cat1), .leaf (.cat .cat2)⟩ ∧ tables.tree 8 = ⟨.node 9, .node 10⟩ ∧
  tables.tree 9 = ⟨.leaf (.cat .cat3), .leaf (.cat .cat4)⟩ ∧ tables.tree 10 = ⟨.leaf (.cat .cat5), .leaf (.cat .cat6)⟩ ∧
  followPath 0 (pathOf .eob) = some .eob ∧
  (∀ tok : Token, tok ≠ .eob →
    followPath 0 (positionPath false tok) = some tok ∧ followPath 1 (positionPath true tok) = some tok) ∧
  (List.range 5).map tokenOf = [.zero, .one, .two, .three, .four] ∧
  ∀ a, 5 ≤ a → a ≤ 2114 → ∃ c, tokenOf a = .cat c ∧ (tables.category c).base ≤ a ∧
    a < (tables.category c).base + 2 ^ (tables.category c).probs.length

/-- R174: "`ctx0 = (AP & ANZ) + (LP & LNZ)`, a value 0, 1 or 2"; R173: the coded positions; R175: the two position tables,
`ZIGZAG` a permutation. -/
def Obligations.InitialContextAndPositionTables : Prop :=
  (∀ o : WalkOperands, (codedPositions o).map Fin.val = (if o.skipdc then List.range' 1 15 else List.range 16) ∧
    firstPosition o = if o.skipdc then 1 else 0) ∧
  (∀ o : WalkOperands, (initialContext o).val = (o.ap && o.anz).toNat + (o.lp && o.lnz).toNat) ∧
  (List.finRange 16).map tables.zigzag = [0, 1, 4, 8, 5, 2, 3, 6, 9, 12, 13, 10, 7, 11, 14, 15] ∧
  (List.finRange 16).map tables.band = [0, 1, 2, 3, 6, 4, 5, 6, 6, 6, 6, 6, 6, 6, 6, 7] ∧
  Function.Bijective tables.zigzag

/-- R48, R49: the linear indices of the probability table and of the branch counters: inside the tables, no two alike. -/
def Obligations.TableIndices : Prop :=
  (∀ t k, probIndex t k = ((t.bt.toNat * 8 + t.band) * 3 + t.ctx) * 11 + k ∧ probIndex t k < 1056) ∧
  (∀ t k b, brcIndex t k b = (((t.bt.toNat * 8 + t.band) * 3 + t.ctx) * 11 + k) * 2 + b.toNat ∧ brcIndex t k b < 2112) ∧
  ∀ t k b t' k' b', brcIndex t k b = brcIndex t' k' b' → t = t' ∧ k = k' ∧ b = b'

/-- R176: a tree decision increments exactly one branch counter, that of the probability used and of the decision, in either
direction; a query with a fixed probability increments none. -/
def Obligations.OneCounterPerTreeDecision : Prop :=
  (∀ (s u : State) (t : TreeCtx) (k : Fin 11) (b : Bool), treeGet t k s = .ok b u → ∀ j,
    u.brc.get j = if j = brcIndex t k b then s.brc.get j + 1 else s.brc.get j) ∧
  (∀ (s u : State) (t : TreeCtx) (k : Fin 11) (b : Bool), treePut t k b s = .ok () u → ∀ j,
    u.brc.get j = if j = brcIndex t k b then s.brc.get j + 1 else s.brc.get j) ∧
  (∀ (s u : State) (c : Category) (v : Nat), tvDec c s = .ok v u → u.brc = s.brc) ∧
  (∀ (s u : State) (c : Category) (v : Nat), tvEnc c v s = .ok () u → u.brc = s.brc) ∧
  (∀ (s u : State) (p : Byte) (b : Bool), getQuery p s = .ok b u → u.brc = s.brc) ∧
  ∀ (s u : State) (p : Byte) (b : Bool), putQuery b p s = .ok () u → u.brc = s.brc

/-- R180, R181, R177: `TW.DEC` completes when the table is loaded, and what it leaves: only the coefficients, the decoder, the
branch counters and the three results of a walk change; nothing is left of the block from `TW_POS` on; an end of block stands
directly after no zero; the context is that of the last coefficient; at least 1 and at most 304 queries are made. The block
is the one its bits code: `BD.GET` with the probabilities of the decisions that code the decoded block (State.walkDecisions)
answers those decisions and leaves the decoder as the walk does, and each tree decision has counted once (R176, R179). -/
def Obligations.TwDecDecodesABlock : Prop :=
  ∀ (s : State) (o : WalkOperands), s.Inv → s.err = 0 → s.bd.active = true → s.bd.InputWritten s.ibuf →
    ∃ t, exec (.twDec o) s = .next t ∧
      (s.Loaded o.bt → t.err = 0) ∧
      (t.err ≠ 0 → t.err = 4 ∧ t.errInfo = s.cseq - 1 ∧ ¬s.Loaded o.bt) ∧
      (t.err = 0 →
        t = { s with coef := t.coef, bd := t.bd, brc := t.brc, tw := t.tw } ∧
        t.bd.active = true ∧ t.bd.lbase = s.bd.lbase ∧ t.bd.llen = s.bd.llen ∧
        firstPosition o ≤ t.tw.pos.toNat ∧ t.tw.pos.toNat ≤ 16 ∧
        (t.tw.eob = false ↔ t.tw.pos.toNat = 16) ∧
        (∀ j : Fin 16, t.tw.pos.toNat ≤ j.val → t.c (tables.zigzag j) = 0) ∧
        (o.skipdc = true → t.c 0 = 0) ∧
        (∀ j : Fin 16, (t.c j).natAbs ≤ 2114) ∧
        (∀ j : Fin 16, t.tw.eob = true → firstPosition o ≤ j.val → j.val + 1 = t.tw.pos.toNat →
          t.c (tables.zigzag j) ≠ 0) ∧
        (t.tw.pos.toNat = firstPosition o → t.tw.ctx.toNat = (initialContext o).val) ∧
        (∀ j : Fin 16, firstPosition o ≤ j.val → j.val + 1 = t.tw.pos.toNat →
          t.tw.ctx.toNat = (contextOf (t.c (tables.zigzag j)).natAbs).val) ∧
        (∃ u, answers ((t.walkDecisions o t.tw.pos.toNat).map fun d => encode (.bdGet d.prob)) s =
            some ((t.walkDecisions o t.tw.pos.toNat).map Decision.bit, u) ∧ u.err = 0 ∧ t.bd = u.bd) ∧
        (∀ j, t.brc.get j = s.brc.get j + countsOf (t.walkDecisions o t.tw.pos.toNat) j) ∧
        ∃ q, 1 ≤ q ∧ q ≤ 304 ∧ t.bd.qcnt = s.bd.qcnt + BitVec.ofNat 32 q)

/-- R190: `TW.ENC` of a codable block completes when the table is loaded and the buffer has room, and what it leaves: only the
encoder with its buffer, the branch counters and the three results of a walk change; the walk ends with an end of block at
`n`, one past the last nonzero coded coefficient, or at 16 without one. It does to the encoder what `BE.PUT` of the decisions
that code the block (State.walkDecisions: tree decisions, extra bits, sign) do, and ends in an error exactly when they do, the
same one (R265, R268); each tree decision counts once (R176, R179). -/
def Obligations.TwEncEncodesABlock : Prop :=
  ∀ (s : State) (o : WalkOperands) (n : Nat), s.Inv → s.err = 0 → s.be.active = true →
    (∀ j : Fin 16, firstPosition o ≤ j.val → (s.c (tables.zigzag j)).natAbs ≤ 2114) →
    firstPosition o ≤ n → n ≤ 16 → (∀ j : Fin 16, n ≤ j.val → s.c (tables.zigzag j) = 0) →
    (∀ j : Fin 16, firstPosition o ≤ j.val → j.val + 1 = n → s.c (tables.zigzag j) ≠ 0) →
    ∃ t u, exec (.twEnc o) s = .next t ∧
      presentAll ((s.walkDecisions o n).map fun d => encode (.bePut d.bit d.prob)) s = some u ∧ t.err = u.err ∧
      (s.Loaded o.bt → s.be.len.toNat + 304 ≤ s.obufSize → t.err = 0) ∧
      (t.err ≠ 0 → t.errInfo = s.cseq - 1 ∧
        (t.err = 4 ∧ ¬s.Loaded o.bt ∨ t.err = 7 ∧ s.obufSize < s.be.len.toNat + 304)) ∧
      (t.err = 0 →
        t = { s with be := u.be, brc := t.brc, tw := t.tw } ∧ t.be.active = true ∧
        (∀ j, t.brc.get j = s.brc.get j + countsOf (s.walkDecisions o n) j) ∧
        (∀ a, t.be.len.toNat ≤ a → t.be.obuf.read .buffer a = s.be.obuf.read .buffer a) ∧
        s.be.len.toNat ≤ t.be.len.toNat ∧
        t.tw.pos.toNat = n ∧ t.tw.eob = decide (n < 16) ∧
        (n = firstPosition o → t.tw.ctx.toNat = (initialContext o).val) ∧
        ∀ j : Fin 16, firstPosition o ≤ j.val → j.val + 1 = n →
          t.tw.ctx.toNat = (contextOf (s.c (tables.zigzag j)).natAbs).val)

/-- R190 (b), R207: a block whose coded part is all zero is one end of block at the first position: one query, one counter. -/
def Obligations.ZeroBlockIsOneEndOfBlock : Prop :=
  ∀ (s u : State) (o : WalkOperands) (i : Fin 16), s.err = 0 → s.be.active = true → i.val = firstPosition o →
    (∀ j : Fin 16, i ≤ j → s.c (tables.zigzag j) = 0) →
    s.prob.get (probIndex ⟨o.bt, tables.band i, initialContext o⟩ 0) ≠ 0 →
    exec (.bePut false (s.prob.get (probIndex ⟨o.bt, tables.band i, initialContext o⟩ 0))) s = .next u → u.err = 0 →
    ∃ t, exec (.twEnc o) s = .next t ∧ t = { s with be := u.be, brc := t.brc, tw := t.tw } ∧
      t.tw.pos.toNat = i.val ∧ t.tw.ctx.toNat = (initialContext o).val ∧ t.tw.eob = true ∧
      ∀ j, t.brc.get j =
        if j = brcIndex ⟨o.bt, tables.band i, initialContext o⟩ 0 false then s.brc.get j + 1 else s.brc.get j

/-- R191: blocks encoded one after another, flushed, and decoded one after another from the resulting bytes with the same
operands and the same table come back as they were, without the coefficients that are not coded; `TW_POS`, `TW_CTX`, `TW_EOB`
of every walk and the increments of the counters are the same on both sides. -/
def Obligations.BlocksSurviveTheRoundTrip : Prop :=
  ∀ (s a b e d : State) (blocks : List (WalkOperands × Coefs)) (ws : List WalkResult), s.Inv → s.err = 0 →
    present (encode .beInit) s = .next a → encodeBlocks blocks a = some (ws, b) →
    present (encode .beFlush) b = .next e → e.err = 0 →
    d.err = 0 → d.prob = s.prob → HoldsStream e d →
    ∃ u v, present (encode .bdInit) d = .next u ∧
      decodeBlocks (blocks.map Prod.fst) u = some ((blocks.map codedPart).zip ws, v) ∧
      v.err = 0 ∧ v.bd.eoi = false ∧
      ∀ j, v.brc.get j - d.brc.get j = b.brc.get j - s.brc.get j

/-- R200: `BRC.CLR`, word 0x42000000, sets every counter to 0 and changes nothing else; `BD.INIT`, `BE.INIT` and `BE.FLUSH`
leave the counters alone. -/
def Obligations.BrcClrClearsTheCounters : Prop :=
  decode 0x42000000 = .ok .brcClr ∧
  (∀ s : State, ∃ t, exec .brcClr s = .next t ∧ t = { s with brc := t.brc } ∧ ∀ j, t.brc.get j = 0) ∧
  ∀ (s t : State) (i : Instr), i = .bdInit ∨ i = .beInit ∨ i = .beFlush → exec i s = .next t → t.brc = s.brc

/-! ### The quantizer, and no unit -/

/-- R222, R225: `QZ.QUANT cls` divides slot 0 by the DC step and the others by the AC step of the class, truncating toward
zero, and changes nothing else. -/
def Obligations.QuantDividesTowardZero : Prop :=
  ∀ (s : State) (cls : BitVec 2) (dc ac : BitVec 16),
    (cls = 0 ∧ dc = s.qstep.yDc ∧ ac = s.qstep.yAc ∨ cls = 1 ∧ dc = s.qstep.y2Dc ∧ ac = s.qstep.y2Ac ∨
      cls = 2 ∧ dc = s.qstep.uvDc ∧ ac = s.qstep.uvAc) →
    dc ≠ 0 → ac ≠ 0 →
    ∃ t, exec (.qzQuant cls) s = .next t ∧ t = { s with coef := t.coef } ∧
      t.c 0 = (s.c 0).tdiv dc.toNat ∧ ∀ k, k ≠ 0 → t.c k = (s.c k).tdiv ac.toNat

/-- R226: `QZ.QUANT` with either step 0 raises `DivideByZero` (code 6), whatever the coefficients are; `QZ.DEQUANT` with a
step 0 is no error and gives 0. -/
def Obligations.StepZero : Prop :=
  (∀ (s : State) (cls : BitVec 2) (dc ac : BitVec 16), stepsOf s.qstep cls = some (dc, ac) → (dc = 0 ∨ ac = 0) →
    exec (.qzQuant cls) s = .next { s with err := 6, errInfo := s.cseq - 1 }) ∧
  ∀ (s : State) (cls : BitVec 2), stepsOf s.qstep cls = some (0, 0) →
    ∃ t, exec (.qzDequant cls) s = .next t ∧ t = { s with coef := t.coef } ∧ ∀ k, t.c k = 0

/-- R230: `QZ.DEQUANT cls` multiplies by the steps when every product fits 16 bits, and changes nothing else. -/
def Obligations.DequantMultiplies : Prop :=
  ∀ (s : State) (cls : BitVec 2) (dc ac : BitVec 16),
    (cls = 0 ∧ dc = s.qstep.yDc ∧ ac = s.qstep.yAc ∨ cls = 1 ∧ dc = s.qstep.y2Dc ∧ ac = s.qstep.y2Ac ∨
      cls = 2 ∧ dc = s.qstep.uvDc ∧ ac = s.qstep.uvAc) →
    (∀ k : Fin 16, -32768 ≤ s.c k * (if k = 0 then dc.toNat else ac.toNat) ∧
      s.c k * (if k = 0 then dc.toNat else ac.toNat) ≤ 32767) →
    ∃ t, exec (.qzDequant cls) s = .next t ∧ t = { s with coef := t.coef } ∧
      ∀ k : Fin 16, t.c k = s.c k * (if k = 0 then dc.toNat else ac.toNat)

/-- R230, last part: `QZ.DEQUANT` after `QZ.QUANT` with the same steps completes, and each coefficient lies between 0 and what
it was and differs from it by less than its step. -/
def Obligations.DequantAfterQuant : Prop :=
  ∀ (s : State) (cls : BitVec 2) (dc ac : BitVec 16), stepsOf s.qstep cls = some (dc, ac) → dc ≠ 0 → ac ≠ 0 →
    ∃ t u, exec (.qzQuant cls) s = .next t ∧ exec (.qzDequant cls) t = .next u ∧
      ∀ k : Fin 16, (u.c k).natAbs ≤ (s.c k).natAbs ∧ 0 ≤ u.c k * s.c k ∧
        (s.c k - u.c k).natAbs < (if k = 0 then dc.toNat else ac.toNat)

/-- R235: `QZ.TAKEDC`, word 0x52000000, moves `c[0]` to `DCR` and leaves 0; nothing else changes. -/
def Obligations.TakedcMovesTheDcTerm : Prop :=
  decode 0x52000000 = .ok .qzTakedc ∧ ∀ s : State, ∃ t, exec .qzTakedc s = .next t ∧ t = { s with coef := t.coef, dcr := t.dcr } ∧
    t.dcr.toInt = s.c 0 ∧ t.c 0 = 0 ∧ ∀ k, k ≠ 0 → t.c k = s.c k

/-- R245: "no state changes except `csr.CSEQ`, which counts it like any accepted command"; a 1 in bits 23 to 0 raises
`UnsupportedMode` (code 3); a halted block ignores it. -/
def Obligations.NopOnlyCounts : Prop :=
  ∀ s : State,
    (s.err = 0 → present 0x00000000 s = .next { s with cseq := s.cseq + 1 } ∧ exec .nop s = .next s ∧
      ∀ w : Word, w.extractLsb' 24 8 = 0 → w.extractLsb' 0 24 ≠ 0 →
        present w s = .next { s with cseq := s.cseq + 1, err := 3, errInfo := s.cseq }) ∧
    (s.err ≠ 0 → present 0x00000000 s = .next s)

/-! ### The whole machine -/

/-- R22, R25, R34 to R49, R68: which command can write what, whether it completes or raises an error; no command writes
`PROB`, `IBUF`, `BD_BASE`, `BD_LEN`, a quantizer step or `CSEQ`. -/
def Obligations.WhoWritesWhat : Prop :=
  ∀ (i : Instr) (s t : State), exec i s = .next t →
    t.prob = s.prob ∧ t.ibuf = s.ibuf ∧ t.bdBase = s.bdBase ∧ t.bdLen = s.bdLen ∧ t.qstep = s.qstep ∧ t.cseq = s.cseq ∧
    t.port = s.port ∧ t.reply = s.reply ∧
    (t.coef ≠ s.coef → (∃ o, i = .twDec o) ∨ (∃ c, i = .qzQuant c) ∨ (∃ c, i = .qzDequant c) ∨ i = .qzTakedc) ∧
    (t.bitr ≠ s.bitr → (∃ p, i = .bdGet p) ∨ i = .bdGetu) ∧
    (t.val ≠ s.val → ∃ c, i = .tvDec c) ∧
    (t.dcr ≠ s.dcr → i = .qzTakedc) ∧
    (t.bd ≠ s.bd → i = .bdInit ∨ (∃ p, i = .bdGet p) ∨ i = .bdGetu ∨ (∃ c, i = .tvDec c) ∨ ∃ o, i = .twDec o) ∧
    (t.be ≠ s.be → i = .beInit ∨ (∃ b p, i = .bePut b p) ∨ (∃ b, i = .bePutu b) ∨ i = .beFlush ∨ (∃ c, i = .tvEnc c) ∨
      ∃ o, i = .twEnc o) ∧
    (t.brc ≠ s.brc → (∃ o, i = .twDec o) ∨ (∃ o, i = .twEnc o) ∨ i = .brcClr) ∧
    (t.tw ≠ s.tw → (∃ o, i = .twDec o) ∨ ∃ o, i = .twEnc o)

/-- The reset state meets the invariant of the machine (R53), whatever the open parameters are (R6; log entries 4, 11, 13)
and whatever the host's list. -/
def Obligations.InvariantAtReset : Prop :=
  State.reset.Inv ∧ ∀ p : Port, p.sizes.obuf < 2 ^ 32 → ({ State.reset with port := p } : State).Inv

/-- Every step keeps the invariant (R33, R38, R39, R41, R43 to R45, R50, R134, R262). -/
def Obligations.EveryStepKeepsTheInvariant : Prop := ∀ s t : State, s.Inv → step s = .next t → t.Inv

/-- R134, R250, R54: from a state that meets the invariant a step stops the model in one case only, which the host brings
about: a decoding command fetches a byte of its partition that nothing has written. In particular no carry runs off the front
of the buffer, and no step is refused. -/
def Obligations.OnlyTheHostCanStopARun : Prop :=
  ∀ s : State, s.Inv →
    (∀ f, step s = .fault f → f = .unwrittenInput ∧ s.err = 0 ∧
      ∃ w rest i, s.host = .cmd w :: rest ∧ decode w = .ok i ∧
        (i = .bdInit ∧ (∃ k, k < 2 ∧ k < s.bdLen.toNat ∧ s.ibuf.read .buffer (s.bdBase.toNat + k) = none) ∨
          ((∃ p, i = .bdGet p ∧ p ≠ 0) ∨ i = .bdGetu ∨ (∃ c, i = .tvDec c) ∨ ∃ o, i = .twDec o) ∧
            s.bd.active = true ∧ ¬s.bd.InputWritten s.ibuf)) ∧
    ∀ r, step s ≠ .refused r

/-- R271: what an error raised during execution leaves is not observable: two halted states that agree on `ERR`, `ERRINFO`,
`CSEQ` answer every transaction alike, and stay so until a reset makes them equal. The model's own fields (log entries 1, 3,
4, 5, 13) are taken to agree. -/
def Obligations.PartialStateIsUnobservable : Prop :=
  ∀ s s' : State,
    let alike := fun a a' : State => a.err ≠ 0 ∧ a.midHalt = true ∧ a.err = a'.err ∧ a.errInfo = a'.errInfo ∧
      a.cseq = a'.cseq ∧ a.port = a'.port ∧ a.reply = a'.reply ∧ a.midHalt = a'.midHalt ∧ a.tick = a'.tick ∧
      a.resets = a'.resets
    alike s s' → ∃ t t', step s = .next t ∧ step s' = .next t' ∧ (alike t t' ∨ t = t')
end

