-- ==== Sys2Proof/Laws/Memory.lean ====
section
/-! SUPPORT. The laws of the element-indexed memories: a read after a write, and the canonical form. -/

namespace Sys2Proof.Machine

variable {w : Nat}

theorem Memory.find_put (m : Memory w) (a b : Nat) (v : BitVec w) :
    Memory.find (Memory.put m a v) b = if b = a then some v else Memory.find m b := by
  induction m with
  | nil => simp [Memory.put, Memory.find]
  | cons c m ih =>
    obtain ⟨k, x⟩ := c
    by_cases h1 : a < k
    · simp only [Memory.put, if_pos h1, Memory.find]
    · by_cases h2 : a = k
      · subst h2; simp only [Memory.put, lt_irrefl, if_false, if_true, Memory.find]; split_ifs <;> rfl
      · simp only [Memory.put, if_neg h1, if_neg h2, Memory.find, ih]
        by_cases h3 : b = k
        · subst h3; simp [Ne.symm h2]
        · simp [h3]

theorem Memory.find_erase (m : Memory w) (a b : Nat) :
    Memory.find (Memory.erase m a) b = if b = a then none else Memory.find m b := by
  induction m with
  | nil => simp [Memory.erase, Memory.find]
  | cons c m ih =>
    obtain ⟨k, x⟩ := c
    simp only [Memory.erase] at ih
    by_cases h : k = a
    · subst h
      simp only [Memory.erase, List.filter_cons, bne_self_eq_false, Bool.false_eq_true, if_false, ih, Memory.find]
      split_ifs <;> rfl
    · have hb : (k != a) = true := by simpa using h
      simp only [Memory.erase, List.filter_cons, hb, if_true, Memory.find, ih]
      split_ifs with h1 h2 <;> first | rfl | (subst h2; exact absurd h1.symm h)

theorem Memory.read_write (k : Backing) (m : Memory w) (a b : Nat) (v : BitVec w) :
    Memory.read k (Memory.write k m a v) b = if b = a then some v else Memory.read k m b := by
  unfold Memory.read Memory.write
  by_cases h : some v = (k.unlisted : Option (BitVec w))
  · rw [if_pos h, Memory.find_erase]; split_ifs with hb <;> simp [← h]
  · rw [if_neg h, Memory.find_put]; split_ifs <;> simp

@[simp] theorem Memory.read_write_same (k : Backing) (m : Memory w) (a : Nat) (v : BitVec w) :
    Memory.read k (Memory.write k m a v) a = some v := by simp [Memory.read_write]

theorem Memory.read_write_other (k : Backing) (m : Memory w) {a b : Nat} (v : BitVec w) (h : b ≠ a) :
    Memory.read k (Memory.write k m a v) b = Memory.read k m b := by simp [Memory.read_write, h]

theorem Memory.get_write (m : Memory w) (a b : Nat) (v : BitVec w) :
    Memory.get (Memory.write .table m a v) b = if b = a then v else Memory.get m b := by
  unfold Memory.get; rw [Memory.read_write]; split_ifs <;> rfl

@[simp] theorem Memory.get_nil (a : Nat) : Memory.get ([] : Memory w) a = 0 := rfl

theorem Memory.read_table (m : Memory w) (a : Nat) : Memory.read .table m a = some (Memory.get m a) := by
  unfold Memory.get Memory.read
  cases h : Memory.find m a <;> simp [Backing.unlisted]

theorem Memory.mem_put {m : Memory w} {a : Nat} {v : BitVec w} {c : Nat × BitVec w}
    (h : c ∈ Memory.put m a v) : c = (a, v) ∨ c ∈ m := by
  induction m with
  | nil => simpa [Memory.put] using h
  | cons d m ih =>
    obtain ⟨k, x⟩ := d
    unfold Memory.put at h
    split_ifs at h with h1 h2
    · simpa using h
    · rcases List.mem_cons.mp h with h | h
      · exact .inl h
      · exact .inr (List.mem_cons_of_mem _ h)
    · rcases List.mem_cons.mp h with h | h
      · exact .inr (h ▸ List.mem_cons_self)
      · exact (ih h).imp_right (List.mem_cons_of_mem _)

theorem Memory.sorted_put {m : Memory w} (a : Nat) (v : BitVec w)
    (h : (m.map Prod.fst).Pairwise (· < ·)) : ((Memory.put m a v).map Prod.fst).Pairwise (· < ·) := by
  induction m with
  | nil => simp [Memory.put]
  | cons d m ih =>
    obtain ⟨k, x⟩ := d
    simp only [List.map_cons, List.pairwise_cons] at h
    unfold Memory.put
    split_ifs with h1 h2
    · simp only [List.map_cons, List.pairwise_cons]
      refine ⟨fun y hy => ?_, h.1, h.2⟩
      rcases List.mem_cons.mp hy with rfl | hy
      · exact h1
      · exact h1.trans (h.1 y hy)
    · subst h2; simpa using h
    · simp only [List.map_cons, List.pairwise_cons]
      refine ⟨fun y hy => ?_, ih h.2⟩
      obtain ⟨c, hc, rfl⟩ := List.mem_map.mp hy
      rcases Memory.mem_put hc with rfl | hc
      · exact lt_of_le_of_ne (not_lt.mp h1) (Ne.symm h2)
      · exact h.1 _ (List.mem_map_of_mem hc)

/-- Every write keeps the canonical form. -/
theorem Memory.write_wf {k : Backing} {m : Memory w} (a : Nat) (v : BitVec w) (h : Memory.wf k m) :
    Memory.wf k (Memory.write k m a v) := by
  unfold Memory.write
  split_ifs with hv
  · refine ⟨h.1.sublist ?_, fun c hc => h.2 c (List.mem_filter.mp hc).1⟩
    exact (List.filter_sublist).map _
  · refine ⟨Memory.sorted_put a v h.1, fun c hc => ?_⟩
    rcases Memory.mem_put hc with rfl | hc
    · exact hv
    · exact h.2 c hc

/-- Every write inside a space stays inside it. -/
theorem Memory.write_within {k : Backing} {m : Memory w} {n a : Nat} (v : BitVec w) (ha : a < n)
    (h : Memory.within n m) : Memory.within n (Memory.write k m a v) := by
  unfold Memory.write
  split_ifs
  · exact fun c hc => h c (List.mem_filter.mp hc).1
  · intro c hc
    rcases Memory.mem_put hc with rfl | hc
    · exact ha
    · exact h c hc

theorem Memory.wf_nil (k : Backing) : Memory.wf k ([] : Memory w) := by simp [Memory.wf]

end Sys2Proof.Machine
end

