-- ==== Sys2Proof/Laws/Res.lean ====
section
/-! SUPPORT. Taking the result of a piece of a command apart, once for all. -/

namespace Sys2Proof.Machine

variable {σ τ α β : Type}

@[simp] theorem Res.bind_ok (a : α) (s : σ) (f : α → σ → Res σ β) : (Res.ok a s).bind f = f a s := rfl
@[simp] theorem Res.bind_raise (e : Err) (s : σ) (f : α → σ → Res σ β) : (Res.raise e s).bind f = .raise e s := rfl
@[simp] theorem Res.bind_stop (x : Fault) (f : α → σ → Res σ β) : (Res.stop x).bind f = .stop x := rfl
@[simp] theorem Res.into_ok (a : α) (s : σ) (f : σ → τ) : (Res.ok a s).into f = .ok a (f s) := rfl
@[simp] theorem Res.into_raise (e : Err) (s : σ) (f : σ → τ) : (Res.raise e s : Res σ α).into f = .raise e (f s) := rfl
@[simp] theorem Res.into_stop (x : Fault) (f : σ → τ) : (Res.stop x : Res σ α).into f = .stop x := rfl

theorem Res.bind_eq_ok {r : Res σ α} {f : α → σ → Res σ β} {b : β} {t : σ} :
    r.bind f = .ok b t ↔ ∃ a s, r = .ok a s ∧ f a s = .ok b t := by
  cases r <;> simp [Res.bind]

theorem Res.bind_eq_raise {r : Res σ α} {f : α → σ → Res σ β} {e : Err} {t : σ} :
    r.bind f = .raise e t ↔ r = .raise e t ∨ ∃ a s, r = .ok a s ∧ f a s = .raise e t := by
  cases r <;> simp [Res.bind]

theorem Res.bind_eq_stop {r : Res σ α} {f : α → σ → Res σ β} {x : Fault} :
    r.bind f = .stop x ↔ r = .stop x ∨ ∃ a s, r = .ok a s ∧ f a s = .stop x := by
  cases r <;> simp [Res.bind]

theorem Res.into_eq_ok {r : Res σ α} {f : σ → τ} {a : α} {t : τ} :
    r.into f = .ok a t ↔ ∃ s, r = .ok a s ∧ f s = t := by
  cases r <;> simp [Res.into]

theorem Res.into_eq_raise {r : Res σ α} {f : σ → τ} {e : Err} {t : τ} :
    r.into f = .raise e t ↔ ∃ s, r = .raise e s ∧ f s = t := by
  cases r <;> simp [Res.into]

theorem Res.into_eq_stop {r : Res σ α} {f : σ → τ} {x : Fault} : r.into f = .stop x ↔ r = .stop x := by
  cases r <;> simp [Res.into]

theorem Res.bind_assoc {γ : Type} (r : Res σ α) (f : α → σ → Res σ β) (g : β → σ → Res σ γ) :
    (r.bind f).bind g = r.bind fun a s => (f a s).bind g := by cases r <;> rfl

/-- `R s x` holds of the state a result carries, if it carries one. -/
def Res.Carries (P : σ → Prop) : Res σ α → Prop
  | .ok _ s => P s
  | .raise _ s => P s
  | .stop _ => True

theorem Res.Carries.bind {P Q : σ → Prop} {r : Res σ α} {f : α → σ → Res σ β} (h : r.Carries P)
    (hq : ∀ s, P s → Q s) (hf : ∀ a s, P s → (f a s).Carries Q) : (r.bind f).Carries Q := by
  cases r with
  | ok a s => exact hf a s h
  | raise e s => exact hq s h
  | stop x => trivial

theorem Res.Carries.into {P : τ → Prop} {r : Res σ α} {f : σ → τ} (h : r.Carries fun s => P (f s)) :
    (r.into f).Carries P := by cases r <;> exact h

theorem Res.Carries.mono {P Q : σ → Prop} {r : Res σ α} (h : r.Carries P) (hpq : ∀ s, P s → Q s) : r.Carries Q := by
  cases r with
  | ok a s => exact hpq s h
  | raise e s => exact hpq s h
  | stop x => trivial

/-- How a result ends: `P` of a value and its state, `Q` of an error and its state, `F` of a stop. -/
def Res.Ends (P : α → σ → Prop) (Q : Err → σ → Prop) (F : Fault → Prop) : Res σ α → Prop
  | .ok a s => P a s
  | .raise e s => Q e s
  | .stop f => F f

theorem Res.Ends.bind {P : α → σ → Prop} {P' : β → σ → Prop} {Q : Err → σ → Prop} {F : Fault → Prop} {r : Res σ α}
    {f : α → σ → Res σ β} (h : r.Ends P Q F) (hf : ∀ a s, P a s → (f a s).Ends P' Q F) : (r.bind f).Ends P' Q F := by
  cases r with
  | ok a s => exact hf a s h
  | raise e s => exact h
  | stop x => exact h

theorem Res.Ends.mono {P P' : α → σ → Prop} {Q Q' : Err → σ → Prop} {F F' : Fault → Prop} {r : Res σ α}
    (h : r.Ends P Q F) (hp : ∀ a s, P a s → P' a s) (hq : ∀ e s, Q e s → Q' e s) (hf : ∀ x, F x → F' x) :
    r.Ends P' Q' F' := by
  cases r with
  | ok a s => exact hp a s h
  | raise e s => exact hq e s h
  | stop x => exact hf x h

theorem Res.Ends.into {P : α → τ → Prop} {Q : Err → τ → Prop} {F : Fault → Prop} {r : Res σ α} {f : σ → τ}
    (h : r.Ends (fun a s => P a (f s)) (fun e s => Q e (f s)) F) : (r.into f).Ends P Q F := by cases r <;> exact h

theorem Res.Ends.eq_ok {P : α → σ → Prop} {r : Res σ α} (h : r.Ends P (fun _ _ => False) (fun _ => False)) :
    ∃ a s, r = .ok a s ∧ P a s := by
  cases r with
  | ok a s => exact ⟨a, s, rfl, h⟩
  | raise e s => exact h.elim
  | stop x => exact h.elim

/-! ### finish and reject -/

theorem finish_eq_next {r : Res State Unit} {t : State} :
    finish r = .next t ↔
      r = .ok () t ∨ ∃ e s, r = .raise e s ∧ t = { s.haltEntry e with midHalt := true } := by
  cases r <;> simp [finish, eq_comm]

theorem finish_eq_fault {r : Res State Unit} {f : Fault} : finish r = .fault f ↔ r = .stop f := by
  cases r <;> simp [finish]

theorem finish_ne_refused {r : Res State Unit} {f : Refusal} : finish r ≠ .refused f := by
  cases r <;> simp [finish]

end Sys2Proof.Machine
end

