-- ==== Sys2Proof/Laws/Carry.lean ====
section
/-! SUPPORT. Carry propagation (41_boolean_encoder.md R134): it adds 1 to the number the output bytes form, unless they are
all 0xFF. -/

namespace Sys2Proof.Machine

theorem outNumber_congr {o o' : Memory 8} {n : Nat} (h : ∀ i, i < n → o'.read .buffer i = o.read .buffer i) :
    outNumber o' n = outNumber o n := by
  induction n with
  | zero => rfl
  | succ n ih => simp only [outNumber, h n (Nat.lt_succ_self n), ih fun i hi => h i (by omega)]

theorem outNumber_write_ge {o : Memory 8} {n a : Nat} (v : Byte) (h : n ≤ a) :
    outNumber (o.write .buffer a v) n = outNumber o n :=
  outNumber_congr fun i hi => Memory.read_write_other _ _ _ (by omega)

theorem outNumber_write_last (o : Memory 8) (n : Nat) (v : Byte) :
    outNumber (o.write .buffer n v) (n + 1) = outNumber o n * 256 + v.toNat := by
  simp [outNumber, outNumber_write_ge]

theorem outNumber_lt (o : Memory 8) (n : Nat) : outNumber o n < 256 ^ n := by
  induction n with
  | zero => simp [outNumber]
  | succ n ih =>
    have : ((o.read .buffer n).getD 0).toNat < 256 := ((o.read .buffer n).getD 0).isLt
    simp only [outNumber, pow_succ]
    omega

/-- Everything `carryInto` can do when the bytes have values and are not all 0xFF: it adds 1 to the number, and leaves
alone what stands before a byte other than 0xFF. -/
theorem carryInto_spec {o : Memory 8} {n : Nat} (hw : ∀ i, i < n → (o.read .buffer i).isSome)
    (hn : outNumber o n + 1 < 256 ^ n) :
    ∃ o', carryInto o n = .ok o' ∧ outNumber o' n = outNumber o n + 1 ∧
      (∀ i, (o.read .buffer i).isSome → (o'.read .buffer i).isSome) ∧
      (∀ i, n ≤ i → o'.read .buffer i = o.read .buffer i) ∧
      ∀ i j, i < j → j < n → o.read .buffer j ≠ some 255 → o'.read .buffer i = o.read .buffer i := by
  induction n generalizing o with
  | zero => simp [outNumber] at hn
  | succ n ih =>
    obtain ⟨x, hx⟩ := Option.isSome_iff_exists.mp (hw n (Nat.lt_succ_self n))
    by_cases h255 : x = 255
    · subst h255
      have hnx := hx
      have hn' : outNumber (o.write .buffer n 0) n + 1 < 256 ^ n := by
        rw [outNumber_write_ge _ le_rfl]
        simp only [outNumber, hx, Option.getD_some, pow_succ] at hn
        have : (255 : Byte).toNat = 255 := rfl
        omega
      obtain ⟨o', h1, h2, h3, h4, h5⟩ := ih (o := o.write .buffer n 0)
        (fun i hi => by rw [Memory.read_write_other _ _ _ (by omega)]; exact hw i (by omega)) hn'
      refine ⟨o', by simp only [carryInto, hx, if_true, h1], ?_, fun i hi => h3 i ?_, fun i hi => ?_, fun i j hij hj hx => ?_⟩
      · simp only [outNumber, h2, h4 n le_rfl, Memory.read_write_same, hx, Option.getD_some,
          outNumber_write_ge _ (le_refl n)]
        have : (255 : Byte).toNat = 255 := rfl
        have : (0 : Byte).toNat = 0 := rfl
        omega
      · rw [Memory.read_write]; split_ifs <;> simp [hi]
      · rw [h4 i (by omega), Memory.read_write_other _ _ _ (by omega)]
      · have hjn : j ≠ n := fun hjn => hx (hjn ▸ hnx)
        rw [h5 i j hij (by omega) (by rwa [Memory.read_write_other _ _ _ hjn]),
          Memory.read_write_other _ _ _ (by omega)]
    · refine ⟨o.write .buffer n (x + 1), by simp only [carryInto, hx, if_neg h255], ?_, fun i hi => ?_, fun i hi => ?_,
        fun i j hij hj _ => ?_⟩
      · rw [outNumber_write_last]
        simp only [outNumber, hx, Option.getD_some]
        have h1 : x.toNat ≠ 255 := fun h => h255 (BitVec.eq_of_toNat_eq h)
        have h2 : x.toNat < 256 := x.isLt
        rw [BitVec.toNat_add]
        have : (1 : Byte).toNat = 1 := rfl
        omega
      · rw [Memory.read_write]; split_ifs <;> simp [hi]
      · exact Memory.read_write_other _ _ _ (by omega)
      · exact Memory.read_write_other _ _ _ (by omega)

/-- Whatever the bytes, a carry keeps the canonical form and the bounds of the buffer. -/
theorem carryInto_keeps {size : Nat} {o o' : Memory 8} {n : Nat} (hn : n ≤ size) (h : carryInto o n = .ok o')
    (hwf : o.wf .buffer) (hin : o.within size) : o'.wf .buffer ∧ o'.within size := by
  induction n generalizing o with
  | zero => simp [carryInto] at h
  | succ n ih =>
    unfold carryInto at h
    split at h
    · simp at h
    · split_ifs at h
      · exact ih (by omega) h (Memory.write_wf _ _ hwf) (Memory.write_within _ (by omega) hin)
      · cases h
        exact ⟨Memory.write_wf _ _ hwf, Memory.write_within _ (by omega) hin⟩

end Sys2Proof.Machine
end

