-- ==== Sys2Proof/Laws/Split.lean ====
section
/-! SUPPORT. The arithmetic both halves of the coder share: the split (40_boolean_decoder.md R113, R118 (a)) and the number
of shifts that bring a range back to at least 128 (R118 (c)). -/

namespace Sys2Proof.Machine

theorem split_pos (r p : Byte) : 1 ≤ split r p := by unfold split; omega

/-- R118 (a): both outcomes leave a range of at least 1. -/
theorem split_lt {r : Byte} (p : Byte) (h : 2 ≤ r.toNat) : split r p ≤ r.toNat - 1 := by
  unfold split
  rw [Nat.shiftRight_eq_div_pow]
  have hp : p.toNat < 256 := p.isLt
  have h1 : (r.toNat - 1) * p.toNat < (r.toNat - 1) * 256 := Nat.mul_lt_mul_of_pos_left hp (by omega)
  have h2 : (r.toNat - 1) * p.toNat / 2 ^ 8 < r.toNat - 1 := by
    rw [Nat.div_lt_iff_lt_mul (by norm_num)]; simpa using h1
  omega

/-- A range of at least 1 reaches 128 in at most 7 doublings, without passing 255 (R118 (b), (c)). -/
theorem exists_norm {r : Nat} (h1 : 1 ≤ r) (h2 : r ≤ 255) : ∃ k ≤ 7, 128 ≤ r * 2 ^ k ∧ r * 2 ^ k ≤ 255 := by
  have hl := Nat.log2_self_le (n := r) (by omega)
  have hu := Nat.lt_log2_self (n := r)
  have h7 : r.log2 ≤ 7 := by
    by_contra h
    have : 2 ^ 8 ≤ 2 ^ r.log2 := Nat.pow_le_pow_right (by norm_num) (by omega)
    omega
  refine ⟨7 - r.log2, by omega, ?_⟩
  generalize r.log2 = l at *
  interval_cases l <;> omega

/-- The number of doublings is determined by the range. -/
theorem norm_unique {r j k : Nat} (hj1 : 128 ≤ r * 2 ^ j) (hj2 : r * 2 ^ j ≤ 255) (hk1 : 128 ≤ r * 2 ^ k)
    (hk2 : r * 2 ^ k ≤ 255) : j = k := by
  by_contra h
  rcases Nat.lt_or_gt_of_ne h with h | h
  · have : 2 ^ (j + 1) ≤ 2 ^ k := Nat.pow_le_pow_right (by norm_num) h
    have := Nat.mul_le_mul_left r this
    rw [pow_succ, ← mul_assoc] at this
    omega
  · have : 2 ^ (k + 1) ≤ 2 ^ j := Nat.pow_le_pow_right (by norm_num) h
    have := Nat.mul_le_mul_left r this
    rw [pow_succ, ← mul_assoc] at this
    omega

theorem shift_range {r : Byte} (h : r.toNat < 128) : (r <<< 1).toNat = 2 * r.toNat := by
  rw [BitVec.toNat_shiftLeft, Nat.shiftLeft_eq]
  omega

end Sys2Proof.Machine
end

