-- ==== Sys2Proof/Laws/DecoderGet.lean ====
section
/-! SUPPORT. Everything a byte fetch, the renormalisation loop and a decode query can do (40_boolean_decoder.md R112, R113,
R118). -/

namespace Sys2Proof.Machine

/-- The byte the next fetch returns (R112): the next byte of the partition, 0 beyond its end. -/
def Decoder.nextValue (ibuf : Memory 8) (d : Decoder) : Byte :=
  if d.pos.toNat < d.llen.toNat then (ibuf.read .buffer (d.lbase.toNat + d.pos.toNat)).getD 0 else 0

/-- The decoder after the next fetch (R112). -/
def Decoder.advanced (d : Decoder) : Decoder :=
  if d.pos.toNat < d.llen.toNat then { d with pos := d.pos + 1 } else { d with eoi := true }

@[simp] theorem Decoder.advanced_active (d : Decoder) : d.advanced.active = d.active := by unfold Decoder.advanced; split_ifs <;> rfl
@[simp] theorem Decoder.advanced_lbase (d : Decoder) : d.advanced.lbase = d.lbase := by unfold Decoder.advanced; split_ifs <;> rfl
@[simp] theorem Decoder.advanced_llen (d : Decoder) : d.advanced.llen = d.llen := by unfold Decoder.advanced; split_ifs <;> rfl
@[simp] theorem Decoder.advanced_value (d : Decoder) : d.advanced.value = d.value := by unfold Decoder.advanced; split_ifs <;> rfl
@[simp] theorem Decoder.advanced_range (d : Decoder) : d.advanced.range = d.range := by unfold Decoder.advanced; split_ifs <;> rfl
@[simp] theorem Decoder.advanced_bitcnt (d : Decoder) : d.advanced.bitcnt = d.bitcnt := by unfold Decoder.advanced; split_ifs <;> rfl
@[simp] theorem Decoder.advanced_qcnt (d : Decoder) : d.advanced.qcnt = d.qcnt := by unfold Decoder.advanced; split_ifs <;> rfl

theorem Decoder.advanced_pos (d : Decoder) :
    d.advanced.pos.toNat = if d.pos.toNat < d.llen.toNat then d.pos.toNat + 1 else d.pos.toNat := by
  unfold Decoder.advanced
  split_ifs with h
  · have h1 := d.llen.isLt
    have h2 : (1 : Word).toNat = 1 := rfl
    simp only [BitVec.toNat_add, h2]
    omega
  · rfl

theorem Decoder.advanced_eoi (d : Decoder) : d.advanced.eoi = (d.eoi || decide (d.llen.toNat ≤ d.pos.toNat)) := by
  unfold Decoder.advanced
  split_ifs with h
  · simp [Nat.not_le.mpr h]
  · simp [Nat.not_lt.mp h]

/-- A byte fetch completes when the byte due has been written ... -/
theorem Decoder.nextByte_ok {ibuf : Memory 8} {d : Decoder} (h : d.NextWritten ibuf) :
    d.nextByte ibuf = .ok (d.nextValue ibuf) d.advanced := by
  unfold Decoder.nextByte Decoder.nextValue Decoder.advanced
  by_cases hp : d.pos.toNat < d.llen.toNat
  · obtain ⟨b, hb⟩ := Option.isSome_iff_exists.mp (h hp)
    simp only [if_pos hp, hb, Option.getD_some]
  · simp only [if_neg hp]

/-- ... and stops when it has not. -/
theorem Decoder.nextByte_stop {ibuf : Memory 8} {d : Decoder} (h : ¬d.NextWritten ibuf) :
    d.nextByte ibuf = .stop .unwrittenInput := by
  obtain ⟨hp, hb⟩ := Classical.not_imp.mp h
  simp only [Decoder.nextByte, if_pos hp, Option.not_isSome_iff_eq_none.mp hb]

theorem Decoder.InputWritten.next {d : Decoder} {ibuf : Memory 8} (h : d.InputWritten ibuf) : d.NextWritten ibuf :=
  fun hlt => h _ le_rfl hlt

/-- The decoder after `k` shifts, before any byte they fetch (R113). -/
def Decoder.shifted (k : Nat) (d : Decoder) : Decoder :=
  { d with value := d.value <<< k, range := d.range <<< k, bitcnt := d.bitcnt + BitVec.ofNat 3 k }

/-- The decoder after `k` shifts, with the byte they fetch when the count passes 8 (R113, R118 (d)). -/
def Decoder.renormed (ibuf : Memory 8) (k : Nat) (d : Decoder) : Decoder :=
  if d.bitcnt.toNat + k < 8 then d.shifted k
  else
    { (d.shifted k).advanced with
      value := d.value <<< k ||| (d.nextValue ibuf).zeroExtend 32 <<< (d.bitcnt.toNat + k - 8) }

/-- When `k` shifts can be made: any byte due has been written (R54). -/
def Decoder.CanShift (ibuf : Memory 8) (k : Nat) (d : Decoder) : Prop := 8 ≤ d.bitcnt.toNat + k → d.NextWritten ibuf

theorem shl_range {r : Byte} {k : Nat} (h : r.toNat * 2 ^ k ≤ 255) : (r <<< k).toNat = r.toNat * 2 ^ k := by
  rw [BitVec.toNat_shiftLeft, Nat.shiftLeft_eq]
  omega

theorem Decoder.shifted_succ (k : Nat) (d : Decoder) : (d.shifted 1).shifted k = d.shifted (k + 1) := by
  unfold Decoder.shifted
  congr 1
  · show d.value <<< 1 <<< k = d.value <<< (k + 1)
    rw [Nat.add_comm, BitVec.shiftLeft_add]
  · show d.range <<< 1 <<< k = d.range <<< (k + 1)
    rw [Nat.add_comm, BitVec.shiftLeft_add]
  · show d.bitcnt + BitVec.ofNat 3 1 + BitVec.ofNat 3 k = d.bitcnt + BitVec.ofNat 3 (k + 1)
    apply BitVec.eq_of_toNat_eq
    simp only [BitVec.toNat_add, BitVec.toNat_ofNat]
    omega

theorem Decoder.shift_eq (ibuf : Memory 8) (d : Decoder) :
    d.shift ibuf =
      if d.bitcnt = 7 then
        ((d.shifted 1).nextByte ibuf).bind fun b d => .ok () { d with value := d.value ||| b.zeroExtend 32 }
      else .ok () (d.shifted 1) := by
  have h : d.bitcnt + 1 = 0 ↔ d.bitcnt = 7 := by
    constructor <;> intro h
    · have h2 := congrArg BitVec.toNat h
      apply BitVec.eq_of_toNat_eq
      rw [BitVec.toNat_add] at h2
      have h3 : (1 : BitVec 3).toNat = 1 := rfl
      have h4 : (0 : BitVec 3).toNat = 0 := rfl
      have h5 : (7 : BitVec 3).toNat = 7 := rfl
      have := d.bitcnt.isLt
      omega
    · rw [h]; rfl
  unfold Decoder.shift
  by_cases h7 : d.bitcnt = 7
  · rw [if_pos h7]; exact if_pos (h.mpr h7)
  · rw [if_neg h7]; exact if_neg (mt h.mp h7)

/-- The loop makes `k` shifts, or stops at a byte nothing has written. -/
theorem Decoder.renorm_spec {ibuf : Memory 8} {n k : Nat} {d : Decoder} (hk : k ≤ 7) (hn : k < n)
    (h1 : 1 ≤ d.range.toNat) (h128 : 128 ≤ d.range.toNat * 2 ^ k) (h255 : d.range.toNat * 2 ^ k ≤ 255) :
    (d.CanShift ibuf k → Decoder.renorm ibuf n d = .ok () (d.renormed ibuf k)) ∧
      (¬d.CanShift ibuf k → Decoder.renorm ibuf n d = .stop .unwrittenInput) := by
  induction k generalizing d n with
  | zero =>
    obtain ⟨n, rfl⟩ : ∃ m, n = m + 1 := ⟨n - 1, by omega⟩
    have hb := d.bitcnt.isLt
    have hs : d.renormed ibuf 0 = d := by
      unfold Decoder.renormed
      rw [if_pos (by omega)]
      simp [Decoder.shifted]
    simp only [pow_zero, mul_one] at h128
    exact ⟨fun _ => by rw [hs]; simp only [Decoder.renorm, h128, if_true], fun h => absurd (fun h => by omega) h⟩
  | succ k ih =>
    obtain ⟨n, rfl⟩ : ∃ m, n = m + 1 := ⟨n - 1, by omega⟩
    have hp : 1 ≤ 2 ^ k := Nat.one_le_two_pow
    rw [pow_succ, ← mul_assoc] at h128 h255
    have hle : d.range.toNat ≤ d.range.toNat * 2 ^ k := Nat.le_mul_of_pos_right _ hp
    have hlt : d.range.toNat < 128 := by omega
    have hr : (d.range <<< 1).toNat = 2 * d.range.toNat := shift_range hlt
    have hb := d.bitcnt.isLt
    simp only [Decoder.renorm, if_neg (show ¬128 ≤ d.range.toNat by omega), Decoder.shift_eq]
    by_cases h7 : d.bitcnt = 7
    · have h7' : d.bitcnt.toNat = 7 := by rw [h7]; rfl
      have hnw : (d.shifted 1).NextWritten ibuf ↔ d.NextWritten ibuf := Iff.rfl
      have hcs : d.CanShift ibuf (k + 1) ↔ d.NextWritten ibuf :=
        ⟨fun h => h (by omega), fun h _ => h⟩
      rw [if_pos h7, hcs]
      refine ⟨fun h => ?_, fun h => by rw [Decoder.nextByte_stop (mt hnw.mp h)]; rfl⟩
      rw [Decoder.nextByte_ok (hnw.mpr h), Res.bind_ok, Res.bind_ok]
      have hbz : (d.shifted 1).advanced.bitcnt = 0 := by
        rw [Decoder.advanced_bitcnt]
        show d.bitcnt + BitVec.ofNat 3 1 = 0
        rw [h7]; rfl
      have hrr : (d.shifted 1).advanced.range = d.range <<< 1 := by rw [Decoder.advanced_range]; rfl
      rw [(ih (d := { (d.shifted 1).advanced with
          value := (d.shifted 1).advanced.value ||| ((d.shifted 1).nextValue ibuf).zeroExtend 32 })
        (by omega) (show k < n by omega) (by simp only [hrr]; omega) (by simp only [hrr, hr]; linarith)
        (by simp only [hrr, hr]; linarith)).1 (fun h8 => by simp only [hbz] at h8; simp at h8; omega)]
      congr 1
      unfold Decoder.renormed
      have hz : (0 : BitVec 3).toNat = 0 := rfl
      rw [if_pos (by simp only [hbz, hz]; omega), if_neg (by omega), ← Decoder.shifted_succ k d]
      have hk0 : d.bitcnt.toNat + (k + 1) - 8 = k := by omega
      rw [hk0]
      have hadv : ∀ x : Decoder, (x.shifted k).advanced = x.advanced.shifted k := by
        intro x; unfold Decoder.advanced Decoder.shifted; dsimp only; split_ifs <;> rfl
      rw [hadv]
      unfold Decoder.shifted
      congr 1
      show ((_ : Word) ||| _) <<< k = _
      rw [BitVec.shiftLeft_or_distrib]
      congr 1
      show (Decoder.advanced _).value <<< k = _
      rw [Decoder.advanced_value]
      show d.value <<< 1 <<< k = _
      rw [Nat.add_comm k 1, BitVec.shiftLeft_add]
    · have hne : d.bitcnt.toNat ≠ 7 := fun h => h7 (BitVec.eq_of_toNat_eq (by rw [h]; rfl))
      have hbs : (d.shifted 1).bitcnt.toNat = d.bitcnt.toNat + 1 := by
        show (d.bitcnt + BitVec.ofNat 3 1).toNat = _
        rw [BitVec.toNat_add, BitVec.toNat_ofNat]; omega
      have hrr : (d.shifted 1).range = d.range <<< 1 := rfl
      have hcs : d.CanShift ibuf (k + 1) ↔ (d.shifted 1).CanShift ibuf k := by
        unfold Decoder.CanShift
        rw [hbs, show d.bitcnt.toNat + 1 + k = d.bitcnt.toNat + (k + 1) by omega]
        exact Iff.rfl
      rw [if_neg h7, Res.bind_ok, hcs]
      have := ih (d := d.shifted 1) (by omega) (show k < n by omega) (by rw [hrr]; omega) (by rw [hrr, hr]; linarith)
        (by rw [hrr, hr]; linarith)
      refine ⟨fun h => ?_, this.2⟩
      rw [this.1 h]
      congr 1
      unfold Decoder.renormed
      rw [hbs, Decoder.shifted_succ, show d.bitcnt.toNat + 1 + k = d.bitcnt.toNat + (k + 1) by omega]
      have hv : (d.shifted 1).value <<< k = d.value <<< (k + 1) := by
        show d.value <<< 1 <<< k = _
        rw [Nat.add_comm k 1, BitVec.shiftLeft_add]
      rw [hv]
      rfl

/-! ### The query -/

theorem Decoder.narrow_range {d : Decoder} (p : Byte) (h : 2 ≤ d.range.toNat) :
    (d.narrow p).range.toNat = if d.decision p then d.range.toNat - split d.range p else split d.range p := by
  have h1 := split_pos d.range p
  have h2 := split_lt p h
  have h3 := d.range.isLt
  unfold Decoder.narrow
  split_ifs <;> simp only [BitVec.toNat_ofNat] <;> omega

theorem Decoder.narrow_value {d : Decoder} (p : Byte) :
    (d.narrow p).value.toNat = if d.decision p then d.value.toNat - split d.range p * 256 else d.value.toNat := by
  have := d.value.isLt
  unfold Decoder.narrow
  split_ifs <;> simp only [BitVec.toNat_ofNat]
  omega

/-- The narrowing touches range and value only. -/
theorem Decoder.narrow_same (p : Byte) (d : Decoder) :
    d.narrow p = { d with range := (d.narrow p).range, value := (d.narrow p).value } := by
  unfold Decoder.narrow; split_ifs <;> rfl

/-- The number of shifts of a query (R118 (c)). -/
theorem Decoder.narrow_norm {d : Decoder} (p : Byte) (h : 2 ≤ d.range.toNat) :
    ∃ k ≤ 7, 128 ≤ (d.narrow p).range.toNat * 2 ^ k ∧ (d.narrow p).range.toNat * 2 ^ k ≤ 255 := by
  have h1 := split_pos d.range p
  have h2 := split_lt p h
  have hr := Decoder.narrow_range p h
  refine exists_norm ?_ ?_
  · rw [hr]; split_ifs <;> omega
  · have := (d.narrow p).range.isLt; omega

/-- The decoder after a query that shifts `k` times (R113). -/
def Decoder.queried (ibuf : Memory 8) (p : Byte) (k : Nat) (d : Decoder) : Decoder :=
  { (d.narrow p).renormed ibuf k with qcnt := d.qcnt + 1 }

theorem Decoder.renormed_qcnt (ibuf : Memory 8) (k : Nat) (d : Decoder) : (d.renormed ibuf k).qcnt = d.qcnt := by
  unfold Decoder.renormed; split_ifs
  · rfl
  · exact Decoder.advanced_qcnt _

theorem Decoder.renormed_range (ibuf : Memory 8) (k : Nat) (d : Decoder) :
    (d.renormed ibuf k).range = d.range <<< k := by
  unfold Decoder.renormed; split_ifs
  · rfl
  · exact Decoder.advanced_range _

theorem Decoder.renormed_bitcnt (ibuf : Memory 8) (k : Nat) (d : Decoder) :
    (d.renormed ibuf k).bitcnt.toNat = (d.bitcnt.toNat + k) % 8 := by
  have h : (d.shifted k).bitcnt.toNat = (d.bitcnt.toNat + k) % 8 := by
    show (d.bitcnt + BitVec.ofNat 3 k).toNat = _
    rw [BitVec.toNat_add, BitVec.toNat_ofNat]; omega
  unfold Decoder.renormed; split_ifs
  · exact h
  · exact (congrArg BitVec.toNat (Decoder.advanced_bitcnt _)).trans h

theorem Decoder.renormed_active (ibuf : Memory 8) (k : Nat) (d : Decoder) :
    (d.renormed ibuf k).active = d.active := by
  unfold Decoder.renormed; split_ifs
  · rfl
  · exact Decoder.advanced_active _

theorem Decoder.renormed_lbase (ibuf : Memory 8) (k : Nat) (d : Decoder) : (d.renormed ibuf k).lbase = d.lbase := by
  unfold Decoder.renormed; split_ifs
  · rfl
  · exact Decoder.advanced_lbase _

theorem Decoder.renormed_llen (ibuf : Memory 8) (k : Nat) (d : Decoder) : (d.renormed ibuf k).llen = d.llen := by
  unfold Decoder.renormed; split_ifs
  · rfl
  · exact Decoder.advanced_llen _

theorem Decoder.renormed_pos (ibuf : Memory 8) (k : Nat) (d : Decoder) :
    (d.renormed ibuf k).pos.toNat =
      if 8 ≤ d.bitcnt.toNat + k ∧ d.pos.toNat < d.llen.toNat then d.pos.toNat + 1 else d.pos.toNat := by
  unfold Decoder.renormed
  by_cases h : d.bitcnt.toNat + k < 8
  · rw [if_pos h, if_neg (by omega)]; rfl
  · rw [if_neg h]
    refine (Decoder.advanced_pos _).trans ?_
    show (if d.pos.toNat < d.llen.toNat then d.pos.toNat + 1 else d.pos.toNat) = _
    by_cases h2 : d.pos.toNat < d.llen.toNat
    · rw [if_pos h2, if_pos ⟨by omega, h2⟩]
    · rw [if_neg h2, if_neg fun h3 => h2 h3.2]

/-- Everything a decode query can do from a range of at least 2 (R118): complete after at most 7 shifts, or stop at a byte
nothing has written. -/
theorem Decoder.get_spec {d : Decoder} (ibuf : Memory 8) (p : Byte) (h : 2 ≤ d.range.toNat) :
    ∃ k ≤ 7, 128 ≤ (d.narrow p).range.toNat * 2 ^ k ∧ (d.narrow p).range.toNat * 2 ^ k ≤ 255 ∧
      (d.CanShift ibuf k → d.get ibuf p = .ok (d.decision p) (d.queried ibuf p k)) ∧
      (¬d.CanShift ibuf k → d.get ibuf p = .stop .unwrittenInput) := by
  obtain ⟨k, hk, h128, h255⟩ := Decoder.narrow_norm p h
  have hpos : 1 ≤ (d.narrow p).range.toNat := by
    by_contra h0
    rw [show (d.narrow p).range.toNat = 0 by omega] at h128
    omega
  have hc : (d.narrow p).CanShift ibuf k ↔ d.CanShift ibuf k := by rw [Decoder.narrow_same]; exact Iff.rfl
  obtain ⟨h1, h2⟩ := Decoder.renorm_spec (ibuf := ibuf) hk (show k < 8 by omega) hpos h128 h255
  refine ⟨k, hk, h128, h255, fun hx => ?_, fun hx => ?_⟩
  · rw [Decoder.get, h1 (hc.mpr hx), Res.bind_ok]
    unfold Decoder.queried
    congr 2
    rw [Decoder.renormed_qcnt, Decoder.narrow_same]
  · rw [Decoder.get, h2 (mt hc.mp hx), Res.bind_stop]

theorem Decoder.get_ok {d : Decoder} {ibuf : Memory 8} (p : Byte) (h : 2 ≤ d.range.toNat) (hw : d.NextWritten ibuf) :
    ∃ k ≤ 7, 128 ≤ (d.narrow p).range.toNat * 2 ^ k ∧ (d.narrow p).range.toNat * 2 ^ k ≤ 255 ∧
      d.get ibuf p = .ok (d.decision p) (d.queried ibuf p k) := by
  obtain ⟨k, hk, h1, h2, h3, -⟩ := Decoder.get_spec ibuf p h
  exact ⟨k, hk, h1, h2, h3 fun _ => hw⟩

/-- What a query leaves (R118 (b), (d)); `k` is its number of shifts. -/
structure Decoder.Queried (d d' : Decoder) (p : Byte) (k : Nat) : Prop where
  range_ge : 128 ≤ d'.range.toNat
  range : d'.range.toNat = (if d.decision p then d.range.toNat - split d.range p else split d.range p) * 2 ^ k
  bitcnt : d'.bitcnt.toNat = (d.bitcnt.toNat + k) % 8
  pos : d'.pos.toNat = if 8 ≤ d.bitcnt.toNat + k ∧ d.pos.toNat < d.llen.toNat then d.pos.toNat + 1 else d.pos.toNat
  qcnt : d'.qcnt = d.qcnt + 1
  active : d'.active = d.active
  lbase : d'.lbase = d.lbase
  llen : d'.llen = d.llen

theorem Decoder.queried_spec {d : Decoder} (ibuf : Memory 8) {p : Byte} {k : Nat} (h : 2 ≤ d.range.toNat)
    (h128 : 128 ≤ (d.narrow p).range.toNat * 2 ^ k) (h255 : (d.narrow p).range.toNat * 2 ^ k ≤ 255) :
    d.Queried (d.queried ibuf p k) p k := by
  have hr : (d.queried ibuf p k).range.toNat = (d.narrow p).range.toNat * 2 ^ k := by
    show ((d.narrow p).renormed ibuf k).range.toNat = _
    rw [Decoder.renormed_range, shl_range h255]
  refine ⟨by rw [hr]; exact h128, by rw [hr, Decoder.narrow_range p h], ?_, ?_, rfl, ?_, ?_, ?_⟩
  · refine (Decoder.renormed_bitcnt _ _ _).trans ?_; rw [Decoder.narrow_same]
  · refine (Decoder.renormed_pos _ _ _).trans ?_; rw [Decoder.narrow_same]
  · refine (Decoder.renormed_active _ _ _).trans ?_; rw [Decoder.narrow_same]
  · refine (Decoder.renormed_lbase _ _ _).trans ?_; rw [Decoder.narrow_same]
  · refine (Decoder.renormed_llen _ _ _).trans ?_; rw [Decoder.narrow_same]

/-- A query keeps `BD_POS` inside the partition (R38). -/
theorem Decoder.Queried.pos_le {d d' : Decoder} {p : Byte} {k : Nat} (h : d.Queried d' p k)
    (hp : d.pos.toNat ≤ d.llen.toNat) : d'.pos.toNat ≤ d'.llen.toNat := by
  rw [h.pos, h.llen]; split_ifs <;> omega

/-- Written bytes stay written, as far as the decoder looks. -/
theorem Decoder.Queried.inputWritten {d d' : Decoder} {p : Byte} {k : Nat} {ibuf : Memory 8} (h : d.Queried d' p k)
    (hw : d.InputWritten ibuf) : d'.InputWritten ibuf := by
  intro j h1 h2
  rw [h.lbase]
  rw [h.pos] at h1
  rw [h.llen] at h2
  refine hw j ?_ h2
  split_ifs at h1 <;> omega

theorem Decoder.get_active {ibuf : Memory 8} {p : Byte} {b : Bool} {d d' : Decoder} (hw : d.NextWritten ibuf)
    (h : 2 ≤ d.range.toNat) (hg : d.get ibuf p = .ok b d') : d'.active = d.active := by
  obtain ⟨k, -, h1, h2, h3⟩ := Decoder.get_ok p h hw
  rw [h3] at hg
  cases hg
  exact (Decoder.queried_spec ibuf h h1 h2).active

end Sys2Proof.Machine
end

