-- ==== Sys2Proof/Laws/State.lean ====
section
/-! SUPPORT. One lemma per field per named update of the state, so that no later proof unfolds one. -/

namespace Sys2Proof.Machine

/-! ### setC -/

@[simp] theorem State.setC_coef (s : State) (slot : Fin 16) (v : Int) : (s.setC slot v).coef = s.coef.set slot (BitVec.ofInt 16 v) := rfl
@[simp] theorem State.setC_err (s : State) (slot : Fin 16) (v : Int) : (s.setC slot v).err = s.err := rfl
@[simp] theorem State.setC_errInfo (s : State) (slot : Fin 16) (v : Int) : (s.setC slot v).errInfo = s.errInfo := rfl
@[simp] theorem State.setC_cseq (s : State) (slot : Fin 16) (v : Int) : (s.setC slot v).cseq = s.cseq := rfl
@[simp] theorem State.setC_bitr (s : State) (slot : Fin 16) (v : Int) : (s.setC slot v).bitr = s.bitr := rfl
@[simp] theorem State.setC_val (s : State) (slot : Fin 16) (v : Int) : (s.setC slot v).val = s.val := rfl
@[simp] theorem State.setC_dcr (s : State) (slot : Fin 16) (v : Int) : (s.setC slot v).dcr = s.dcr := rfl
@[simp] theorem State.setC_bdBase (s : State) (slot : Fin 16) (v : Int) : (s.setC slot v).bdBase = s.bdBase := rfl
@[simp] theorem State.setC_bdLen (s : State) (slot : Fin 16) (v : Int) : (s.setC slot v).bdLen = s.bdLen := rfl
@[simp] theorem State.setC_bd (s : State) (slot : Fin 16) (v : Int) : (s.setC slot v).bd = s.bd := rfl
@[simp] theorem State.setC_be (s : State) (slot : Fin 16) (v : Int) : (s.setC slot v).be = s.be := rfl
@[simp] theorem State.setC_tw (s : State) (slot : Fin 16) (v : Int) : (s.setC slot v).tw = s.tw := rfl
@[simp] theorem State.setC_qstep (s : State) (slot : Fin 16) (v : Int) : (s.setC slot v).qstep = s.qstep := rfl
@[simp] theorem State.setC_prob (s : State) (slot : Fin 16) (v : Int) : (s.setC slot v).prob = s.prob := rfl
@[simp] theorem State.setC_brc (s : State) (slot : Fin 16) (v : Int) : (s.setC slot v).brc = s.brc := rfl
@[simp] theorem State.setC_ibuf (s : State) (slot : Fin 16) (v : Int) : (s.setC slot v).ibuf = s.ibuf := rfl
@[simp] theorem State.setC_ibufSize (s : State) (slot : Fin 16) (v : Int) : (s.setC slot v).ibufSize = s.ibufSize := rfl
@[simp] theorem State.setC_obufSize (s : State) (slot : Fin 16) (v : Int) : (s.setC slot v).obufSize = s.obufSize := rfl
@[simp] theorem State.setC_port (s : State) (slot : Fin 16) (v : Int) : (s.setC slot v).port = s.port := rfl
@[simp] theorem State.setC_reply (s : State) (slot : Fin 16) (v : Int) : (s.setC slot v).reply = s.reply := rfl
@[simp] theorem State.setC_midHalt (s : State) (slot : Fin 16) (v : Int) : (s.setC slot v).midHalt = s.midHalt := rfl
@[simp] theorem State.setC_tick (s : State) (slot : Fin 16) (v : Int) : (s.setC slot v).tick = s.tick := rfl
@[simp] theorem State.setC_resets (s : State) (slot : Fin 16) (v : Int) : (s.setC slot v).resets = s.resets := rfl

/-! ### countBranch -/

@[simp] theorem State.countBranch_coef (s : State) (t : TreeCtx) (k : Fin 11) (b : Bool) : (s.countBranch t k b).coef = s.coef := rfl
@[simp] theorem State.countBranch_err (s : State) (t : TreeCtx) (k : Fin 11) (b : Bool) : (s.countBranch t k b).err = s.err := rfl
@[simp] theorem State.countBranch_errInfo (s : State) (t : TreeCtx) (k : Fin 11) (b : Bool) : (s.countBranch t k b).errInfo = s.errInfo := rfl
@[simp] theorem State.countBranch_cseq (s : State) (t : TreeCtx) (k : Fin 11) (b : Bool) : (s.countBranch t k b).cseq = s.cseq := rfl
@[simp] theorem State.countBranch_bitr (s : State) (t : TreeCtx) (k : Fin 11) (b : Bool) : (s.countBranch t k b).bitr = s.bitr := rfl
@[simp] theorem State.countBranch_val (s : State) (t : TreeCtx) (k : Fin 11) (b : Bool) : (s.countBranch t k b).val = s.val := rfl
@[simp] theorem State.countBranch_dcr (s : State) (t : TreeCtx) (k : Fin 11) (b : Bool) : (s.countBranch t k b).dcr = s.dcr := rfl
@[simp] theorem State.countBranch_bdBase (s : State) (t : TreeCtx) (k : Fin 11) (b : Bool) : (s.countBranch t k b).bdBase = s.bdBase := rfl
@[simp] theorem State.countBranch_bdLen (s : State) (t : TreeCtx) (k : Fin 11) (b : Bool) : (s.countBranch t k b).bdLen = s.bdLen := rfl
@[simp] theorem State.countBranch_bd (s : State) (t : TreeCtx) (k : Fin 11) (b : Bool) : (s.countBranch t k b).bd = s.bd := rfl
@[simp] theorem State.countBranch_be (s : State) (t : TreeCtx) (k : Fin 11) (b : Bool) : (s.countBranch t k b).be = s.be := rfl
@[simp] theorem State.countBranch_tw (s : State) (t : TreeCtx) (k : Fin 11) (b : Bool) : (s.countBranch t k b).tw = s.tw := rfl
@[simp] theorem State.countBranch_qstep (s : State) (t : TreeCtx) (k : Fin 11) (b : Bool) : (s.countBranch t k b).qstep = s.qstep := rfl
@[simp] theorem State.countBranch_prob (s : State) (t : TreeCtx) (k : Fin 11) (b : Bool) : (s.countBranch t k b).prob = s.prob := rfl
@[simp] theorem State.countBranch_brc (s : State) (t : TreeCtx) (k : Fin 11) (b : Bool) : (s.countBranch t k b).brc = s.brc.write .table (brcIndex t k b) (s.brc.get (brcIndex t k b) + 1) := rfl
@[simp] theorem State.countBranch_ibuf (s : State) (t : TreeCtx) (k : Fin 11) (b : Bool) : (s.countBranch t k b).ibuf = s.ibuf := rfl
@[simp] theorem State.countBranch_ibufSize (s : State) (t : TreeCtx) (k : Fin 11) (b : Bool) : (s.countBranch t k b).ibufSize = s.ibufSize := rfl
@[simp] theorem State.countBranch_obufSize (s : State) (t : TreeCtx) (k : Fin 11) (b : Bool) : (s.countBranch t k b).obufSize = s.obufSize := rfl
@[simp] theorem State.countBranch_port (s : State) (t : TreeCtx) (k : Fin 11) (b : Bool) : (s.countBranch t k b).port = s.port := rfl
@[simp] theorem State.countBranch_reply (s : State) (t : TreeCtx) (k : Fin 11) (b : Bool) : (s.countBranch t k b).reply = s.reply := rfl
@[simp] theorem State.countBranch_midHalt (s : State) (t : TreeCtx) (k : Fin 11) (b : Bool) : (s.countBranch t k b).midHalt = s.midHalt := rfl
@[simp] theorem State.countBranch_tick (s : State) (t : TreeCtx) (k : Fin 11) (b : Bool) : (s.countBranch t k b).tick = s.tick := rfl
@[simp] theorem State.countBranch_resets (s : State) (t : TreeCtx) (k : Fin 11) (b : Bool) : (s.countBranch t k b).resets = s.resets := rfl

/-! ### haltEntry -/

@[simp] theorem State.haltEntry_coef (s : State) (e : Err) : (s.haltEntry e).coef = s.coef := rfl
@[simp] theorem State.haltEntry_err (s : State) (e : Err) : (s.haltEntry e).err = e.code := rfl
@[simp] theorem State.haltEntry_errInfo (s : State) (e : Err) : (s.haltEntry e).errInfo = s.cseq - 1 := rfl
@[simp] theorem State.haltEntry_cseq (s : State) (e : Err) : (s.haltEntry e).cseq = s.cseq := rfl
@[simp] theorem State.haltEntry_bitr (s : State) (e : Err) : (s.haltEntry e).bitr = s.bitr := rfl
@[simp] theorem State.haltEntry_val (s : State) (e : Err) : (s.haltEntry e).val = s.val := rfl
@[simp] theorem State.haltEntry_dcr (s : State) (e : Err) : (s.haltEntry e).dcr = s.dcr := rfl
@[simp] theorem State.haltEntry_bdBase (s : State) (e : Err) : (s.haltEntry e).bdBase = s.bdBase := rfl
@[simp] theorem State.haltEntry_bdLen (s : State) (e : Err) : (s.haltEntry e).bdLen = s.bdLen := rfl
@[simp] theorem State.haltEntry_bd (s : State) (e : Err) : (s.haltEntry e).bd = s.bd := rfl
@[simp] theorem State.haltEntry_be (s : State) (e : Err) : (s.haltEntry e).be = s.be := rfl
@[simp] theorem State.haltEntry_tw (s : State) (e : Err) : (s.haltEntry e).tw = s.tw := rfl
@[simp] theorem State.haltEntry_qstep (s : State) (e : Err) : (s.haltEntry e).qstep = s.qstep := rfl
@[simp] theorem State.haltEntry_prob (s : State) (e : Err) : (s.haltEntry e).prob = s.prob := rfl
@[simp] theorem State.haltEntry_brc (s : State) (e : Err) : (s.haltEntry e).brc = s.brc := rfl
@[simp] theorem State.haltEntry_ibuf (s : State) (e : Err) : (s.haltEntry e).ibuf = s.ibuf := rfl
@[simp] theorem State.haltEntry_ibufSize (s : State) (e : Err) : (s.haltEntry e).ibufSize = s.ibufSize := rfl
@[simp] theorem State.haltEntry_obufSize (s : State) (e : Err) : (s.haltEntry e).obufSize = s.obufSize := rfl
@[simp] theorem State.haltEntry_port (s : State) (e : Err) : (s.haltEntry e).port = s.port := rfl
@[simp] theorem State.haltEntry_reply (s : State) (e : Err) : (s.haltEntry e).reply = s.reply := rfl
@[simp] theorem State.haltEntry_midHalt (s : State) (e : Err) : (s.haltEntry e).midHalt = s.midHalt := rfl
@[simp] theorem State.haltEntry_tick (s : State) (e : Err) : (s.haltEntry e).tick = s.tick := rfl
@[simp] theorem State.haltEntry_resets (s : State) (e : Err) : (s.haltEntry e).resets = s.resets := rfl

/-! ### accept -/

@[simp] theorem State.accept_coef (s : State) : (s.accept).coef = s.coef := rfl
@[simp] theorem State.accept_err (s : State) : (s.accept).err = s.err := rfl
@[simp] theorem State.accept_errInfo (s : State) : (s.accept).errInfo = s.errInfo := rfl
@[simp] theorem State.accept_cseq (s : State) : (s.accept).cseq = s.cseq + 1 := rfl
@[simp] theorem State.accept_bitr (s : State) : (s.accept).bitr = s.bitr := rfl
@[simp] theorem State.accept_val (s : State) : (s.accept).val = s.val := rfl
@[simp] theorem State.accept_dcr (s : State) : (s.accept).dcr = s.dcr := rfl
@[simp] theorem State.accept_bdBase (s : State) : (s.accept).bdBase = s.bdBase := rfl
@[simp] theorem State.accept_bdLen (s : State) : (s.accept).bdLen = s.bdLen := rfl
@[simp] theorem State.accept_bd (s : State) : (s.accept).bd = s.bd := rfl
@[simp] theorem State.accept_be (s : State) : (s.accept).be = s.be := rfl
@[simp] theorem State.accept_tw (s : State) : (s.accept).tw = s.tw := rfl
@[simp] theorem State.accept_qstep (s : State) : (s.accept).qstep = s.qstep := rfl
@[simp] theorem State.accept_prob (s : State) : (s.accept).prob = s.prob := rfl
@[simp] theorem State.accept_brc (s : State) : (s.accept).brc = s.brc := rfl
@[simp] theorem State.accept_ibuf (s : State) : (s.accept).ibuf = s.ibuf := rfl
@[simp] theorem State.accept_ibufSize (s : State) : (s.accept).ibufSize = s.ibufSize := rfl
@[simp] theorem State.accept_obufSize (s : State) : (s.accept).obufSize = s.obufSize := rfl
@[simp] theorem State.accept_port (s : State) : (s.accept).port = s.port := rfl
@[simp] theorem State.accept_reply (s : State) : (s.accept).reply = s.reply := rfl
@[simp] theorem State.accept_midHalt (s : State) : (s.accept).midHalt = s.midHalt := rfl
@[simp] theorem State.accept_tick (s : State) : (s.accept).tick = s.tick := rfl
@[simp] theorem State.accept_resets (s : State) : (s.accept).resets = s.resets := rfl

/-! ### clearCoefs -/

@[simp] theorem State.clearCoefs_coef (s : State) : (s.clearCoefs).coef = Vector.replicate 16 0 := rfl
@[simp] theorem State.clearCoefs_err (s : State) : (s.clearCoefs).err = s.err := rfl
@[simp] theorem State.clearCoefs_errInfo (s : State) : (s.clearCoefs).errInfo = s.errInfo := rfl
@[simp] theorem State.clearCoefs_cseq (s : State) : (s.clearCoefs).cseq = s.cseq := rfl
@[simp] theorem State.clearCoefs_bitr (s : State) : (s.clearCoefs).bitr = s.bitr := rfl
@[simp] theorem State.clearCoefs_val (s : State) : (s.clearCoefs).val = s.val := rfl
@[simp] theorem State.clearCoefs_dcr (s : State) : (s.clearCoefs).dcr = s.dcr := rfl
@[simp] theorem State.clearCoefs_bdBase (s : State) : (s.clearCoefs).bdBase = s.bdBase := rfl
@[simp] theorem State.clearCoefs_bdLen (s : State) : (s.clearCoefs).bdLen = s.bdLen := rfl
@[simp] theorem State.clearCoefs_bd (s : State) : (s.clearCoefs).bd = s.bd := rfl
@[simp] theorem State.clearCoefs_be (s : State) : (s.clearCoefs).be = s.be := rfl
@[simp] theorem State.clearCoefs_tw (s : State) : (s.clearCoefs).tw = s.tw := rfl
@[simp] theorem State.clearCoefs_qstep (s : State) : (s.clearCoefs).qstep = s.qstep := rfl
@[simp] theorem State.clearCoefs_prob (s : State) : (s.clearCoefs).prob = s.prob := rfl
@[simp] theorem State.clearCoefs_brc (s : State) : (s.clearCoefs).brc = s.brc := rfl
@[simp] theorem State.clearCoefs_ibuf (s : State) : (s.clearCoefs).ibuf = s.ibuf := rfl
@[simp] theorem State.clearCoefs_ibufSize (s : State) : (s.clearCoefs).ibufSize = s.ibufSize := rfl
@[simp] theorem State.clearCoefs_obufSize (s : State) : (s.clearCoefs).obufSize = s.obufSize := rfl
@[simp] theorem State.clearCoefs_port (s : State) : (s.clearCoefs).port = s.port := rfl
@[simp] theorem State.clearCoefs_reply (s : State) : (s.clearCoefs).reply = s.reply := rfl
@[simp] theorem State.clearCoefs_midHalt (s : State) : (s.clearCoefs).midHalt = s.midHalt := rfl
@[simp] theorem State.clearCoefs_tick (s : State) : (s.clearCoefs).tick = s.tick := rfl
@[simp] theorem State.clearCoefs_resets (s : State) : (s.clearCoefs).resets = s.resets := rfl

/-! ### mapCoefs -/

@[simp] theorem State.mapCoefs_coef (s : State) (f : Fin 16 → Int → Int) : (s.mapCoefs f).coef = Vector.ofFn fun slot => BitVec.ofInt 16 (f slot (s.c slot)) := rfl
@[simp] theorem State.mapCoefs_err (s : State) (f : Fin 16 → Int → Int) : (s.mapCoefs f).err = s.err := rfl
@[simp] theorem State.mapCoefs_errInfo (s : State) (f : Fin 16 → Int → Int) : (s.mapCoefs f).errInfo = s.errInfo := rfl
@[simp] theorem State.mapCoefs_cseq (s : State) (f : Fin 16 → Int → Int) : (s.mapCoefs f).cseq = s.cseq := rfl
@[simp] theorem State.mapCoefs_bitr (s : State) (f : Fin 16 → Int → Int) : (s.mapCoefs f).bitr = s.bitr := rfl
@[simp] theorem State.mapCoefs_val (s : State) (f : Fin 16 → Int → Int) : (s.mapCoefs f).val = s.val := rfl
@[simp] theorem State.mapCoefs_dcr (s : State) (f : Fin 16 → Int → Int) : (s.mapCoefs f).dcr = s.dcr := rfl
@[simp] theorem State.mapCoefs_bdBase (s : State) (f : Fin 16 → Int → Int) : (s.mapCoefs f).bdBase = s.bdBase := rfl
@[simp] theorem State.mapCoefs_bdLen (s : State) (f : Fin 16 → Int → Int) : (s.mapCoefs f).bdLen = s.bdLen := rfl
@[simp] theorem State.mapCoefs_bd (s : State) (f : Fin 16 → Int → Int) : (s.mapCoefs f).bd = s.bd := rfl
@[simp] theorem State.mapCoefs_be (s : State) (f : Fin 16 → Int → Int) : (s.mapCoefs f).be = s.be := rfl
@[simp] theorem State.mapCoefs_tw (s : State) (f : Fin 16 → Int → Int) : (s.mapCoefs f).tw = s.tw := rfl
@[simp] theorem State.mapCoefs_qstep (s : State) (f : Fin 16 → Int → Int) : (s.mapCoefs f).qstep = s.qstep := rfl
@[simp] theorem State.mapCoefs_prob (s : State) (f : Fin 16 → Int → Int) : (s.mapCoefs f).prob = s.prob := rfl
@[simp] theorem State.mapCoefs_brc (s : State) (f : Fin 16 → Int → Int) : (s.mapCoefs f).brc = s.brc := rfl
@[simp] theorem State.mapCoefs_ibuf (s : State) (f : Fin 16 → Int → Int) : (s.mapCoefs f).ibuf = s.ibuf := rfl
@[simp] theorem State.mapCoefs_ibufSize (s : State) (f : Fin 16 → Int → Int) : (s.mapCoefs f).ibufSize = s.ibufSize := rfl
@[simp] theorem State.mapCoefs_obufSize (s : State) (f : Fin 16 → Int → Int) : (s.mapCoefs f).obufSize = s.obufSize := rfl
@[simp] theorem State.mapCoefs_port (s : State) (f : Fin 16 → Int → Int) : (s.mapCoefs f).port = s.port := rfl
@[simp] theorem State.mapCoefs_reply (s : State) (f : Fin 16 → Int → Int) : (s.mapCoefs f).reply = s.reply := rfl
@[simp] theorem State.mapCoefs_midHalt (s : State) (f : Fin 16 → Int → Int) : (s.mapCoefs f).midHalt = s.midHalt := rfl
@[simp] theorem State.mapCoefs_tick (s : State) (f : Fin 16 → Int → Int) : (s.mapCoefs f).tick = s.tick := rfl
@[simp] theorem State.mapCoefs_resets (s : State) (f : Fin 16 → Int → Int) : (s.mapCoefs f).resets = s.resets := rfl

/-! ### taken -/

@[simp] theorem State.taken_coef (s : State) (t : HostTx s.sizes) (rest : List (HostTx s.sizes)) : (s.taken t rest).coef = s.coef := rfl
@[simp] theorem State.taken_err (s : State) (t : HostTx s.sizes) (rest : List (HostTx s.sizes)) : (s.taken t rest).err = s.err := rfl
@[simp] theorem State.taken_errInfo (s : State) (t : HostTx s.sizes) (rest : List (HostTx s.sizes)) : (s.taken t rest).errInfo = s.errInfo := rfl
@[simp] theorem State.taken_cseq (s : State) (t : HostTx s.sizes) (rest : List (HostTx s.sizes)) : (s.taken t rest).cseq = s.cseq := rfl
@[simp] theorem State.taken_bitr (s : State) (t : HostTx s.sizes) (rest : List (HostTx s.sizes)) : (s.taken t rest).bitr = s.bitr := rfl
@[simp] theorem State.taken_val (s : State) (t : HostTx s.sizes) (rest : List (HostTx s.sizes)) : (s.taken t rest).val = s.val := rfl
@[simp] theorem State.taken_dcr (s : State) (t : HostTx s.sizes) (rest : List (HostTx s.sizes)) : (s.taken t rest).dcr = s.dcr := rfl
@[simp] theorem State.taken_bdBase (s : State) (t : HostTx s.sizes) (rest : List (HostTx s.sizes)) : (s.taken t rest).bdBase = s.bdBase := rfl
@[simp] theorem State.taken_bdLen (s : State) (t : HostTx s.sizes) (rest : List (HostTx s.sizes)) : (s.taken t rest).bdLen = s.bdLen := rfl
@[simp] theorem State.taken_bd (s : State) (t : HostTx s.sizes) (rest : List (HostTx s.sizes)) : (s.taken t rest).bd = s.bd := rfl
@[simp] theorem State.taken_be (s : State) (t : HostTx s.sizes) (rest : List (HostTx s.sizes)) : (s.taken t rest).be = s.be := rfl
@[simp] theorem State.taken_tw (s : State) (t : HostTx s.sizes) (rest : List (HostTx s.sizes)) : (s.taken t rest).tw = s.tw := rfl
@[simp] theorem State.taken_qstep (s : State) (t : HostTx s.sizes) (rest : List (HostTx s.sizes)) : (s.taken t rest).qstep = s.qstep := rfl
@[simp] theorem State.taken_prob (s : State) (t : HostTx s.sizes) (rest : List (HostTx s.sizes)) : (s.taken t rest).prob = s.prob := rfl
@[simp] theorem State.taken_brc (s : State) (t : HostTx s.sizes) (rest : List (HostTx s.sizes)) : (s.taken t rest).brc = s.brc := rfl
@[simp] theorem State.taken_ibuf (s : State) (t : HostTx s.sizes) (rest : List (HostTx s.sizes)) : (s.taken t rest).ibuf = s.ibuf := rfl
@[simp] theorem State.taken_ibufSize (s : State) (t : HostTx s.sizes) (rest : List (HostTx s.sizes)) : (s.taken t rest).ibufSize = s.ibufSize := rfl
@[simp] theorem State.taken_obufSize (s : State) (t : HostTx s.sizes) (rest : List (HostTx s.sizes)) : (s.taken t rest).obufSize = s.obufSize := rfl
@[simp] theorem State.taken_port (s : State) (t : HostTx s.sizes) (rest : List (HostTx s.sizes)) : (s.taken t rest).port = s.port.withPending rest := rfl
@[simp] theorem State.taken_reply (s : State) (t : HostTx s.sizes) (rest : List (HostTx s.sizes)) : (s.taken t rest).reply = none := rfl
@[simp] theorem State.taken_midHalt (s : State) (t : HostTx s.sizes) (rest : List (HostTx s.sizes)) : (s.taken t rest).midHalt = s.midHalt := rfl
@[simp] theorem State.taken_tick (s : State) (t : HostTx s.sizes) (rest : List (HostTx s.sizes)) : (s.taken t rest).tick = tickAfter t s.tick := rfl
@[simp] theorem State.taken_resets (s : State) (t : HostTx s.sizes) (rest : List (HostTx s.sizes)) : (s.taken t rest).resets = s.resets := rfl

/-! ### presenting -/

@[simp] theorem State.presenting_coef (s : State) (t : HostTx s.sizes) : (s.presenting t).coef = s.coef := rfl
@[simp] theorem State.presenting_err (s : State) (t : HostTx s.sizes) : (s.presenting t).err = s.err := rfl
@[simp] theorem State.presenting_errInfo (s : State) (t : HostTx s.sizes) : (s.presenting t).errInfo = s.errInfo := rfl
@[simp] theorem State.presenting_cseq (s : State) (t : HostTx s.sizes) : (s.presenting t).cseq = s.cseq := rfl
@[simp] theorem State.presenting_bitr (s : State) (t : HostTx s.sizes) : (s.presenting t).bitr = s.bitr := rfl
@[simp] theorem State.presenting_val (s : State) (t : HostTx s.sizes) : (s.presenting t).val = s.val := rfl
@[simp] theorem State.presenting_dcr (s : State) (t : HostTx s.sizes) : (s.presenting t).dcr = s.dcr := rfl
@[simp] theorem State.presenting_bdBase (s : State) (t : HostTx s.sizes) : (s.presenting t).bdBase = s.bdBase := rfl
@[simp] theorem State.presenting_bdLen (s : State) (t : HostTx s.sizes) : (s.presenting t).bdLen = s.bdLen := rfl
@[simp] theorem State.presenting_bd (s : State) (t : HostTx s.sizes) : (s.presenting t).bd = s.bd := rfl
@[simp] theorem State.presenting_be (s : State) (t : HostTx s.sizes) : (s.presenting t).be = s.be := rfl
@[simp] theorem State.presenting_tw (s : State) (t : HostTx s.sizes) : (s.presenting t).tw = s.tw := rfl
@[simp] theorem State.presenting_qstep (s : State) (t : HostTx s.sizes) : (s.presenting t).qstep = s.qstep := rfl
@[simp] theorem State.presenting_prob (s : State) (t : HostTx s.sizes) : (s.presenting t).prob = s.prob := rfl
@[simp] theorem State.presenting_brc (s : State) (t : HostTx s.sizes) : (s.presenting t).brc = s.brc := rfl
@[simp] theorem State.presenting_ibuf (s : State) (t : HostTx s.sizes) : (s.presenting t).ibuf = s.ibuf := rfl
@[simp] theorem State.presenting_ibufSize (s : State) (t : HostTx s.sizes) : (s.presenting t).ibufSize = s.ibufSize := rfl
@[simp] theorem State.presenting_obufSize (s : State) (t : HostTx s.sizes) : (s.presenting t).obufSize = s.obufSize := rfl
@[simp] theorem State.presenting_port (s : State) (t : HostTx s.sizes) : (s.presenting t).port = s.port.withPending (t :: s.host) := rfl
@[simp] theorem State.presenting_reply (s : State) (t : HostTx s.sizes) : (s.presenting t).reply = s.reply := rfl
@[simp] theorem State.presenting_midHalt (s : State) (t : HostTx s.sizes) : (s.presenting t).midHalt = s.midHalt := rfl
@[simp] theorem State.presenting_tick (s : State) (t : HostTx s.sizes) : (s.presenting t).tick = s.tick := rfl
@[simp] theorem State.presenting_resets (s : State) (t : HostTx s.sizes) : (s.presenting t).resets = s.resets := rfl

/-! ### hostReset -/

@[simp] theorem hostReset_coef (s : State) : (hostReset s).coef = State.reset.coef := rfl
@[simp] theorem hostReset_err (s : State) : (hostReset s).err = State.reset.err := rfl
@[simp] theorem hostReset_errInfo (s : State) : (hostReset s).errInfo = State.reset.errInfo := rfl
@[simp] theorem hostReset_cseq (s : State) : (hostReset s).cseq = State.reset.cseq := rfl
@[simp] theorem hostReset_bitr (s : State) : (hostReset s).bitr = State.reset.bitr := rfl
@[simp] theorem hostReset_val (s : State) : (hostReset s).val = State.reset.val := rfl
@[simp] theorem hostReset_dcr (s : State) : (hostReset s).dcr = State.reset.dcr := rfl
@[simp] theorem hostReset_bdBase (s : State) : (hostReset s).bdBase = State.reset.bdBase := rfl
@[simp] theorem hostReset_bdLen (s : State) : (hostReset s).bdLen = State.reset.bdLen := rfl
@[simp] theorem hostReset_bd (s : State) : (hostReset s).bd = State.reset.bd := rfl
@[simp] theorem hostReset_be (s : State) : (hostReset s).be = State.reset.be := rfl
@[simp] theorem hostReset_tw (s : State) : (hostReset s).tw = State.reset.tw := rfl
@[simp] theorem hostReset_qstep (s : State) : (hostReset s).qstep = State.reset.qstep := rfl
@[simp] theorem hostReset_prob (s : State) : (hostReset s).prob = State.reset.prob := rfl
@[simp] theorem hostReset_brc (s : State) : (hostReset s).brc = State.reset.brc := rfl
@[simp] theorem hostReset_ibuf (s : State) : (hostReset s).ibuf = State.reset.ibuf := rfl
@[simp] theorem hostReset_ibufSize (s : State) : (hostReset s).ibufSize = s.ibufSize := rfl
@[simp] theorem hostReset_obufSize (s : State) : (hostReset s).obufSize = s.obufSize := rfl
@[simp] theorem hostReset_port (s : State) : (hostReset s).port = s.port := rfl
@[simp] theorem hostReset_reply (s : State) : (hostReset s).reply = State.reset.reply := rfl
@[simp] theorem hostReset_midHalt (s : State) : (hostReset s).midHalt = State.reset.midHalt := rfl
@[simp] theorem hostReset_tick (s : State) : (hostReset s).tick = s.tick := rfl
@[simp] theorem hostReset_resets (s : State) : (hostReset s).resets = s.resets + 1 := rfl

/-! ### withHost -/

@[simp] theorem State.withHost_coef (s : State) (l : List (HostTx s.sizes)) : (s.withHost l).coef = s.coef := rfl
@[simp] theorem State.withHost_err (s : State) (l : List (HostTx s.sizes)) : (s.withHost l).err = s.err := rfl
@[simp] theorem State.withHost_errInfo (s : State) (l : List (HostTx s.sizes)) : (s.withHost l).errInfo = s.errInfo := rfl
@[simp] theorem State.withHost_cseq (s : State) (l : List (HostTx s.sizes)) : (s.withHost l).cseq = s.cseq := rfl
@[simp] theorem State.withHost_bitr (s : State) (l : List (HostTx s.sizes)) : (s.withHost l).bitr = s.bitr := rfl
@[simp] theorem State.withHost_val (s : State) (l : List (HostTx s.sizes)) : (s.withHost l).val = s.val := rfl
@[simp] theorem State.withHost_dcr (s : State) (l : List (HostTx s.sizes)) : (s.withHost l).dcr = s.dcr := rfl
@[simp] theorem State.withHost_bdBase (s : State) (l : List (HostTx s.sizes)) : (s.withHost l).bdBase = s.bdBase := rfl
@[simp] theorem State.withHost_bdLen (s : State) (l : List (HostTx s.sizes)) : (s.withHost l).bdLen = s.bdLen := rfl
@[simp] theorem State.withHost_bd (s : State) (l : List (HostTx s.sizes)) : (s.withHost l).bd = s.bd := rfl
@[simp] theorem State.withHost_be (s : State) (l : List (HostTx s.sizes)) : (s.withHost l).be = s.be := rfl
@[simp] theorem State.withHost_tw (s : State) (l : List (HostTx s.sizes)) : (s.withHost l).tw = s.tw := rfl
@[simp] theorem State.withHost_qstep (s : State) (l : List (HostTx s.sizes)) : (s.withHost l).qstep = s.qstep := rfl
@[simp] theorem State.withHost_prob (s : State) (l : List (HostTx s.sizes)) : (s.withHost l).prob = s.prob := rfl
@[simp] theorem State.withHost_brc (s : State) (l : List (HostTx s.sizes)) : (s.withHost l).brc = s.brc := rfl
@[simp] theorem State.withHost_ibuf (s : State) (l : List (HostTx s.sizes)) : (s.withHost l).ibuf = s.ibuf := rfl
@[simp] theorem State.withHost_ibufSize (s : State) (l : List (HostTx s.sizes)) : (s.withHost l).ibufSize = s.ibufSize := rfl
@[simp] theorem State.withHost_obufSize (s : State) (l : List (HostTx s.sizes)) : (s.withHost l).obufSize = s.obufSize := rfl
@[simp] theorem State.withHost_reply (s : State) (l : List (HostTx s.sizes)) : (s.withHost l).reply = s.reply := rfl
@[simp] theorem State.withHost_midHalt (s : State) (l : List (HostTx s.sizes)) : (s.withHost l).midHalt = s.midHalt := rfl
@[simp] theorem State.withHost_tick (s : State) (l : List (HostTx s.sizes)) : (s.withHost l).tick = s.tick := rfl
@[simp] theorem State.withHost_resets (s : State) (l : List (HostTx s.sizes)) : (s.withHost l).resets = s.resets := rfl
@[simp] theorem State.withHost_port (s : State) (l : List (HostTx s.sizes)) : (s.withHost l).port = s.port.withPending l := rfl
@[simp] theorem State.withHost_host (s : State) (l : List (HostTx s.sizes)) : (s.withHost l).host = l := rfl

/-! ### Coefficients -/

theorem State.c_setC (s : State) (slot k : Fin 16) (v : Int) :
    (s.setC slot v).c k = if k = slot then (BitVec.ofInt 16 v).toInt else s.c k := by
  unfold State.c State.setC
  by_cases h : k = slot
  · subst h; simp
  · have : slot.val ≠ k.val := fun e => h (Fin.ext e.symm)
    simp [h, Vector.getElem_set_ne, this]

theorem State.c_mapCoefs (s : State) (f : Fin 16 → Int → Int) (k : Fin 16) :
    (s.mapCoefs f).c k = (BitVec.ofInt 16 (f k (s.c k))).toInt := by
  unfold State.c State.mapCoefs
  simp [State.c]

@[simp] theorem State.c_clearCoefs (s : State) (k : Fin 16) : s.clearCoefs.c k = 0 := by
  unfold State.c State.clearCoefs
  simp

/-- An integer of 16 bits survives the register (R9, R21). -/
theorem toInt_ofInt_16 {v : Int} (h1 : -32768 ≤ v) (h2 : v ≤ 32767) : (BitVec.ofInt 16 v).toInt = v := by
  rw [BitVec.toInt_ofInt]
  simp only [Int.bmod_def]
  omega

theorem State.c_range (s : State) (k : Fin 16) : -32768 ≤ s.c k ∧ s.c k ≤ 32767 := by
  have h1 := BitVec.le_toInt (x := s.coef[k])
  have h2 := BitVec.toInt_lt (x := s.coef[k])
  simp only [State.c, Fin.getElem_fin]
  norm_num at h1 h2
  omega

/-- `HAS_NZ` says that some coefficient is nonzero (R26). -/
theorem State.hasNz_iff (s : State) : s.hasNz = true ↔ ∃ k : Fin 16, s.c k ≠ 0 := by
  unfold State.hasNz Coefs.hasNz State.c
  simp only [List.any_eq_true, bne_iff_ne, ne_eq]
  constructor
  · rintro ⟨x, hx, h0⟩
    obtain ⟨i, hi, rfl⟩ := List.getElem_of_mem hx
    rw [Vector.length_toList] at hi
    refine ⟨⟨i, hi⟩, fun h => h0 ?_⟩
    apply BitVec.eq_of_toInt_eq
    simpa using h
  · rintro ⟨k, h⟩
    refine ⟨s.coef[k], by simp, fun h0 => h ?_⟩
    simp [h0]

end Sys2Proof.Machine
end

