-- ==== Sys2Proof/Laws/Decoding.lean ====
section
/-! SUPPORT. What the pieces of a decoding command can do, from one query to a whole walk (40_boolean_decoder.md R113,
42_token_value.md R158, 43_token_walker.md R180, R181). -/

namespace Sys2Proof.Machine

/-- What a decoding command needs of the state, and keeps. -/
structure State.DecodeOk (s : State) : Prop where
  range : 128 ≤ s.bd.range.toNat
  pos : s.bd.pos.toNat ≤ s.bd.llen.toNat
  brc_wf : s.brc.wf .table
  brc_within : s.brc.within 2112

/-- What a piece of a decoding command may change: the decoder, the coefficients, the branch counters. -/
structure State.DecodeStep (s t : State) : Prop where
  same : t = { s with bd := t.bd, brc := t.brc, coef := t.coef }
  active : t.bd.active = s.bd.active
  lbase : t.bd.lbase = s.bd.lbase
  llen : t.bd.llen = s.bd.llen
  ok : t.DecodeOk
  written : s.bd.InputWritten s.ibuf → t.bd.InputWritten t.ibuf

theorem State.DecodeStep.refl {s : State} (h : s.DecodeOk) : s.DecodeStep s := ⟨rfl, rfl, rfl, rfl, h, id⟩

theorem State.DecodeStep.trans {s t u : State} (h1 : s.DecodeStep t) (h2 : t.DecodeStep u) : s.DecodeStep u := by
  refine ⟨?_, h2.active.trans h1.active, h2.lbase.trans h1.lbase, h2.llen.trans h1.llen, h2.ok,
    fun h => h2.written (h1.written h)⟩
  have e1 := h1.same
  have e2 := h2.same
  rw [e1] at e2
  exact e2

theorem State.DecodeStep.prob {s t : State} (h : s.DecodeStep t) : t.prob = s.prob := by rw [h.same]

/-- Changing a coefficient is such a step. -/
theorem State.DecodeStep.setC {s : State} (h : s.DecodeOk) (slot : Fin 16) (v : Int) : s.DecodeStep (s.setC slot v) :=
  ⟨rfl, rfl, rfl, rfl, ⟨h.range, h.pos, h.brc_wf, h.brc_within⟩, id⟩

/-- The only way a decoding command can stop (R54). -/
def State.Starved (s : State) (f : Fault) : Prop := f = .unwrittenInput ∧ ¬s.bd.InputWritten s.ibuf

theorem State.DecodeStep.starved {s t : State} (h : s.DecodeStep t) {f : Fault} (hf : t.Starved f) : s.Starved f :=
  ⟨hf.1, fun hw => hf.2 (h.written hw)⟩

theorem probIndex_lt (t : TreeCtx) (k : Fin 11) : probIndex t k < 1056 := by
  have h1 := t.bt.isLt
  have h2 := t.band.isLt
  have h3 := t.ctx.isLt
  have h4 := k.isLt
  unfold probIndex
  omega

theorem brcIndex_lt (t : TreeCtx) (k : Fin 11) (b : Bool) : brcIndex t k b < 2112 := by
  have h1 := probIndex_lt t k
  have h2 : b.toNat ≤ 1 := Bool.toNat_le b
  unfold brcIndex
  omega

/-! ### Queries -/

theorem getQuery_ends {s : State} (h : s.DecodeOk) (p : Byte) :
    (getQuery p s).Ends
      (fun b t => s.DecodeStep t ∧ t = { s with bd := t.bd } ∧ t.bd.qcnt = s.bd.qcnt + 1 ∧ b = s.bd.decision p)
      (fun _ _ => False) s.Starved := by
  have h2 : 2 ≤ s.bd.range.toNat := by have := h.range; omega
  obtain ⟨k, -, h128, h255, hok, hstop⟩ := Decoder.get_spec s.ibuf p h2
  by_cases hc : s.bd.CanShift s.ibuf k
  · have hq := Decoder.queried_spec s.ibuf h2 h128 h255
    rw [getQuery, hok hc]
    exact ⟨⟨rfl, hq.active, hq.lbase, hq.llen, ⟨hq.range_ge, hq.pos_le h.pos, h.brc_wf, h.brc_within⟩,
      fun hw => hq.inputWritten hw⟩, rfl, hq.qcnt, rfl⟩
  · rw [getQuery, hstop hc]
    exact ⟨rfl, fun hw => hc fun _ => hw.next⟩

theorem countBranch_decodeStep {s : State} (h : s.DecodeOk) (t : TreeCtx) (k : Fin 11) (b : Bool) :
    s.DecodeStep (s.countBranch t k b) :=
  ⟨rfl, rfl, rfl, rfl, ⟨h.range, h.pos, Memory.write_wf _ _ h.brc_wf,
    Memory.write_within (k := .table) _ (brcIndex_lt t k b) h.brc_within⟩, id⟩

/-- The state a tree decision can leave, and the errors of a walk of block type `bt`. -/
def State.Unloaded (s : State) (bt : BitVec 2) (e : Err) (t : State) : Prop :=
  s.DecodeStep t ∧ e = .invalidProbability ∧ ¬s.Loaded bt

theorem State.DecodeStep.unloaded {s t u : State} {bt : BitVec 2} {e : Err} (h : s.DecodeStep t)
    (hu : t.Unloaded bt e u) : s.Unloaded bt e u :=
  ⟨h.trans hu.1, hu.2.1, fun hl => hu.2.2 (by unfold State.Loaded; rw [h.prob]; exact hl)⟩

/-- Going on from a reached state. -/
theorem Res.Ends.decode {α : Type} {s t : State} {bt : BitVec 2} {P : α → State → Prop} {r : Res State α}
    (h : s.DecodeStep t) (hr : r.Ends P (t.Unloaded bt) t.Starved) : r.Ends P (s.Unloaded bt) s.Starved :=
  hr.mono (fun _ _ h => h) (fun _ _ hu => h.unloaded hu) (fun _ hf => h.starved hf)

theorem treeGet_ends {s : State} (h : s.DecodeOk) (c : TreeCtx) (k : Fin 11) :
    (treeGet c k s).Ends (fun _ t => s.DecodeStep t ∧ t.coef = s.coef ∧ t.bd.qcnt = s.bd.qcnt + 1)
      (s.Unloaded c.bt) s.Starved := by
  unfold treeGet
  split_ifs with h0
  · exact ⟨.refl h, rfl, fun hl => hl c.band c.ctx k h0⟩
  · refine ((getQuery_ends h _).mono (fun _ _ h => h) (fun _ _ h => h.elim) (fun _ h => h)).bind ?_
    rintro b t ⟨ht, he, hq, -⟩
    exact ⟨ht.trans (countBranch_decodeStep ht.ok c k b), by rw [State.countBranch_coef, he], hq⟩

/-! ### The tree -/

/-- Only node 0 leads to the end of block, and no node leads to it (R172). -/
theorem branchOf_facts (k : Fin 11) (b : Bool) :
    (branchOf k b = .leaf .eob → k = 0) ∧ branchOf k b ≠ .node 0 := by
  revert k b; decide

/-- How deep the tree still goes below a node. -/
def treeHeight (k : Fin 11) : Nat := [7, 6, 5, 4, 2, 1, 3, 1, 2, 1, 1].getD k 0

theorem branchOf_height (k j : Fin 11) (b : Bool) (h : branchOf k b = .node j) : treeHeight j + 1 ≤ treeHeight k := by
  revert k j b; decide

theorem treeHeight_pos (k : Fin 11) : 1 ≤ treeHeight k := by revert k; decide

/-- The outcome of a tree walk; it takes at most as many queries as the tree is high. -/
theorem treeWalk_ends {s : State} (h : s.DecodeOk) (c : TreeCtx) {n : Nat} {k : Fin 11} (hn : treeHeight k ≤ n) :
    (treeWalk c n k s).Ends
      (fun tok t => s.DecodeStep t ∧ t.coef = s.coef ∧ (tok = .eob → k = 0) ∧
        ∃ q, 1 ≤ q ∧ q ≤ treeHeight k ∧ t.bd.qcnt = s.bd.qcnt + BitVec.ofNat 32 q)
      (s.Unloaded c.bt) s.Starved := by
  induction n generalizing s k with
  | zero => have := treeHeight_pos k; omega
  | succ n ih =>
    unfold treeWalk
    refine (treeGet_ends h c k).bind ?_
    rintro b t ⟨ht, hc, hq⟩
    split
    · next tok htok =>
      exact ⟨ht, hc, fun he => (branchOf_facts k b).1 (he ▸ htok), 1, le_rfl, treeHeight_pos k, hq⟩
    · next j hj =>
      have hh := branchOf_height k j b hj
      refine ((ih ht.ok (by omega)).decode ht).mono ?_ (fun _ _ h => h) (fun _ h => h)
      rintro tok u ⟨hu, hcu, he, q, hq1, hq2, hq3⟩
      refine ⟨ht.trans hu, hcu.trans hc, fun h0 => ?_, q + 1, by omega, by omega, ?_⟩
      · exact absurd (he h0 ▸ hj) (branchOf_facts k b).2
      · rw [hq3, hq, BitVec.ofNat_add]
        show _ + 1#32 + _ = _
        rw [BitVec.add_assoc, BitVec.add_comm 1#32]

/-! ### Values -/

theorem shl1_or (acc : Nat) (b : Bool) : acc <<< 1 ||| b.toNat = 2 * acc + b.toNat := by
  rw [Nat.shiftLeft_eq, Nat.mul_comm, pow_one, ← Nat.two_pow_add_eq_or_of_lt (i := 1) (by cases b <;> decide)]

theorem tvDecBits_ends {s : State} (h : s.DecodeOk) (ps : List Byte) (acc : Nat) :
    (tvDecBits ps acc s).Ends
      (fun v t => s.DecodeStep t ∧ t = { s with bd := t.bd } ∧ t.bd.qcnt = s.bd.qcnt + BitVec.ofNat 32 ps.length ∧
        acc * 2 ^ ps.length ≤ v ∧ v < (acc + 1) * 2 ^ ps.length)
      (fun _ _ => False) s.Starved := by
  induction ps generalizing s acc with
  | nil => exact ⟨.refl h, rfl, by simp, by simp, by simp⟩
  | cons p ps ih =>
    unfold tvDecBits
    refine (getQuery_ends h p).bind ?_
    rintro b t ⟨ht, he, hq, -⟩
    refine (ih ht.ok _).mono ?_ (fun _ _ h => h) (fun _ hf => ht.starved hf)
    rintro v u ⟨hu, heu, hqu, h1, h2⟩
    rw [shl1_or] at h1 h2
    have hb : b.toNat ≤ 1 := Bool.toNat_le b
    refine ⟨ht.trans hu, ?_, ?_, ?_, ?_⟩
    · rw [heu, he]
    · rw [hqu, hq, List.length_cons, BitVec.ofNat_add]
      show _ + 1#32 + _ = _
      rw [BitVec.add_assoc, BitVec.add_comm 1#32]
    · refine le_trans ?_ h1
      rw [List.length_cons, pow_succ]
      nlinarith [Nat.zero_le (b.toNat * 2 ^ ps.length)]
    · refine lt_of_lt_of_le h2 ?_
      rw [List.length_cons, pow_succ]
      nlinarith [Nat.mul_le_mul_right (2 ^ ps.length) hb]

theorem tvDec_ends {s : State} (h : s.DecodeOk) (c : Category) :
    (tvDec c s).Ends
      (fun v t => s.DecodeStep t ∧ t = { s with bd := t.bd } ∧
        t.bd.qcnt = s.bd.qcnt + BitVec.ofNat 32 (tables.category c).probs.length ∧
        (tables.category c).base ≤ v ∧ v < (tables.category c).base + 2 ^ (tables.category c).probs.length)
      (fun _ _ => False) s.Starved := by
  unfold tvDec
  refine (tvDecBits_ends h _ 0).bind ?_
  rintro v t ⟨ht, he, hq, -, h2⟩
  exact ⟨ht, he, hq, by omega, by omega⟩

/-- The outcome that stands for a magnitude of a category, and the number of its extra bits. -/
theorem tokenOf_category (c : Category) (v : Nat) (h1 : (tables.category c).base ≤ v)
    (h2 : v < (tables.category c).base + 2 ^ (tables.category c).probs.length) :
    tokenOf v = .cat c ∧ v ≤ 2114 ∧ (tables.category c).probs.length ≤ 11 := by
  cases c <;> simp only [tables, categoryTable, List.length] at h1 h2 ⊢ <;>
    (refine ⟨?_, by omega, by omega⟩; unfold tokenOf; repeat rw [if_neg (by omega)]) <;>
    try rw [if_pos (by omega)]

theorem magnitudeGet_ends {s : State} (h : s.DecodeOk) (tok : Token) (ht : tok ≠ .eob) :
    (magnitudeGet tok s).Ends
      (fun v t => s.DecodeStep t ∧ t = { s with bd := t.bd } ∧ tokenOf v = tok ∧ v ≤ 2114 ∧
        ∃ q ≤ 11, t.bd.qcnt = s.bd.qcnt + BitVec.ofNat 32 q)
      (fun _ _ => False) s.Starved := by
  cases tok with
  | cat c =>
    refine (tvDec_ends h c).mono ?_ (fun _ _ h => h) (fun _ h => h)
    rintro v t ⟨hs, he, hq, h1, h2⟩
    obtain ⟨h3, h4, h5⟩ := tokenOf_category c v h1 h2
    exact ⟨hs, he, h3, h4, _, h5, hq⟩
  | eob => exact absurd rfl ht
  | _ => exact ⟨.refl h, rfl, by decide, by decide, 0, by omega, by simp⟩

theorem zigzag_injective : ∀ i j : Fin 16, tables.zigzag i = tables.zigzag j → i = j := by decide

theorem toInt_small {v : Int} (h : v.natAbs ≤ 2114) : (BitVec.ofInt 16 v).toInt = v :=
  toInt_ofInt_16 (by omega) (by omega)

theorem State.c_setC_same {s : State} (slot : Fin 16) {v : Int} (h : v.natAbs ≤ 2114) : (s.setC slot v).c slot = v := by
  rw [State.c_setC, if_pos rfl, toInt_small h]

theorem tokenOf_eq_zero {a : Nat} : tokenOf a = .zero ↔ a = 0 := by
  unfold tokenOf; split_ifs <;> simp <;> omega

theorem tokenOf_ne_eob (a : Nat) : tokenOf a ≠ .eob := by
  unfold tokenOf; split_ifs <;> simp

theorem contextAfter_tokenOf (a : Nat) : contextAfter (tokenOf a) = contextOf a := by
  unfold tokenOf contextOf; split_ifs <;> rfl

theorem coefGet_ends {s : State} (h : s.DecodeOk) (i : Fin 16) (tok : Token) (ht : tok ≠ .eob) :
    (coefGet i tok s).Ends
      (fun _ t => s.DecodeStep t ∧ ∃ v : Int, t.coef = s.coef.set (tables.zigzag i) (BitVec.ofInt 16 v) ∧
        tokenOf v.natAbs = tok ∧ v.natAbs ≤ 2114 ∧ ∃ q, 1 ≤ q ∧ q ≤ 12 ∧ t.bd.qcnt = s.bd.qcnt + BitVec.ofNat 32 q)
      (fun _ _ => False) s.Starved := by
  unfold coefGet
  refine (magnitudeGet_ends h tok ht).bind ?_
  rintro mag t ⟨h1, he, htok, hmag, q, hq, hqt⟩
  refine ((getQuery_ends h1.ok _).mono (fun _ _ h => h) (fun _ _ h => h) (fun _ hf => h1.starved hf)).bind ?_
  rintro b u ⟨h2, heu, hqu, -⟩
  refine ⟨(h1.trans h2).trans (State.DecodeStep.setC h2.ok _ _), if b then -(mag : Int) else mag, ?_, ?_, ?_, q + 1,
    by omega, by omega, ?_⟩
  · rw [State.setC_coef, heu, he]
  · cases b <;> simpa using htok
  · cases b <;> simpa using hmag
  · rw [State.setC_bd, hqu, hqt, BitVec.ofNat_add, BitVec.add_assoc]; rfl

end Sys2Proof.Machine
end

