-- ==== Sys2Proof/Laws/EncoderShift.lean ====
section
/-! SUPPORT. One shift of the encoder's renormalisation loop (41_boolean_encoder.md R133): the interval doubles, at most one
byte is appended, and a carry never runs off the front of the buffer (R134). -/

namespace Sys2Proof.Machine

theorem toNat_low24 (b : Word) : (b &&& 0x00FFFFFF).toNat = b.toNat % 2 ^ 24 := by
  rw [BitVec.toNat_and, show (0x00FFFFFF : Word).toNat = 2 ^ 24 - 1 from rfl, Nat.and_two_pow_sub_one_eq_mod]

theorem toNat_top8 (b : Word) : (b.extractLsb' 24 8).toNat = b.toNat / 2 ^ 24 := by
  rw [BitVec.extractLsb'_toNat, Nat.shiftRight_eq_div_pow]
  have := b.isLt
  omega

theorem toNat_shl1 (b : Word) : (b <<< 1).toNat = 2 * b.toNat % 2 ^ 32 := by
  rw [BitVec.toNat_shiftLeft, Nat.shiftLeft_eq]; omega

theorem msb_iff (b : Word) : b.msb = true ↔ 2 ^ 31 ≤ b.toNat := by
  rw [BitVec.msb_eq_decide]; simp

/-- A carry finds a byte below 0xFF (R134, both reasons): with the carry bit set and the interval below the top, the bytes
are not all 0xFF, and there is at least one. -/
theorem room_for_carry {N P L B S : Nat} (hb : P ≤ B) (hbelow : N * P + B + 1 ≤ 255 * 2 ^ S)
    (hS : P * 2 ^ (8 * L) = 2 ^ (S + 8)) : N + 1 < 256 ^ L := by
  have h1 : (N + 1) * P < 255 * 2 ^ S := by nlinarith
  have h2 : 256 ^ L = 2 ^ (8 * L) := by rw [pow_mul]; norm_num
  rw [h2]
  by_contra h
  have h3 : 2 ^ (8 * L) * P ≤ (N + 1) * P := Nat.mul_le_mul_right P (not_lt.mp h)
  rw [mul_comm, hS, pow_add] at h3
  omega

theorem digits_above (n b : Nat) : (n * 256 + b / 2 ^ 24) * 2 ^ 24 + b % 2 ^ 24 = n * 2 ^ 32 + b := by
  omega

theorem digits_carry (n b : Nat) : (n + 2 * b / 2 ^ 32) * 2 ^ 32 + 2 * b % 2 ^ 32 = 2 * (n * 2 ^ (32 - 1) + b) := by
  omega

/-- What appending the byte `b` at index `n` does to the buffer, with a carry of 0 or 1 into the bytes before it (R134, R135). -/
structure Appended (o o' : Memory 8) (n carry : Nat) (b : Byte) : Prop where
  byte : o'.read .buffer n = some b
  number : outNumber o' n = outNumber o n + carry
  beyond : ∀ i, n < i → o'.read .buffer i = o.read .buffer i
  kept : carry = 0 → ∀ i, i < n → o'.read .buffer i = o.read .buffer i
  before : ∀ i j, i < j → j < n → o.read .buffer j ≠ some 255 → o'.read .buffer i = o.read .buffer i

/-- What one shift does, when it completes: the number doubles, a byte is appended when the count runs out. -/
structure Encoder.Shifted (e e' : Encoder) (size : Nat) : Prop where
  coding : e'.Coding size
  low : e'.low = 2 * e.low
  range : e'.range.toNat = 2 * e.range.toNat
  shifts : e'.shifts = e.shifts + 1
  qcnt : e'.qcnt = e.qcnt
  active : e'.active = e.active
  inside : 2 ≤ e.bitcnt.toNat →
    e'.len = e.len ∧ e'.obuf = e.obuf ∧ e'.bottom.toNat = 2 * e.bottom.toNat ∧ e'.bitcnt.toNat = e.bitcnt.toNat - 1
  append : e.bitcnt.toNat = 1 →
    e'.len.toNat = e.len.toNat + 1 ∧ e'.bitcnt.toNat = 8 ∧ e'.bottom.toNat = 2 * e.bottom.toNat % 2 ^ 24 ∧
      Appended e.obuf e'.obuf e.len.toNat (2 * e.bottom.toNat / 2 ^ 32) (BitVec.ofNat 8 (2 * e.bottom.toNat / 2 ^ 24))

theorem Encoder.shift_inside {e : Encoder} {size : Nat} (h : e.Coding size) (hr : e.range.toNat < 128)
    (hc : 2 ≤ e.bitcnt.toNat) : ∃ e', e.shift size = .ok () e' ∧ e.Shifted e' size := by
  have hp := h.pending
  have hc24 := h.bitcnt_le
  have hr1 := h.range_pos
  have h33 : 2 ^ (33 - e.bitcnt.toNat) ≤ 2 ^ 31 := Nat.pow_le_pow_right (by norm_num) (by omega)
  have hmsb : e.bottom.msb = false := by
    rw [Bool.eq_false_iff, Ne, msb_iff]; omega
  have hcnt : (e.bitcnt - 1).toNat = e.bitcnt.toNat - 1 := by
    rw [BitVec.toNat_sub]; have := e.bitcnt.isLt; have : (1 : BitVec 5).toNat = 1 := rfl; omega
  have hne : e.bitcnt - 1 ≠ 0 := fun hz => by
    rw [hz] at hcnt; have : (0 : BitVec 5).toNat = 0 := rfl; omega
  have hb : (e.bottom <<< 1).toNat = 2 * e.bottom.toNat := by rw [toNat_shl1]; omega
  refine ⟨{ e with range := e.range <<< 1, bottom := e.bottom <<< 1, bitcnt := e.bitcnt - 1 }, ?_, ?_⟩
  · simp only [Encoder.shift, Encoder.carryWhen, hmsb, Bool.false_eq_true, if_false, Res.bind_ok, hne]
  · have hpow : 2 ^ (33 - (e.bitcnt.toNat - 1)) = 2 * 2 ^ (33 - e.bitcnt.toNat) := by
      rw [show 33 - (e.bitcnt.toNat - 1) = 33 - e.bitcnt.toNat + 1 by omega, pow_succ]; ring
    have hpow' : 2 ^ (32 - (e.bitcnt.toNat - 1)) = 2 * 2 ^ (32 - e.bitcnt.toNat) := by
      rw [show 32 - (e.bitcnt.toNat - 1) = 32 - e.bitcnt.toNat + 1 by omega, pow_succ]; ring
    have hlow : outNumber e.obuf e.len.toNat * 2 ^ (32 - (e.bitcnt - 1).toNat) + (e.bottom <<< 1).toNat =
        2 * e.low := by
      rw [hcnt, hpow', hb, Encoder.low]; ring
    have hsh : 8 * e.len.toNat + 24 - (e.bitcnt - 1).toNat = e.shifts + 1 := by
      rw [hcnt, Encoder.shifts]; omega
    refine ⟨⟨?_, ?_, ?_, ?_, ?_, ?_, h.written, h.len_le⟩, hlow, shift_range hr, hsh, rfl, rfl, fun _ => ⟨rfl, rfl, hb, hcnt⟩,
      fun h1 => by omega⟩
    · simp only [shift_range hr]; omega
    · simp only [hcnt]; omega
    · simp only [hcnt]; omega
    · intro hl; have := h.bitcnt_le_of_len hl; simp only [hcnt]; omega
    · simp only [hcnt, hb, shift_range hr, hpow]; omega
    · have hbt := h.below_top
      simp only [Encoder.low, Encoder.shifts] at hlow hsh ⊢
      rw [hlow, hsh, shift_range hr, pow_succ]
      simp only [Encoder.low, Encoder.shifts] at hbt
      omega

theorem Encoder.carry_spec {e : Encoder} {size : Nat} (h : e.Coding size) (hc : e.bitcnt.toNat = 1) :
    ∃ o, Encoder.carryWhen e.bottom.msb { e with range := e.range <<< 1 } =
        .ok () { e with range := e.range <<< 1, obuf := o } ∧
      outNumber o e.len.toNat = outNumber e.obuf e.len.toNat + 2 * e.bottom.toNat / 2 ^ 32 ∧
      (∀ i, (e.obuf.read .buffer i).isSome → (o.read .buffer i).isSome) ∧
      (∀ i, e.len.toNat ≤ i → o.read .buffer i = e.obuf.read .buffer i) ∧
      (2 * e.bottom.toNat / 2 ^ 32 = 0 → o = e.obuf) ∧
      ∀ i j, i < j → j < e.len.toNat → e.obuf.read .buffer j ≠ some 255 →
        o.read .buffer i = e.obuf.read .buffer i := by
  have hb32 := e.bottom.isLt
  cases hm : e.bottom.msb with
  | false =>
    have hlt : e.bottom.toNat < 2 ^ 31 := by
      by_contra hx; rw [not_lt, ← msb_iff, hm] at hx; simp at hx
    exact ⟨e.obuf, rfl, by omega, fun _ hi => hi, fun _ _ => rfl, fun _ => rfl, fun _ _ _ _ _ => rfl⟩
  | true =>
    have hge : 2 ^ 31 ≤ e.bottom.toNat := (msb_iff _).mp hm
    have hbt := h.below_top
    have hr1 := h.range_pos
    rw [Encoder.low, Encoder.shifts, hc] at hbt
    have hroom : outNumber e.obuf e.len.toNat + 1 < 256 ^ e.len.toNat := by
      refine room_for_carry (P := 2 ^ 31) (B := e.bottom.toNat) (S := 8 * e.len.toNat + 24 - 1) hge ?_ ?_
      · simp only [show 32 - 1 = 31 from rfl] at hbt; omega
      · rw [← pow_add]; congr 1; omega
    obtain ⟨o, h1, h2, h3, h4, h5⟩ := carryInto_spec h.written hroom
    refine ⟨o, ?_, by rw [h2]; omega, h3, h4, by omega, h5⟩
    simp only [Encoder.carryWhen, if_true, Encoder.addOne, h1]

theorem Encoder.shift_append {e : Encoder} {size : Nat} (h : e.Coding size) (hr : e.range.toNat < 128)
    (hsize : size < 2 ^ 32) (hc : e.bitcnt.toNat = 1) (hl : e.len.toNat ≠ size) :
    ∃ e', e.shift size = .ok () e' ∧ e.Shifted e' size := by
  obtain ⟨o, h1, h2, h3, h4, h6, h7⟩ := Encoder.carry_spec h hc
  have hlen := h.len_le
  have hcz : e.bitcnt - 1 = 0 := by
    apply BitVec.eq_of_toNat_eq
    rw [BitVec.toNat_sub, hc]; rfl
  have hlen1 : (e.len + 1).toNat = e.len.toNat + 1 := by
    rw [BitVec.toNat_add]; have : (1 : Word).toNat = 1 := rfl; omega
  have h8 : (8 : BitVec 5).toNat = 8 := rfl
  have hb32 := (e.bottom <<< 1).isLt
  refine ⟨{ e with
      range := e.range <<< 1, bottom := e.bottom <<< 1 &&& 0x00FFFFFF, bitcnt := 8, len := e.len + 1
      obuf := o.write .buffer e.len.toNat ((e.bottom <<< 1).extractLsb' 24 8) }, ?_, ?_⟩
  · simp only [Encoder.shift, h1, Res.bind_ok, hcz, if_true, Encoder.writeByte, hl, if_false]
  · have hnum : outNumber (o.write .buffer e.len.toNat ((e.bottom <<< 1).extractLsb' 24 8)) (e.len.toNat + 1) * 2 ^ 24 +
        (e.bottom <<< 1 &&& 0x00FFFFFF).toNat = 2 * e.low := by
      rw [outNumber_write_last, toNat_top8, toNat_low24, h2, digits_above, toNat_shl1, Encoder.low, hc]
      exact digits_carry _ _
    have hlow : outNumber (o.write .buffer e.len.toNat ((e.bottom <<< 1).extractLsb' 24 8)) (e.len + 1).toNat *
        2 ^ (32 - (8 : BitVec 5).toNat) + (e.bottom <<< 1 &&& 0x00FFFFFF).toNat = 2 * e.low := by
      rw [hlen1, h8]; exact hnum
    have hsh : 8 * (e.len + 1).toNat + 24 - (8 : BitVec 5).toNat = e.shifts + 1 := by
      rw [hlen1, h8, Encoder.shifts, hc]; omega
    have hr1 := h.range_pos
    refine ⟨⟨?_, by simp, by simp, by simp, ?_, ?_, ?_, ?_⟩, hlow, shift_range hr, hsh, rfl, rfl,
      fun h2 => by omega, fun _ => ⟨hlen1, h8, ?_, ?_, ?_, fun i hi => ?_, fun hz i hi => ?_, fun i j hij hj hx => ?_⟩⟩
    · simp only [shift_range hr]; omega
    · simp only [h8, shift_range hr, toNat_low24]; omega
    · have hbt := h.below_top
      simp only [Encoder.low, Encoder.shifts] at hlow hsh hbt ⊢
      rw [hlow, hsh, shift_range hr, pow_succ]
      omega
    · intro i hi
      simp only [hlen1] at hi
      by_cases hie : i = e.len.toNat
      · subst hie; simp
      · simp only [Memory.read_write_other _ _ _ hie]
        exact h3 i (h.written i (by omega))
    · simp only [hlen1]; omega
    · simp only [toNat_low24, toNat_shl1]; omega
    · simp only [Memory.read_write_same]
      congr 1
      apply BitVec.eq_of_toNat_eq
      rw [toNat_top8, toNat_shl1, BitVec.toNat_ofNat]
      omega
    · simp only [outNumber_write_ge _ (le_refl e.len.toNat), h2]
    · simp only [Memory.read_write_other _ _ _ (show i ≠ e.len.toNat by omega)]
      exact h4 i (by omega)
    · simp only [Memory.read_write_other _ _ _ (show i ≠ e.len.toNat by omega)]
      rw [h6 hz]
    · simp only [Memory.read_write_other _ _ _ (show i ≠ e.len.toNat by omega)]
      exact h7 i j hij hj hx

theorem Encoder.shift_full {e : Encoder} {size : Nat} (h : e.Coding size) (hc : e.bitcnt.toNat = 1)
    (hl : e.len.toNat = size) : ∃ e', e.shift size = .raise .bufferBounds e' := by
  obtain ⟨o, h1, -⟩ := Encoder.carry_spec h hc
  have hcz : e.bitcnt - 1 = 0 := by
    apply BitVec.eq_of_toNat_eq
    rw [BitVec.toNat_sub, hc]; rfl
  refine ⟨{ e with range := e.range <<< 1, bottom := e.bottom <<< 1, bitcnt := 0, obuf := o }, ?_⟩
  simp only [Encoder.shift, h1, Res.bind_ok, hcz, if_true, Encoder.writeByte, hl, Res.bind_raise]

end Sys2Proof.Machine
end

