-- ==== Sys2Proof/Laws/EncoderPut.lean ====
section
/-! SUPPORT. Everything an encode query and the renormalisation loop can do (41_boolean_encoder.md R133 to R135). -/

namespace Sys2Proof.Machine

/-- What the renormalisation loop does in `k` shifts, when it completes. -/
structure Encoder.Renormed (e e' : Encoder) (k size : Nat) : Prop where
  sound : e'.Sound size
  low : e'.low = 2 ^ k * e.low
  range : e'.range.toNat = e.range.toNat * 2 ^ k
  shifts : e'.shifts = e.shifts + k
  qcnt : e'.qcnt = e.qcnt
  active : e'.active = e.active
  len : e'.len.toNat = if e.bitcnt.toNat ≤ k then e.len.toNat + 1 else e.len.toNat
  bitcnt : e'.bitcnt.toNat = if e.bitcnt.toNat ≤ k then e.bitcnt.toNat + 8 - k else e.bitcnt.toNat - k
  inside : k < e.bitcnt.toNat → e'.obuf = e.obuf ∧ e'.bottom.toNat = e.bottom.toNat * 2 ^ k
  append : e.bitcnt.toNat ≤ k →
    e'.bottom.toNat = e.bottom.toNat * 2 ^ e.bitcnt.toNat % 2 ^ 24 * 2 ^ (k - e.bitcnt.toNat) ∧
      Appended e.obuf e'.obuf e.len.toNat (e.bottom.toNat * 2 ^ e.bitcnt.toNat / 2 ^ 32)
        (BitVec.ofNat 8 (e.bottom.toNat * 2 ^ e.bitcnt.toNat / 2 ^ 24))

theorem Encoder.Renormed.cons {e e1 e' : Encoder} {k size : Nat} (hs : e.Shifted e1 size) (hr : e1.Renormed e' k size)
    (hk : k ≤ 6) (hpos : 1 ≤ e.bitcnt.toNat) : e.Renormed e' (k + 1) size := by
  refine ⟨hr.sound, ?_, ?_, ?_, hr.qcnt.trans hs.qcnt, hr.active.trans hs.active, ?_, ?_, fun h => ?_, fun h => ?_⟩
  · rw [hr.low, hs.low, pow_succ]; ring
  · rw [hr.range, hs.range, pow_succ]; ring
  · rw [hr.shifts, hs.shifts]; omega
  · rw [hr.len]
    by_cases h1 : e.bitcnt.toNat = 1
    · obtain ⟨h2, h3, -⟩ := hs.append h1
      rw [h2, h3, h1, if_neg (by omega), if_pos (by omega)]
    · obtain ⟨h2, -, -, h3⟩ := hs.inside (by omega)
      rw [h2, h3]
      split_ifs <;> omega
  · rw [hr.bitcnt]
    by_cases h1 : e.bitcnt.toNat = 1
    · obtain ⟨-, h3, -⟩ := hs.append h1
      rw [h3, h1, if_neg (by omega), if_pos (by omega)]
      omega
    · obtain ⟨-, -, -, h3⟩ := hs.inside (by omega)
      rw [h3]
      split_ifs <;> omega
  · obtain ⟨-, h2, h3, h4⟩ := hs.inside (by omega)
    obtain ⟨h5, h6⟩ := hr.inside (by omega)
    rw [h5, h6, h2, h3, pow_succ]
    exact ⟨rfl, by ring⟩
  · by_cases h1 : e.bitcnt.toNat = 1
    · obtain ⟨-, h3, h4, h5⟩ := hs.append h1
      obtain ⟨h6, h7⟩ := hr.inside (by omega)
      rw [h6, h7, h4, h1, pow_one, Nat.mul_comm e.bottom.toNat 2, show k + 1 - 1 = k from rfl]
      exact ⟨rfl, h5⟩
    · obtain ⟨h2, h3, h4, h5⟩ := hs.inside (by omega)
      obtain ⟨h6, h7⟩ := hr.append (by omega)
      have hv : 2 * e.bottom.toNat * 2 ^ (e.bitcnt.toNat - 1) = e.bottom.toNat * 2 ^ e.bitcnt.toNat := by
        obtain ⟨c, hc⟩ : ∃ c, e.bitcnt.toNat = c + 1 := ⟨e.bitcnt.toNat - 1, by omega⟩
        rw [hc, Nat.add_sub_cancel, pow_succ]; ring
      rw [h4, h5, hv] at h6
      rw [h2, h3, h4, h5, hv] at h7
      exact ⟨by rw [h6]; congr 2; omega, h7⟩

/-- The loop completes, or finds the buffer full when a byte is due. -/
theorem Encoder.renorm_spec {size k n : Nat} (hsize : size < 2 ^ 32) {e : Encoder} (h : e.Coding size) (hk : k ≤ 7)
    (hn : k < n) (h128 : 128 ≤ e.range.toNat * 2 ^ k) (h255 : e.range.toNat * 2 ^ k ≤ 255) :
    (e.bitcnt.toNat ≤ k ∧ e.len.toNat = size → ∃ e', Encoder.renorm size n e = .raise .bufferBounds e') ∧
      (¬(e.bitcnt.toNat ≤ k ∧ e.len.toNat = size) → ∃ e', Encoder.renorm size n e = .ok () e' ∧ e.Renormed e' k size) := by
  induction k generalizing e n with
  | zero =>
    have hpos := h.bitcnt_pos
    obtain ⟨n, rfl⟩ : ∃ m, n = m + 1 := ⟨n - 1, by omega⟩
    simp only [pow_zero, mul_one] at h128 h255
    refine ⟨fun hx => by omega, fun _ => ⟨e, by simp only [Encoder.renorm, h128, if_true], ?_⟩⟩
    exact ⟨⟨h, h128⟩, by simp, by simp, rfl, rfl, rfl, by rw [if_neg (by omega)], by rw [if_neg (by omega)]; rfl, fun _ => ⟨rfl, by simp⟩,
      fun h => by omega⟩
  | succ k ih =>
    have hpos := h.bitcnt_pos
    obtain ⟨n, rfl⟩ : ∃ m, n = m + 1 := ⟨n - 1, by omega⟩
    have hp : 1 ≤ 2 ^ k := Nat.one_le_two_pow
    rw [pow_succ, ← mul_assoc] at h128 h255
    have hle : e.range.toNat ≤ e.range.toNat * 2 ^ k := Nat.le_mul_of_pos_right _ hp
    have hlt : e.range.toNat < 128 := by omega
    simp only [Encoder.renorm, if_neg (show ¬128 ≤ e.range.toNat by omega)]
    have step : ∀ e1, e.shift size = .ok () e1 → e.Shifted e1 size →
        ¬(e1.bitcnt.toNat ≤ k ∧ e1.len.toNat = size) →
        ∃ e', ((e.shift size).bind fun _ e => Encoder.renorm size n e) = .ok () e' ∧ e.Renormed e' (k + 1) size := by
      intro e1 h1 h2 h3
      obtain ⟨e', h4, h5⟩ := (ih h2.coding (by omega) (show k < n by omega)
        (by rw [h2.range]; linarith) (by rw [h2.range]; linarith)).2 h3
      exact ⟨e', by rw [h1, Res.bind_ok, h4], h5.cons h2 (by omega) hpos⟩
    by_cases h1 : e.bitcnt.toNat = 1
    · by_cases hl : e.len.toNat = size
      · obtain ⟨e', h2⟩ := Encoder.shift_full h h1 hl
        exact ⟨fun _ => ⟨e', by rw [h2, Res.bind_raise]⟩, fun hx => absurd ⟨by omega, hl⟩ hx⟩
      · obtain ⟨e1, h2, h3⟩ := Encoder.shift_append h hlt hsize h1 hl
        refine ⟨fun hx => absurd hx.2 hl, fun _ => step e1 h2 h3 ?_⟩
        have := (h3.append h1).2
        omega
    · obtain ⟨e1, h2, h3⟩ := Encoder.shift_inside h hlt (by omega)
      obtain ⟨h4, -, -, h5⟩ := h3.inside (by omega)
      refine ⟨fun hx => ?_, fun hx => step e1 h2 h3 (by rw [h4, h5]; omega)⟩
      obtain ⟨e', h6⟩ := (ih h3.coding (by omega) (show k < n by omega)
        (by rw [h3.range]; linarith) (by rw [h3.range]; linarith)).1 (by rw [h4, h5]; omega)
      exact ⟨e', by rw [h2, Res.bind_ok, h6]⟩

/-! ### The query -/

theorem Encoder.narrow_range {e : Encoder} (b : Bool) (p : Byte) (h : 2 ≤ e.range.toNat) :
    (e.narrow b p).range.toNat = if b then e.range.toNat - split e.range p else split e.range p := by
  have h1 := split_pos e.range p
  have h2 := split_lt p h
  have h3 := e.range.isLt
  cases b <;> simp only [Encoder.narrow, Bool.false_eq_true, if_false, if_true, BitVec.toNat_ofNat] <;> omega

theorem Encoder.Coding.pending_lt {e : Encoder} {size : Nat} (h : e.Coding size) :
    e.bottom.toNat + e.range.toNat ≤ 2 ^ 32 :=
  h.pending.trans (Nat.pow_le_pow_right (by norm_num) (by have := h.bitcnt_pos; omega))

theorem Encoder.narrow_bottom {e : Encoder} {size : Nat} (h : e.Sound size) (b : Bool) (p : Byte) :
    (e.narrow b p).bottom.toNat = e.bottom.toNat + if b then split e.range p else 0 := by
  have h1 := split_lt p (show 2 ≤ e.range.toNat by have := h.range_ge; omega)
  have h2 := h.toCoding.pending_lt
  have h3 := h.range_ge
  cases b
  · simp [Encoder.narrow]
  · simp only [Encoder.narrow, if_true, BitVec.toNat_add, BitVec.toNat_ofNat]
    omega

theorem Encoder.narrow_low {e : Encoder} {size : Nat} (h : e.Sound size) (b : Bool) (p : Byte) :
    (e.narrow b p).low = e.low + if b then split e.range p else 0 := by
  have hb := Encoder.narrow_bottom h b p
  have h1 : (e.narrow b p).obuf = e.obuf := by cases b <;> rfl
  have h2 : (e.narrow b p).len = e.len := by cases b <;> rfl
  have h3 : (e.narrow b p).bitcnt = e.bitcnt := by cases b <;> rfl
  rw [Encoder.low, Encoder.low, hb, h1, h2, h3, Nat.add_assoc]

theorem Encoder.narrow_coding {e : Encoder} {size : Nat} (h : e.Sound size) (b : Bool) (p : Byte) :
    (e.narrow b p).Coding size := by
  have hge := h.range_ge
  have h1 := split_pos e.range p
  have h2 := split_lt p (show 2 ≤ e.range.toNat by omega)
  have hr := Encoder.narrow_range b p (show 2 ≤ e.range.toNat by omega)
  have hb := Encoder.narrow_bottom h b p
  have hl := Encoder.narrow_low h b p
  have e1 : (e.narrow b p).obuf = e.obuf := by cases b <;> rfl
  have e2 : (e.narrow b p).len = e.len := by cases b <;> rfl
  have e3 : (e.narrow b p).bitcnt = e.bitcnt := by cases b <;> rfl
  have e4 : (e.narrow b p).shifts = e.shifts := by rw [Encoder.shifts, Encoder.shifts, e2, e3]
  have hp := h.pending
  have ht := h.below_top
  refine ⟨?_, e3 ▸ h.bitcnt_pos, e3 ▸ h.bitcnt_le, ?_, ?_, ?_, ?_, e2 ▸ h.len_le⟩
  · rw [hr]; split_ifs <;> omega
  · rw [e2, e3]; exact h.bitcnt_le_of_len
  · rw [hr, hb, e3]; split_ifs <;> omega
  · rw [hr, hl, e4]; split_ifs <;> omega
  · rw [e1, e2]; exact h.written

/-- What an encode query does, when it completes: the interval narrows, then doubles `k` times. -/
structure Encoder.Coded (e e' : Encoder) (b : Bool) (p : Byte) (k size : Nat) : Prop where
  sound : e'.Sound size
  k_le : k ≤ 7
  low : e'.low = 2 ^ k * (e.low + if b then split e.range p else 0)
  range : e'.range.toNat = (if b then e.range.toNat - split e.range p else split e.range p) * 2 ^ k
  shifts : e'.shifts = e.shifts + k
  qcnt : e'.qcnt = e.qcnt + 1
  active : e'.active = e.active
  len : e'.len.toNat = if e.bitcnt.toNat ≤ k then e.len.toNat + 1 else e.len.toNat
  bitcnt : e'.bitcnt.toNat = if e.bitcnt.toNat ≤ k then e.bitcnt.toNat + 8 - k else e.bitcnt.toNat - k
  inside : k < e.bitcnt.toNat →
    e'.obuf = e.obuf ∧ e'.bottom.toNat = (e.bottom.toNat + if b then split e.range p else 0) * 2 ^ k
  append : e.bitcnt.toNat ≤ k →
    e'.bottom.toNat =
        (e.bottom.toNat + if b then split e.range p else 0) * 2 ^ e.bitcnt.toNat % 2 ^ 24 * 2 ^ (k - e.bitcnt.toNat) ∧
      Appended e.obuf e'.obuf e.len.toNat
        ((e.bottom.toNat + if b then split e.range p else 0) * 2 ^ e.bitcnt.toNat / 2 ^ 32)
        (BitVec.ofNat 8 ((e.bottom.toNat + if b then split e.range p else 0) * 2 ^ e.bitcnt.toNat / 2 ^ 24))

/-- No byte at or beyond the new `OBUF_LEN` changes. -/
theorem Encoder.Coded.beyond {e e' : Encoder} {b : Bool} {p : Byte} {k size : Nat} (h : e.Coded e' b p k size) (i : Nat)
    (hi : e'.len.toNat ≤ i) : e'.obuf.read .buffer i = e.obuf.read .buffer i := by
  have hl := h.len
  by_cases hk : k < e.bitcnt.toNat
  · rw [(h.inside hk).1]
  · rw [if_pos (by omega)] at hl
    exact (h.append (by omega)).2.beyond i (by omega)

/-- The number of shifts of a query. -/
theorem Encoder.narrow_norm {e : Encoder} (b : Bool) (p : Byte) (h : 2 ≤ e.range.toNat) :
    ∃ k ≤ 7, 128 ≤ (e.narrow b p).range.toNat * 2 ^ k ∧ (e.narrow b p).range.toNat * 2 ^ k ≤ 255 := by
  have h1 := split_pos e.range p
  have h2 := split_lt p h
  have hr := Encoder.narrow_range b p h
  refine exists_norm ?_ ?_
  · rw [hr]; split_ifs <;> omega
  · have := (e.narrow b p).range.isLt; omega

/-- Everything an encode query can do on an active, sound encoder: complete, or find the buffer full. -/
theorem Encoder.put_spec {e : Encoder} {size : Nat} (hsize : size < 2 ^ 32) (h : e.Sound size) (b : Bool) (p : Byte) :
    (∃ e', e.put size b p = .raise .bufferBounds e' ∧ e.len.toNat = size ∧ e.bitcnt.toNat ≤ 7) ∨
      ∃ e' k, e.put size b p = .ok () e' ∧ e.Coded e' b p k size := by
  have hge := h.range_ge
  obtain ⟨k, hk, h128, h255⟩ := Encoder.narrow_norm b p (show 2 ≤ e.range.toNat by omega)
  obtain ⟨hraise, hok⟩ := Encoder.renorm_spec hsize (Encoder.narrow_coding h b p) hk (show k < 8 by omega) h128 h255
  have e2 : (e.narrow b p).len = e.len := by cases b <;> rfl
  have e3 : (e.narrow b p).bitcnt = e.bitcnt := by cases b <;> rfl
  by_cases hx : (e.narrow b p).bitcnt.toNat ≤ k ∧ (e.narrow b p).len.toNat = size
  · obtain ⟨e', h1⟩ := hraise hx
    rw [e2, e3] at hx
    exact .inl ⟨e', by rw [Encoder.put, h1, Res.bind_raise], hx.2, by omega⟩
  · obtain ⟨e', h1, h2⟩ := hok hx
    refine .inr ⟨{ e' with qcnt := e'.qcnt + 1 }, k, by rw [Encoder.put, h1, Res.bind_ok], ?_⟩
    have e4 : (e.narrow b p).shifts = e.shifts := by rw [Encoder.shifts, Encoder.shifts, e2, e3]
    have e5 : (e.narrow b p).qcnt = e.qcnt := by cases b <;> rfl
    have e6 : (e.narrow b p).active = e.active := by cases b <;> rfl
    have e7 : (e.narrow b p).obuf = e.obuf := by cases b <;> rfl
    have e8 := Encoder.narrow_bottom h b p
    refine ⟨⟨⟨h2.sound.range_pos, h2.sound.bitcnt_pos, h2.sound.bitcnt_le, h2.sound.bitcnt_le_of_len, h2.sound.pending,
      h2.sound.below_top, h2.sound.written, h2.sound.len_le⟩, h2.sound.range_ge⟩, hk, ?_, ?_, ?_, ?_, ?_, ?_, ?_, fun h => ?_, fun h => ?_⟩
    · exact h2.low.trans (by rw [Encoder.narrow_low h])
    · exact h2.range.trans (by rw [Encoder.narrow_range b p (by omega)])
    · exact h2.shifts.trans (by rw [e4])
    · show e'.qcnt + 1 = e.qcnt + 1
      rw [h2.qcnt, e5]
    · exact h2.active.trans e6
    · have := h2.len
      rwa [e2, e3] at this
    · have := h2.bitcnt
      rwa [e3] at this
    · have := h2.inside (by rw [e3]; exact h)
      rwa [e7, e8] at this
    · have := h2.append (by rw [e3]; exact h)
      rwa [e2, e3, e7, e8] at this

/-- A query appends at most one byte, so room for one byte is enough. -/
theorem Encoder.put_ok {e : Encoder} {size : Nat} (hsize : size < 2 ^ 32) (h : e.Sound size) (hl : e.len.toNat < size)
    (b : Bool) (p : Byte) : ∃ e' k, e.put size b p = .ok () e' ∧ e.Coded e' b p k size := by
  rcases Encoder.put_spec hsize h b p with ⟨_, -, hx, -⟩ | hx
  · omega
  · exact hx

end Sys2Proof.Machine
end

