-- ==== Sys2Proof/Laws/EncoderFlush.lean ====
section
/-! SUPPORT. Everything `BE.FLUSH` can do (41_boolean_encoder.md R138), and what no encoder operation breaks in `OBUF`. -/

namespace Sys2Proof.Machine

theorem toNat_shl8 (v : Word) : (v <<< 8).toNat = v.toNat % 2 ^ 24 * 256 := by
  rw [BitVec.toNat_shiftLeft, Nat.shiftLeft_eq]; omega

/-- Appending the top `n` bytes of a word, when they fit. -/
theorem Encoder.writeTop_ok {size n : Nat} (hsize : size < 2 ^ 32) (hn : n ≤ 4) (v : Word) {e : Encoder}
    (hl : e.len.toNat + n ≤ size) :
    ∃ e', Encoder.writeTop size n v e = .ok () e' ∧ e' = { e with obuf := e'.obuf, len := e'.len } ∧
      e'.len.toNat = e.len.toNat + n ∧
      outNumber e'.obuf (e.len.toNat + n) = outNumber e.obuf e.len.toNat * 2 ^ (8 * n) + v.toNat / 2 ^ (32 - 8 * n) ∧
      (∀ i, i < e.len.toNat ∨ e.len.toNat + n ≤ i → e'.obuf.read .buffer i = e.obuf.read .buffer i) ∧
      ∀ i, e.len.toNat ≤ i → i < e.len.toNat + n → (e'.obuf.read .buffer i).isSome := by
  induction n generalizing v e with
  | zero =>
    refine ⟨e, rfl, rfl, rfl, ?_, fun _ _ => rfl, fun _ _ _ => by omega⟩
    have := v.isLt
    simp only [Nat.add_zero, Nat.mul_zero, pow_zero, mul_one, Nat.sub_zero]
    rw [Nat.div_eq_of_lt this, Nat.add_zero]
  | succ n ih =>
    have hlen1 : (e.len + 1).toNat = e.len.toNat + 1 := by
      rw [BitVec.toNat_add]; have : (1 : Word).toNat = 1 := rfl; omega
    obtain ⟨e', h1, h2, h3, h4, h5, h6⟩ := ih (by omega) (v <<< 8)
      (e := { e with obuf := e.obuf.write .buffer e.len.toNat (v.extractLsb' 24 8), len := e.len + 1 })
      (by simp only [hlen1]; omega)
    simp only [hlen1] at h3 h4 h5 h6
    refine ⟨e', ?_, h2, by omega, ?_, fun i hi => ?_, fun i hi1 hi2 => ?_⟩
    · simp only [Encoder.writeTop, Encoder.writeByte, if_neg (show e.len.toNat ≠ size by omega), Res.bind_ok, h1]
    · rw [show e.len.toNat + (n + 1) = e.len.toNat + 1 + n by omega, h4, outNumber_write_last, toNat_top8, toNat_shl8]
      have := v.isLt
      have hn3 : n ≤ 3 := by omega
      clear h1 h2 h3 h4 h5 h6 ih hlen1
      interval_cases n <;> norm_num <;> omega
    · rw [h5 i (by omega), Memory.read_write_other _ _ _ (by omega)]
    · rcases Nat.lt_or_ge e.len.toNat i with hi | hi
      · exact h6 i hi (by omega)
      · obtain rfl : i = e.len.toNat := by omega
        rw [h5 _ (.inl (Nat.lt_succ_self _)), Memory.read_write_same]
        rfl

/-- When they do not fit, the buffer is found full. -/
theorem Encoder.writeTop_full {size n : Nat} (hsize : size < 2 ^ 32) (v : Word) {e : Encoder}
    (hle : e.len.toNat ≤ size) (hl : size < e.len.toNat + n) :
    ∃ e', Encoder.writeTop size n v e = .raise .bufferBounds e' := by
  induction n generalizing v e with
  | zero => omega
  | succ n ih =>
    by_cases hx : e.len.toNat = size
    · exact ⟨e, by simp only [Encoder.writeTop, Encoder.writeByte, hx, if_true, Res.bind_raise]⟩
    · have hlen1 : (e.len + 1).toNat = e.len.toNat + 1 := by
        rw [BitVec.toNat_add]; have : (1 : Word).toNat = 1 := rfl; omega
      obtain ⟨e', h1⟩ := ih (v <<< 8)
        (e := { e with obuf := e.obuf.write .buffer e.len.toNat (v.extractLsb' 24 8), len := e.len + 1 })
        (by simp only [hlen1]; omega) (by simp only [hlen1]; omega)
      exact ⟨e', by simp only [Encoder.writeTop, Encoder.writeByte, if_neg hx, Res.bind_ok, h1]⟩

/-- The pending bits of a sound encoder: the carry bit at position `32 - BE_BITCNT`, nothing above it. -/
theorem Encoder.Coding.bottom_split {e : Encoder} {size : Nat} (h : e.Coding size) :
    e.bottom.toNat = (e.bottom.getLsbD (32 - e.bitcnt.toNat)).toNat * 2 ^ (32 - e.bitcnt.toNat) +
      e.bottom.toNat % 2 ^ (32 - e.bitcnt.toNat) := by
  have hp := h.pending
  have h1 := h.range_pos
  have h2 := h.bitcnt_le
  rw [show 33 - e.bitcnt.toNat = 32 - e.bitcnt.toNat + 1 by omega, pow_succ] at hp
  have h3 : e.bottom.toNat / 2 ^ (32 - e.bitcnt.toNat) < 2 := by
    rw [Nat.div_lt_iff_lt_mul (by positivity)]; omega
  have h4 : (e.bottom.getLsbD (32 - e.bitcnt.toNat)).toNat = e.bottom.toNat / 2 ^ (32 - e.bitcnt.toNat) := by
    have h5 : e.bottom.getLsbD (32 - e.bitcnt.toNat) = e.bottom.toNat.testBit (32 - e.bitcnt.toNat) := rfl
    rw [h5, Nat.testBit_eq_decide_div_mod_eq]
    rcases Nat.le_one_iff_eq_zero_or_eq_one.mp (Nat.lt_succ_iff.mp h3) with h6 | h6 <;> simp [h6]
  rw [h4, Nat.mul_comm]
  exact (Nat.div_add_mod _ _).symm

theorem Encoder.bottom_shl {e : Encoder} {size : Nat} (h : e.Coding size) :
    (e.bottom <<< e.bitcnt.toNat).toNat = e.bottom.toNat % 2 ^ (32 - e.bitcnt.toNat) * 2 ^ e.bitcnt.toNat := by
  have h1 := h.bitcnt_le
  rw [BitVec.toNat_shiftLeft, Nat.shiftLeft_eq]
  conv_lhs => rw [show (2 : Nat) ^ 32 = 2 ^ (32 - e.bitcnt.toNat) * 2 ^ e.bitcnt.toNat by
    rw [← pow_add]; congr 1; omega]
  exact Nat.mul_mod_mul_right _ _ _

/-- The pending carry of a flush never runs off the front (R134). -/
theorem Encoder.flush_carry {e : Encoder} {size : Nat} (h : e.Coding size) :
    ∃ o, Encoder.carryWhen (e.bottom.getLsbD (32 - e.bitcnt.toNat)) e = .ok () { e with obuf := o } ∧
      outNumber o e.len.toNat =
        outNumber e.obuf e.len.toNat + (e.bottom.getLsbD (32 - e.bitcnt.toNat)).toNat ∧
      (∀ i, e.len.toNat ≤ i → o.read .buffer i = e.obuf.read .buffer i) ∧
      (e.bottom.getLsbD (32 - e.bitcnt.toNat) = false → o = e.obuf) ∧
      (∀ i j, i < j → j < e.len.toNat → e.obuf.read .buffer j ≠ some 255 →
        o.read .buffer i = e.obuf.read .buffer i) ∧
      ∀ i, i < e.len.toNat → (o.read .buffer i).isSome := by
  have hs := h.bottom_split
  cases hc : e.bottom.getLsbD (32 - e.bitcnt.toNat) with
  | false => exact ⟨e.obuf, rfl, rfl, fun _ _ => rfl, fun _ => rfl, fun _ _ _ _ _ => rfl, h.written⟩
  | true =>
    have hbt := h.below_top
    have hr1 := h.range_pos
    have hc24 := h.bitcnt_le
    rw [hc, Bool.toNat_true, Nat.one_mul] at hs
    have hroom : outNumber e.obuf e.len.toNat + 1 < 256 ^ e.len.toNat := by
      refine room_for_carry (P := 2 ^ (32 - e.bitcnt.toNat)) (B := e.bottom.toNat) (S := e.shifts) (by omega) ?_ ?_
      · rw [Encoder.low] at hbt; omega
      · rw [Encoder.shifts, ← pow_add]; congr 1; omega
    obtain ⟨o, h1, h2, h3, h4, h5⟩ := carryInto_spec h.written hroom
    exact ⟨o, by simp only [Encoder.carryWhen, if_true, Encoder.addOne, h1], h2, h4, nofun, h5,
      fun i hi => h3 i (h.written i hi)⟩

/-- What a flush leaves, when it completes: the final number is the low end of the interval. -/
structure Encoder.Flushed (e e' : Encoder) : Prop where
  same : e' = { e with active := false, obuf := e'.obuf, len := e'.len }
  len : e'.len.toNat = e.len.toNat + 4
  number : outNumber e'.obuf (e.len.toNat + 4) = e.low * 2 ^ e.bitcnt.toNat
  beyond : ∀ i, e'.len.toNat ≤ i → e'.obuf.read .buffer i = e.obuf.read .buffer i
  kept : e.bottom.getLsbD (32 - e.bitcnt.toNat) = false →
    ∀ i, i < e.len.toNat → e'.obuf.read .buffer i = e.obuf.read .buffer i
  before : ∀ i j, i < j → j < e.len.toNat → e.obuf.read .buffer j ≠ some 255 →
    e'.obuf.read .buffer i = e.obuf.read .buffer i
  written : ∀ i, i < e.len.toNat + 4 → (e'.obuf.read .buffer i).isSome

theorem Encoder.flush_ok {e : Encoder} {size : Nat} (hsize : size < 2 ^ 32) (h : e.Coding size)
    (hl : e.len.toNat + 4 ≤ size) : ∃ e', e.flush size = .ok () e' ∧ e.Flushed e' := by
  obtain ⟨o, h1, h2, h3, hk, hb, hwr⟩ := Encoder.flush_carry h
  obtain ⟨e', h4, h5, h6, h7, h8, h9⟩ := Encoder.writeTop_ok hsize (le_refl 4) (e.bottom <<< e.bitcnt.toNat)
    (e := { e with obuf := o }) hl
  refine ⟨{ e' with active := false }, ?_, ?_, h6, ?_, fun i hi => ?_, fun hc i hi => ?_,
    fun i j hij hj hx => ?_, fun i hi => ?_⟩
  · simp only [Encoder.flush, h1, Res.bind_ok, h4]
  · rw [h5]
  · have hs := h.bottom_split
    have hc24 := h.bitcnt_le
    have h32 : (2 : Nat) ^ 32 = 2 ^ (32 - e.bitcnt.toNat) * 2 ^ e.bitcnt.toNat := by
      rw [← pow_add]; congr 1; omega
    simp only at h7
    rw [h7, h2, Encoder.bottom_shl h, Encoder.low, show 32 - 8 * 4 = 0 from rfl, pow_zero, Nat.div_one,
      show 8 * 4 = 32 from rfl, h32]
    conv_rhs => rw [hs]
    ring
  · have := h8 i (.inr (by simp only at h6 hi ⊢; omega))
    simp only at this ⊢
    rw [this, h3 i (by simp only at h6 hi; omega)]
  · have := h8 i (.inl hi)
    simp only at this ⊢
    rw [this, hk hc]
  · have := h8 i (.inl (by simp only; omega))
    simp only at this ⊢
    rw [this, hb i j hij hj hx]
  · rcases Nat.lt_or_ge i e.len.toNat with hl | hl
    · have := h8 i (.inl hl)
      simp only at this ⊢
      rw [this]
      exact hwr i hl
    · exact h9 i hl hi

theorem Encoder.flush_full {e : Encoder} {size : Nat} (hsize : size < 2 ^ 32) (h : e.Coding size)
    (hl : size < e.len.toNat + 4) : ∃ e', e.flush size = .raise .bufferBounds e' := by
  obtain ⟨o, h1, -⟩ := Encoder.flush_carry h
  obtain ⟨e', h2⟩ := Encoder.writeTop_full hsize (e.bottom <<< e.bitcnt.toNat) (e := { e with obuf := o }) (n := 4)
    h.len_le hl
  exact ⟨e', by simp only [Encoder.flush, h1, Res.bind_ok, h2, Res.bind_raise]⟩

/-! ### `OBUF` through any encoder operation -/

/-- `OBUF` is in canonical form, holds nothing outside its bounds, and `OBUF_LEN` counts bytes inside it. -/
structure Encoder.BufferOk (size : Nat) (e : Encoder) : Prop where
  wf : e.obuf.wf .buffer
  within : e.obuf.within size
  len_le : e.len.toNat ≤ size

theorem Encoder.writeByte_bufferOk {size : Nat} (hsize : size < 2 ^ 32) {b : Byte} {e : Encoder} (h : e.BufferOk size) :
    (e.writeByte size b).Carries (Encoder.BufferOk size) := by
  unfold Encoder.writeByte
  split_ifs with hx
  · exact h
  · have := h.len_le
    have hlt : e.len.toNat < size := by omega
    refine ⟨Memory.write_wf _ b h.wf, Memory.write_within (k := .buffer) b hlt h.within, ?_⟩
    show (e.len + 1).toNat ≤ size
    rw [BitVec.toNat_add]; have : (1 : Word).toNat = 1 := rfl; omega

theorem Encoder.carryWhen_bufferOk {size : Nat} {c : Bool} {e : Encoder} (h : e.BufferOk size) :
    (Encoder.carryWhen c e).Carries (Encoder.BufferOk size) := by
  unfold Encoder.carryWhen Encoder.addOne
  split_ifs
  · split
    · next h1 =>
      obtain ⟨h2, h3⟩ := carryInto_keeps h.len_le h1 h.wf h.within
      exact ⟨h2, h3, h.len_le⟩
    · trivial
  · exact h

theorem Encoder.shift_bufferOk {size : Nat} (hsize : size < 2 ^ 32) {e : Encoder} (h : e.BufferOk size) :
    (e.shift size).Carries (Encoder.BufferOk size) := by
  unfold Encoder.shift
  refine (Encoder.carryWhen_bufferOk (size := size) (e := { e with range := e.range <<< 1 })
    ⟨h.wf, h.within, h.len_le⟩).bind (fun _ h => h) fun _ e h => ?_
  dsimp only
  split_ifs
  · refine (Encoder.writeByte_bufferOk hsize (e := { e with bottom := e.bottom <<< 1, bitcnt := e.bitcnt - 1 })
      ⟨h.wf, h.within, h.len_le⟩).bind (fun _ h => h) fun _ e h => ?_
    exact ⟨h.wf, h.within, h.len_le⟩
  · exact ⟨h.wf, h.within, h.len_le⟩

theorem Encoder.renorm_bufferOk {size n : Nat} (hsize : size < 2 ^ 32) {e : Encoder} (h : e.BufferOk size) :
    (Encoder.renorm size n e).Carries (Encoder.BufferOk size) := by
  induction n generalizing e with
  | zero => trivial
  | succ n ih =>
    unfold Encoder.renorm
    split_ifs
    · exact h
    · exact (Encoder.shift_bufferOk hsize h).bind (fun _ h => h) fun _ _ h => ih h

theorem Encoder.put_bufferOk {size : Nat} (hsize : size < 2 ^ 32) {b : Bool} {p : Byte} {e : Encoder}
    (h : e.BufferOk size) : (e.put size b p).Carries (Encoder.BufferOk size) := by
  have h1 : (e.narrow b p).BufferOk size := by cases b <;> exact ⟨h.wf, h.within, h.len_le⟩
  exact (Encoder.renorm_bufferOk hsize h1).bind (fun _ h => h) fun _ _ h => ⟨h.wf, h.within, h.len_le⟩

theorem Encoder.writeTop_bufferOk {size n : Nat} (hsize : size < 2 ^ 32) {v : Word} {e : Encoder}
    (h : e.BufferOk size) : (Encoder.writeTop size n v e).Carries (Encoder.BufferOk size) := by
  induction n generalizing v e with
  | zero => exact h
  | succ n ih => exact (Encoder.writeByte_bufferOk hsize h).bind (fun _ h => h) fun _ _ h => ih h

theorem Encoder.flush_bufferOk {size : Nat} (hsize : size < 2 ^ 32) {e : Encoder} (h : e.BufferOk size) :
    (e.flush size).Carries (Encoder.BufferOk size) :=
  (Encoder.carryWhen_bufferOk h).bind (fun _ h => h) fun _ _ h =>
    (Encoder.writeTop_bufferOk hsize h).bind (fun _ h => h) fun _ _ h => ⟨h.wf, h.within, h.len_le⟩

end Sys2Proof.Machine
end

