-- ==== Sys2Proof/Laws/Encoding.lean ====
section
/-! SUPPORT. What the pieces of an encoding command can do, from one query to a whole walk (41_boolean_encoder.md R133,
42_token_value.md R159, 43_token_walker.md R190). -/

namespace Sys2Proof.Machine

/-- What an encoding command needs of the state, and keeps. -/
structure State.EncodeOk (s : State) : Prop where
  sound : s.be.Sound s.obufSize
  size : s.obufSize < 2 ^ 32
  obuf_wf : s.be.obuf.wf .buffer
  obuf_within : s.be.obuf.within s.obufSize
  brc_wf : s.brc.wf .table
  brc_within : s.brc.within 2112

/-- What a piece of an encoding command that appends at most `n` bytes may change: the encoder, the branch counters. -/
structure State.EncodeStep (n : Nat) (s t : State) : Prop where
  same : t = { s with be := t.be, brc := t.brc }
  active : t.be.active = s.be.active
  ok : t.EncodeOk
  len_ge : s.be.len.toNat ≤ t.be.len.toNat
  len_le : t.be.len.toNat ≤ s.be.len.toNat + n
  beyond : ∀ i, t.be.len.toNat ≤ i → t.be.obuf.read .buffer i = s.be.obuf.read .buffer i

theorem State.EncodeStep.refl {s : State} (h : s.EncodeOk) : State.EncodeStep 0 s s :=
  ⟨rfl, rfl, h, le_rfl, le_rfl, fun _ _ => rfl⟩

theorem State.EncodeStep.mono {n m : Nat} {s t : State} (h : State.EncodeStep n s t) (hm : n ≤ m) :
    State.EncodeStep m s t :=
  ⟨h.same, h.active, h.ok, h.len_ge, by have := h.len_le; omega, h.beyond⟩

theorem State.EncodeStep.trans {n m : Nat} {s t u : State} (h1 : State.EncodeStep n s t) (h2 : State.EncodeStep m t u) :
    State.EncodeStep (n + m) s u := by
  have a1 := h1.len_ge
  have a2 := h2.len_ge
  have b1 := h1.len_le
  have b2 := h2.len_le
  refine ⟨?_, h2.active.trans h1.active, h2.ok, by omega, by omega, fun i hi => ?_⟩
  · have e1 := h1.same
    have e2 := h2.same
    rw [e1] at e2
    exact e2
  · rw [h2.beyond i hi, h1.beyond i (by omega)]

theorem State.EncodeStep.prob {n : Nat} {s t : State} (h : State.EncodeStep n s t) : t.prob = s.prob := by rw [h.same]
theorem State.EncodeStep.coef {n : Nat} {s t : State} (h : State.EncodeStep n s t) : t.coef = s.coef := by rw [h.same]
theorem State.EncodeStep.obufSize {n : Nat} {s t : State} (h : State.EncodeStep n s t) : t.obufSize = s.obufSize := by
  rw [h.same]

/-- How a piece of an encoding command that appends at most `n` bytes can fail: the buffer is full, or the walk met a
probability that is not loaded. -/
structure State.Jammed (s : State) (bt : BitVec 2) (n : Nat) (e : Err) (t : State) : Prop where
  same : t = { s with be := t.be, brc := t.brc }
  buffer : t.be.BufferOk t.obufSize
  brc_wf : t.brc.wf .table
  brc_within : t.brc.within 2112
  cause : e = .bufferBounds ∧ s.obufSize < s.be.len.toNat + n ∨ e = .invalidProbability ∧ ¬s.Loaded bt

theorem State.EncodeStep.jammed {n m k : Nat} {s t u : State} {bt : BitVec 2} {e : Err} (h : State.EncodeStep n s t)
    (hu : t.Jammed bt m e u) (hk : n + m ≤ k) : s.Jammed bt k e u := by
  refine ⟨?_, hu.buffer, hu.brc_wf, hu.brc_within, ?_⟩
  · have e1 := h.same
    have e2 := hu.same
    rw [e1] at e2
    exact e2
  · have hle := h.len_le
    rcases hu.cause with ⟨h1, h2⟩ | ⟨h1, h2⟩
    · rw [h.obufSize] at h2
      exact .inl ⟨h1, by omega⟩
    · exact .inr ⟨h1, fun hl => h2 (by unfold State.Loaded; rw [h.prob]; exact hl)⟩

/-- Going on from a reached state. -/
theorem Res.Ends.encode {α : Type} {n m k : Nat} {s t : State} {bt : BitVec 2} {P : α → State → Prop} {r : Res State α}
    (h : State.EncodeStep n s t) (hr : r.Ends P (t.Jammed bt m) fun _ => False) (hk : n + m ≤ k) :
    r.Ends P (s.Jammed bt k) fun _ => False :=
  hr.mono (fun _ _ h => h) (fun _ _ hu => h.jammed hu hk) (fun _ hf => hf)

/-! ### Queries -/

theorem putQuery_ends {s : State} (h : s.EncodeOk) (bt : BitVec 2) (b : Bool) (p : Byte) :
    (putQuery b p s).Ends
      (fun _ t => State.EncodeStep 1 s t ∧ t = { s with be := t.be } ∧ t.be.qcnt = s.be.qcnt + 1)
      (s.Jammed bt 1) fun _ => False := by
  have hb := Encoder.put_bufferOk h.size (b := b) (p := p) ⟨h.obuf_wf, h.obuf_within, h.sound.len_le⟩
  rcases Encoder.put_spec h.size h.sound b p with ⟨e', h1, h2, -⟩ | ⟨e', k, h1, h2⟩
  · rw [h1] at hb
    rw [putQuery, h1]
    exact ⟨rfl, hb, h.brc_wf, h.brc_within, .inl ⟨rfl, by omega⟩⟩
  · rw [h1] at hb
    rw [putQuery, h1]
    have hl := h2.len
    refine ⟨⟨rfl, h2.active, ⟨h2.sound, h.size, hb.wf, hb.within, h.brc_wf, h.brc_within⟩, ?_, ?_, h2.beyond⟩, rfl, h2.qcnt⟩
    · show s.be.len.toNat ≤ e'.len.toNat
      rw [hl]; split_ifs <;> omega
    · show e'.len.toNat ≤ s.be.len.toNat + 1
      rw [hl]; split_ifs <;> omega

theorem countBranch_encodeStep {s : State} (h : s.EncodeOk) (t : TreeCtx) (k : Fin 11) (b : Bool) :
    State.EncodeStep 0 s (s.countBranch t k b) :=
  ⟨rfl, rfl, ⟨h.sound, h.size, h.obuf_wf, h.obuf_within, Memory.write_wf _ _ h.brc_wf,
    Memory.write_within (k := .table) _ (brcIndex_lt t k b) h.brc_within⟩, le_rfl, le_rfl, fun _ _ => rfl⟩

theorem treePut_ends {s : State} (h : s.EncodeOk) (c : TreeCtx) (k : Fin 11) (b : Bool) :
    (treePut c k b s).Ends (fun _ t => State.EncodeStep 1 s t ∧ t.be.qcnt = s.be.qcnt + 1) (s.Jammed c.bt 1)
      fun _ => False := by
  unfold treePut
  split_ifs with h0
  · exact ⟨rfl, ⟨h.obuf_wf, h.obuf_within, h.sound.len_le⟩, h.brc_wf, h.brc_within,
      .inr ⟨rfl, fun hl => hl c.band c.ctx k h0⟩⟩
  · refine (putQuery_ends h c.bt b _).bind ?_
    rintro - t ⟨ht, -, hq⟩
    exact ⟨ht.trans (countBranch_encodeStep ht.ok c k b), hq⟩

theorem ofNat_cons (q : Nat) (x : Word) : x + 1 + BitVec.ofNat 32 q = x + BitVec.ofNat 32 (q + 1) := by
  rw [BitVec.ofNat_add, BitVec.add_assoc, BitVec.add_comm (BitVec.ofNat 32 q)]
  rfl

theorem treePutAll_ends {s : State} (h : s.EncodeOk) (c : TreeCtx) (path : List (Fin 11 × Bool)) :
    (treePutAll c path s).Ends
      (fun _ t => State.EncodeStep path.length s t ∧ t.be.qcnt = s.be.qcnt + BitVec.ofNat 32 path.length)
      (s.Jammed c.bt path.length) fun _ => False := by
  induction path generalizing s with
  | nil => exact ⟨.refl h, by simp⟩
  | cons a path ih =>
    obtain ⟨k, b⟩ := a
    unfold treePutAll
    refine ((treePut_ends h c k b).encode (.refl h) (by simp)).bind ?_
    rintro - t ⟨ht, hq⟩
    refine ((ih ht.ok).encode ht (by simp; omega)).mono ?_ (fun _ _ h => h) (fun _ h => h)
    rintro - u ⟨hu, hqu⟩
    exact ⟨(ht.trans hu).mono (by simp; omega), by rw [hqu, hq, ofNat_cons]; rfl⟩

theorem tvEncBits_ends {s : State} (h : s.EncodeOk) (bt : BitVec 2) (ps : List Byte) (off : Nat) :
    (tvEncBits ps off s).Ends
      (fun _ t => State.EncodeStep ps.length s t ∧ t = { s with be := t.be } ∧
        t.be.qcnt = s.be.qcnt + BitVec.ofNat 32 ps.length)
      (s.Jammed bt ps.length) fun _ => False := by
  induction ps generalizing s with
  | nil => exact ⟨.refl h, rfl, by simp⟩
  | cons p ps ih =>
    unfold tvEncBits
    refine ((putQuery_ends h bt _ p).encode (.refl h) (by simp)).bind ?_
    rintro - t ⟨ht, he, hq⟩
    refine ((ih ht.ok).encode ht (by simp; omega)).mono ?_ (fun _ _ h => h) (fun _ h => h)
    rintro - u ⟨hu, heu, hqu⟩
    exact ⟨(ht.trans hu).mono (by simp; omega), by rw [heu, he], by rw [hqu, hq, ofNat_cons]; rfl⟩

theorem tvOffset_eq_some {c : Category} {mag off : Nat} :
    tvOffset c mag = some off ↔
      mag = (tables.category c).base + off ∧ off < 2 ^ (tables.category c).probs.length := by
  unfold tvOffset
  split_ifs with h
  · simp only [Option.some.injEq]; omega
  · simp only [false_iff]; omega

theorem tvEnc_ends {s : State} (h : s.EncodeOk) (bt : BitVec 2) {c : Category} {mag off : Nat}
    (hoff : tvOffset c mag = some off) :
    (tvEnc c mag s).Ends
      (fun _ t => State.EncodeStep (tables.category c).probs.length s t ∧ t = { s with be := t.be } ∧
        t.be.qcnt = s.be.qcnt + BitVec.ofNat 32 (tables.category c).probs.length)
      (s.Jammed bt (tables.category c).probs.length) fun _ => False := by
  unfold tvEnc
  rw [hoff]
  exact tvEncBits_ends h bt _ off

theorem probs_length_le (c : Category) : (tables.category c).probs.length ≤ 11 := by cases c <;> decide

/-- A codable magnitude lies in the range of its category (R157, R171). -/
theorem tokenOf_range {a : Nat} {c : Category} (ha : a ≤ 2114) (h : tokenOf a = .cat c) : ∃ off, tvOffset c a = some off := by
  unfold tvOffset
  suffices hx : (tables.category c).base ≤ a ∧ a - (tables.category c).base < 2 ^ (tables.category c).probs.length by
    exact ⟨_, if_pos hx⟩
  unfold tokenOf at h
  split_ifs at h <;> first | contradiction | (injection h with h; subst h; simp only [tables, categoryTable, List.length]; omega)

theorem extraPut_ends {s : State} (h : s.EncodeOk) (bt : BitVec 2) {a : Nat} (ha : a ≤ 2114) :
    (extraPut (tokenOf a) a s).Ends (fun _ t => State.EncodeStep 11 s t ∧ t = { s with be := t.be })
      (s.Jammed bt 11) fun _ => False := by
  cases htok : tokenOf a with
  | cat c =>
    obtain ⟨off, hoff⟩ := tokenOf_range ha htok
    refine ((tvEnc_ends h bt hoff).encode (k := 11) (.refl h) (by have := probs_length_le c; omega)).mono ?_
      (fun _ _ h => h) (fun _ h => h)
    rintro - t ⟨ht, he, -⟩
    exact ⟨ht.mono (probs_length_le c), he⟩
  | _ => exact ⟨(State.EncodeStep.refl h).mono (by omega), rfl⟩

theorem coefPut_ends {s : State} (h : s.EncodeOk) (bt : BitVec 2) {v : Int} (hv : v.natAbs ≤ 2114) :
    (coefPut v s).Ends (fun _ t => State.EncodeStep 12 s t ∧ t = { s with be := t.be }) (s.Jammed bt 12)
      fun _ => False := by
  unfold coefPut
  refine ((extraPut_ends h bt hv).encode (k := 12) (.refl h) (by omega)).bind ?_
  rintro - t ⟨ht, he⟩
  refine ((putQuery_ends ht.ok bt _ _).encode ht (by omega)).mono ?_ (fun _ _ h => h) (fun _ h => h)
  rintro - u ⟨hu, heu, -⟩
  exact ⟨ht.trans hu, by rw [heu, he]⟩

end Sys2Proof.Machine
end

