-- ==== Sys2Proof/Laws/Frames.lean ====
section
/-! SUPPORT. In whatever state it starts, what each piece of a command may write, and which errors it may raise. -/

namespace Sys2Proof.Machine

/-! ### Decoding -/

/-- Only the decoder, the branch counters and the coefficients differ. -/
def State.DecodeFrame (s t : State) : Prop := t = { s with bd := t.bd, brc := t.brc, coef := t.coef }

theorem State.DecodeFrame.refl (s : State) : s.DecodeFrame s := rfl

theorem State.DecodeFrame.trans {s t u : State} (h1 : s.DecodeFrame t) (h2 : t.DecodeFrame u) : s.DecodeFrame u := by
  unfold State.DecodeFrame at *
  rw [h1] at h2
  exact h2

theorem getQuery_frame (p : Byte) (s : State) :
    (getQuery p s).Ends (fun _ t => t = { s with bd := t.bd }) (fun _ _ => False) fun _ => True := by
  have hn : ∀ (i : Memory 8) (d : Decoder), (d.nextByte i).Ends (fun _ _ => True) (fun _ _ => False) fun _ => True := by
    intro i d
    unfold Decoder.nextByte
    split
    · split <;> trivial
    · trivial
  have hr : ∀ (i : Memory 8) (n : Nat) (d : Decoder),
      (Decoder.renorm i n d).Ends (fun _ _ => True) (fun _ _ => False) fun _ => True := by
    intro i n
    induction n with
    | zero => intro d; trivial
    | succ n ih =>
      intro d
      unfold Decoder.renorm
      split
      · trivial
      · refine Res.Ends.bind (P := fun _ _ => True) ?_ fun _ d _ => ih d
        unfold Decoder.shift
        dsimp only
        split
        · exact (hn i _).bind fun _ _ _ => trivial
        · trivial
  have hg : (s.bd.get s.ibuf p).Ends (fun _ _ => True) (fun _ _ => False) fun _ => True :=
    (hr _ _ _).bind fun _ _ _ => trivial
  unfold getQuery
  cases h : s.bd.get s.ibuf p with
  | ok b d => exact rfl
  | raise e d => rw [h] at hg; exact hg
  | stop f => trivial

theorem treeGet_frame (c : TreeCtx) (k : Fin 11) (s : State) :
    (treeGet c k s).Ends (fun _ t => s.DecodeFrame t) (fun e t => s.DecodeFrame t ∧ e = .invalidProbability)
      fun _ => True := by
  unfold treeGet
  split_ifs
  · exact ⟨.refl s, rfl⟩
  · refine ((getQuery_frame _ s).mono (fun _ _ h => h) (fun _ _ h => h.elim) (fun _ h => h)).bind fun b t ht => ?_
    unfold State.DecodeFrame
    rw [ht]
    rfl

theorem treeWalk_frame (c : TreeCtx) {n : Nat} {k : Fin 11} (s : State) (hn : treeHeight k ≤ n) :
    (treeWalk c n k s).Ends (fun _ t => s.DecodeFrame t) (fun e t => s.DecodeFrame t ∧ e = .invalidProbability)
      fun _ => True := by
  induction n generalizing s k with
  | zero => have := treeHeight_pos k; omega
  | succ n ih =>
    unfold treeWalk
    refine (treeGet_frame c k s).bind fun b t ht => ?_
    split
    · exact ht
    · next j hj =>
      have := branchOf_height k j b hj
      exact (ih t (by omega)).mono (fun _ _ h => ht.trans h) (fun _ _ h => ⟨ht.trans h.1, h.2⟩) (fun _ h => h)

theorem tvDecBits_frame (ps : List Byte) (acc : Nat) (s : State) :
    (tvDecBits ps acc s).Ends (fun _ t => t = { s with bd := t.bd }) (fun _ _ => False) fun _ => True := by
  induction ps generalizing acc s with
  | nil => exact rfl
  | cons p ps ih =>
    unfold tvDecBits
    refine (getQuery_frame p s).bind fun b t ht => ?_
    refine (ih _ t).mono (fun _ u hu => ?_) (fun _ _ h => h) (fun _ h => h)
    rw [hu, ht]

theorem tvDec_frame (c : Category) (s : State) :
    (tvDec c s).Ends (fun _ t => t = { s with bd := t.bd }) (fun _ _ => False) fun _ => True :=
  (tvDecBits_frame _ 0 s).bind fun _ _ h => h

theorem coefGet_frame (i : Fin 16) (tok : Token) (s : State) :
    (coefGet i tok s).Ends (fun _ t => s.DecodeFrame t) (fun e t => s.DecodeFrame t ∧ e = .invalidProbability)
      fun _ => True := by
  unfold coefGet
  have hm : (magnitudeGet tok s).Ends (fun _ t => t = { s with bd := t.bd })
      (fun e t => s.DecodeFrame t ∧ e = .invalidProbability) fun _ => True := by
    cases tok with
    | cat c => exact (tvDec_frame c s).mono (fun _ _ h => h) (fun _ _ h => h.elim) (fun _ h => h)
    | _ => exact rfl
  refine hm.bind fun mag t ht => ?_
  refine ((getQuery_frame _ t).mono (fun _ _ h => h) (fun _ _ h => h.elim) (fun _ h => h)).bind fun b u hu => ?_
  unfold State.DecodeFrame
  rw [hu, ht]
  rfl

theorem walkDec_frame (bt : BitVec 2) (l : List (Fin 16)) (ctx : Fin 3) (lastz : Bool) (s : State) :
    (walkDec bt l ctx lastz s).Ends (fun _ t => s.DecodeFrame t) (fun e t => s.DecodeFrame t ∧ e = .invalidProbability)
      fun _ => True := by
  induction l generalizing s ctx lastz with
  | nil => exact .refl s
  | cons i rest ih =>
    unfold walkDec
    have hsz : treeHeight (startNode lastz) ≤ 11 := by cases lastz <;> decide
    refine (treeWalk_frame _ s hsz).bind fun tok t ht => ?_
    have go : ∀ ctx lastz (u : State), s.DecodeFrame u →
        (walkDec bt rest ctx lastz u).Ends (fun _ t => s.DecodeFrame t)
          (fun e t => s.DecodeFrame t ∧ e = .invalidProbability) fun _ => True := fun ctx lastz u hu =>
      (ih ctx lastz u).mono (fun _ _ h => hu.trans h) (fun _ _ h => ⟨hu.trans h.1, h.2⟩) (fun _ h => h)
    have gets : ∀ tok : Token, ((coefGet i tok t).bind fun _ s => walkDec bt rest (contextAfter tok) false s).Ends
        (fun _ t => s.DecodeFrame t) (fun e t => s.DecodeFrame t ∧ e = .invalidProbability) fun _ => True := fun tok =>
      ((coefGet_frame i tok t).mono (fun _ _ h => ht.trans h) (fun _ _ h => ⟨ht.trans h.1, h.2⟩) (fun _ h => h)).bind
        fun _ u hu => go _ _ u hu
    cases tok with
    | eob => exact ht
    | zero => exact go _ _ t ht
    | one => exact gets .one
    | two => exact gets .two
    | three => exact gets .three
    | four => exact gets .four
    | cat c => exact gets (.cat c)

/-! ### Encoding -/

/-- Only the encoder and the branch counters differ. -/
def State.EncodeFrame (s t : State) : Prop := t = { s with be := t.be, brc := t.brc }

theorem State.EncodeFrame.refl (s : State) : s.EncodeFrame s := rfl

theorem State.EncodeFrame.trans {s t u : State} (h1 : s.EncodeFrame t) (h2 : t.EncodeFrame u) : s.EncodeFrame u := by
  unfold State.EncodeFrame at *
  rw [h1] at h2
  exact h2

theorem State.EncodeFrame.coefAt_eq {s t : State} (h : s.EncodeFrame t) (i : Fin 16) : coefAt t i = coefAt s i := by
  unfold coefAt State.c
  rw [h]

/-- Only a full buffer is raised by an operation on the encoder. -/
def Encoder.OnlyFull {α : Type} (r : Res Encoder α) : Prop :=
  r.Ends (fun _ _ => True) (fun e _ => e = .bufferBounds) fun _ => True

theorem Encoder.OnlyFull.bind {α β : Type} {r : Res Encoder α} {f : α → Encoder → Res Encoder β}
    (h : Encoder.OnlyFull r) (hf : ∀ a e, Encoder.OnlyFull (f a e)) : Encoder.OnlyFull (r.bind f) :=
  Res.Ends.bind h fun a e _ => hf a e

theorem Encoder.writeByte_onlyFull (size : Nat) (b : Byte) (e : Encoder) : Encoder.OnlyFull (e.writeByte size b) := by
  unfold Encoder.writeByte
  split_ifs
  · exact rfl
  · trivial

theorem Encoder.carryWhen_onlyFull (c : Bool) (e : Encoder) : Encoder.OnlyFull (Encoder.carryWhen c e) := by
  unfold Encoder.carryWhen Encoder.addOne
  split_ifs
  · split <;> trivial
  · trivial

theorem Encoder.put_onlyFull (size : Nat) (b : Bool) (p : Byte) (e : Encoder) : Encoder.OnlyFull (e.put size b p) := by
  have hr : ∀ (n : Nat) (e : Encoder), Encoder.OnlyFull (Encoder.renorm size n e) := by
    intro n
    induction n with
    | zero => intro e; trivial
    | succ n ih =>
      intro e
      unfold Encoder.renorm
      split
      · trivial
      · refine Encoder.OnlyFull.bind ?_ fun _ e => ih e
        refine (Encoder.carryWhen_onlyFull _ _).bind fun _ e => ?_
        dsimp only
        split
        · exact (Encoder.writeByte_onlyFull _ _ _).bind fun _ _ => trivial
        · trivial
  exact (hr _ _).bind fun _ _ => trivial

theorem Encoder.flush_onlyFull (size : Nat) (e : Encoder) : Encoder.OnlyFull (e.flush size) := by
  have hw : ∀ (n : Nat) (v : Word) (e : Encoder), Encoder.OnlyFull (Encoder.writeTop size n v e) := by
    intro n
    induction n with
    | zero => intro v e; trivial
    | succ n ih => exact fun v e => (Encoder.writeByte_onlyFull _ _ _).bind fun _ _ => ih _ _
  exact (Encoder.carryWhen_onlyFull _ _).bind fun _ _ => (hw _ _ _).bind fun _ _ => trivial

theorem putQuery_frame (b : Bool) (p : Byte) (s : State) :
    (putQuery b p s).Ends (fun _ t => t = { s with be := t.be }) (fun e t => t = { s with be := t.be } ∧ e = .bufferBounds)
      fun _ => True := by
  have h := Encoder.put_onlyFull s.obufSize b p s.be
  unfold putQuery
  cases hp : s.be.put s.obufSize b p with
  | ok u e => exact rfl
  | raise x e => rw [hp] at h; exact ⟨rfl, h⟩
  | stop f => trivial

/-- How a piece of an encoding walk may fail. -/
def State.EncodeFails (s : State) (e : Err) (t : State) : Prop :=
  s.EncodeFrame t ∧ (e = .bufferBounds ∨ e = .invalidProbability)

theorem putQuery_encodeFrame (b : Bool) (p : Byte) (s : State) :
    (putQuery b p s).Ends (fun _ t => s.EncodeFrame t) s.EncodeFails fun _ => True :=
  (putQuery_frame b p s).mono (fun _ _ h => by unfold State.EncodeFrame; rw [h])
    (fun _ _ h => ⟨by unfold State.EncodeFrame; rw [h.1], .inl h.2⟩) (fun _ h => h)

theorem Res.Ends.encodeFrame {α : Type} {s t : State} {r : Res State α} (ht : s.EncodeFrame t)
    (h : r.Ends (fun _ u => t.EncodeFrame u) t.EncodeFails fun _ => True) :
    r.Ends (fun _ u => s.EncodeFrame u) s.EncodeFails fun _ => True :=
  h.mono (fun _ _ hu => ht.trans hu) (fun _ _ hu => ⟨ht.trans hu.1, hu.2⟩) (fun _ h => h)

theorem treePutAll_frame (c : TreeCtx) (path : List (Fin 11 × Bool)) (s : State) :
    (treePutAll c path s).Ends (fun _ t => s.EncodeFrame t) s.EncodeFails fun _ => True := by
  induction path generalizing s with
  | nil => exact .refl s
  | cons a path ih =>
    obtain ⟨k, b⟩ := a
    unfold treePutAll
    have h1 : (treePut c k b s).Ends (fun _ t => s.EncodeFrame t) s.EncodeFails fun _ => True := by
      unfold treePut
      split_ifs
      · exact ⟨.refl s, .inr rfl⟩
      · exact (putQuery_encodeFrame _ _ s).bind fun _ t ht => ht.trans rfl
    exact h1.bind fun _ t ht => (ih t).encodeFrame ht

theorem tvEncBits_frame (ps : List Byte) (off : Nat) (s : State) :
    (tvEncBits ps off s).Ends (fun _ t => t = { s with be := t.be }) (fun e t => t = { s with be := t.be } ∧ e = .bufferBounds)
      fun _ => True := by
  induction ps generalizing s with
  | nil => exact rfl
  | cons p ps ih =>
    unfold tvEncBits
    refine (putQuery_frame _ p s).bind fun _ t ht => ?_
    exact (ih t).mono (fun _ u hu => by rw [hu, ht]) (fun _ u hu => ⟨by rw [hu.1, ht], hu.2⟩) (fun _ h => h)

theorem coefPut_frame {v : Int} (hv : v.natAbs ≤ 2114) (s : State) :
    (coefPut v s).Ends (fun _ t => s.EncodeFrame t) s.EncodeFails fun _ => True := by
  have h1 : (extraPut (tokenOf v.natAbs) v.natAbs s).Ends (fun _ t => s.EncodeFrame t) s.EncodeFails fun _ => True := by
    cases htok : tokenOf v.natAbs with
    | cat c =>
      obtain ⟨off, hoff⟩ := tokenOf_range hv htok
      show (tvEnc c v.natAbs s).Ends _ _ _
      unfold tvEnc
      rw [hoff]
      exact (tvEncBits_frame _ off s).mono (fun _ _ h => by unfold State.EncodeFrame; rw [h])
        (fun _ _ h => ⟨by unfold State.EncodeFrame; rw [h.1], .inl h.2⟩) (fun _ h => h)
    | _ => exact .refl s
  exact h1.bind fun _ t ht => (putQuery_encodeFrame _ _ t).encodeFrame ht

theorem walkEnc_frame (bt : BitVec 2) (nEnd : Nat) (l : List (Fin 16)) (ctx : Fin 3) (lastz : Bool) (s : State)
    (hb : ∀ i ∈ l, (coefAt s i).natAbs ≤ 2114) :
    (walkEnc bt nEnd l ctx lastz s).Ends (fun _ t => s.EncodeFrame t) s.EncodeFails fun _ => True := by
  induction l generalizing s ctx lastz with
  | nil => exact .refl s
  | cons i rest ih =>
    unfold walkEnc
    split_ifs
    · exact (treePutAll_frame _ _ s).bind fun _ t ht => ht
    · dsimp only
      refine (treePutAll_frame _ _ s).bind fun _ t ht => ?_
      have hbt : ∀ u, s.EncodeFrame u → ∀ j ∈ rest, (coefAt u j).natAbs ≤ 2114 := fun u hu j hj => by
        rw [hu.coefAt_eq]; exact hb j (by simp [hj])
      split_ifs
      · exact (ih _ _ t (hbt t ht)).encodeFrame ht
      · refine ((coefPut_frame (hb i (by simp)) t).encodeFrame ht).bind fun _ u hu => ?_
        exact (ih _ _ u (hbt u hu)).encodeFrame hu

end Sys2Proof.Machine
end

