-- ==== Sys2Proof/Laws/WalkDec.lean ====
section
/-! SUPPORT. Everything a decoding walk can do (43_token_walker.md R180, R181). -/

namespace Sys2Proof.Machine

/-- The positions from `n` on, one by one. -/
theorem positions_cons {n : Nat} {i : Fin 16} {rest : List (Fin 16)} (h : (List.finRange 16).drop n = i :: rest) :
    i.val = n ∧ rest = (List.finRange 16).drop (n + 1) := by
  have hn : n < 16 := by
    by_contra hx
    rw [List.drop_eq_nil_of_le (by simp; omega)] at h
    simp at h
  rw [List.drop_eq_getElem_cons (by simpa using hn)] at h
  obtain ⟨h1, h2⟩ := List.cons.inj h
  exact ⟨by rw [← h1]; simp, h2.symm⟩

theorem positions_nil {n : Nat} (hn : n ≤ 16) (h : (List.finRange 16).drop n = []) : n = 16 := by
  have := List.drop_eq_nil_iff.mp h
  simp at this
  omega

/-- What a walk from position `n`, with context `ctx` and flag `lastz`, leaves behind. -/
structure WalkDone (s : State) (n : Nat) (ctx : Fin 3) (lastz : Bool) (w : WalkResult) (t : State) : Prop where
  step : s.DecodeStep t
  pos_ge : n ≤ w.pos.toNat
  pos_le : w.pos.toNat ≤ 16
  outside : ∀ j : Fin 16, j.val < n ∨ w.pos.toNat ≤ j.val → t.c (tables.zigzag j) = s.c (tables.zigzag j)
  bound : ∀ j : Fin 16, n ≤ j.val → j.val < w.pos.toNat → (t.c (tables.zigzag j)).natAbs ≤ 2114
  eob : w.eob = true → w.pos.toNat < 16 ∧ (lastz = true → n < w.pos.toNat) ∧
    ∀ j : Fin 16, n ≤ j.val → j.val + 1 = w.pos.toNat → t.c (tables.zigzag j) ≠ 0
  whole : w.eob = false → w.pos.toNat = 16
  ctx_start : w.pos.toNat = n → w.ctx = BitVec.ofNat 2 ctx
  ctx_end : ∀ j : Fin 16, n ≤ j.val → j.val + 1 = w.pos.toNat →
    w.ctx = BitVec.ofNat 2 (contextOf (t.c (tables.zigzag j)).natAbs)
  queries : ∃ q, (n < 16 → 1 ≤ q) ∧ q ≤ 19 * (16 - n) ∧ t.bd.qcnt = s.bd.qcnt + BitVec.ofNat 32 q

/-- One position more in front of a finished walk. -/
theorem WalkDone.cons {s u t : State} {n : Nat} {i : Fin 16} {ctx : Fin 3} {lastz : Bool} {w : WalkResult} {v : Int}
    (hi : i.val = n) (hu : s.DecodeStep u) (hcoef : ∀ j : Fin 16, j ≠ i → u.c (tables.zigzag j) = s.c (tables.zigzag j))
    (hv : u.c (tables.zigzag i) = v) (hb : v.natAbs ≤ 2114)
    (hq : ∃ q, 1 ≤ q ∧ q ≤ 19 ∧ u.bd.qcnt = s.bd.qcnt + BitVec.ofNat 32 q)
    (hd : WalkDone u (n + 1) (contextOf v.natAbs) (v = 0) w t) : WalkDone s n ctx lastz w t := by
  have hge := hd.pos_ge
  have h16 := i.isLt
  have hti : t.c (tables.zigzag i) = v := by rw [hd.outside i (.inl (by omega)), hv]
  refine ⟨hu.trans hd.step, by omega, hd.pos_le, fun j hj => ?_, fun j h1 h2 => ?_, fun he => ?_, hd.whole, fun h => by omega,
    fun j h1 h2 => ?_, ?_⟩
  · rw [hd.outside j (by omega), hcoef j]
    rintro rfl
    omega
  · by_cases hji : j = i
    · rw [hji, hti]; exact hb
    · exact hd.bound j (by have : j.val ≠ i.val := fun h => hji (Fin.ext h); omega) h2
  · obtain ⟨h1, h2, h3⟩ := hd.eob he
    refine ⟨h1, fun _ => by omega, fun j h4 h5 => ?_⟩
    by_cases hji : j = i
    · subst hji
      rw [hti]
      intro h0
      have := h2 (by simp [h0])
      omega
    · exact h3 j (by have : j.val ≠ i.val := fun h => hji (Fin.ext h); omega) h5
  · by_cases hji : j = i
    · subst hji
      rw [hti]
      exact hd.ctx_start (by omega)
    · exact hd.ctx_end j (by have : j.val ≠ i.val := fun h => hji (Fin.ext h); omega) h2
  · obtain ⟨q, h1, h2, h3⟩ := hq
    obtain ⟨r, -, h4, h5⟩ := hd.queries
    refine ⟨q + r, fun _ => by omega, by omega, ?_⟩
    rw [h5, h3, BitVec.ofNat_add, BitVec.add_assoc]

theorem c_of_coef_eq {s t : State} (h : t.coef = s.coef) (k : Fin 16) : t.c k = s.c k := by unfold State.c; rw [h]

theorem c_of_coef_set {s t : State} {slot : Fin 16} {v : Int} (h : t.coef = s.coef.set slot (BitVec.ofInt 16 v))
    (k : Fin 16) : t.c k = (s.setC slot v).c k := by unfold State.c State.setC; rw [h]

theorem walkDec_ends {l : List (Fin 16)} {s : State} {n : Nat} {ctx : Fin 3} {lastz : Bool} {bt : BitVec 2}
    (h : s.DecodeOk) (hn : n ≤ 16) (hl : l = (List.finRange 16).drop n) (hz : ∀ j : Fin 16, n ≤ j.val → s.c (tables.zigzag j) = 0) :
    (walkDec bt l ctx lastz s).Ends (WalkDone s n ctx lastz) (s.Unloaded bt) s.Starved := by
  induction l generalizing s n ctx lastz with
  | nil =>
    have h16 := positions_nil hn hl.symm
    subst h16
    refine ⟨.refl h, ?_, ?_, fun _ _ => rfl, fun j h1 h2 => ?_, fun he => ?_, fun _ => rfl, fun _ => rfl, fun j h1 h2 => ?_,
      0, by omega, by omega, by simp⟩
    · show 16 ≤ (BitVec.ofNat 5 16).toNat
      decide
    · show (BitVec.ofNat 5 16).toNat ≤ 16
      decide
    · have := j.isLt; omega
    · exact absurd he (by simp [walkResult])
    · have := j.isLt; omega
  | cons i rest ih =>
    obtain ⟨hi, hrest⟩ := positions_cons hl.symm
    have hi16 := i.isLt
    unfold walkDec
    have hsz : treeHeight (startNode lastz) ≤ 7 := by cases lastz <;> decide
    refine (treeWalk_ends h (treeCtx bt i ctx) (n := 11) (by omega)).bind ?_
    rintro tok u ⟨hu, hcu, heob, q, hq1, hq2, hqu⟩
    have hcz : ∀ j, u.c j = s.c j := c_of_coef_eq hcu
    have hzero : ∀ j : Fin 16, n + 1 ≤ j.val → u.c (tables.zigzag j) = 0 := fun j hj => by
      rw [hcz]; exact hz j (by omega)
    have hgo : ∀ tok : Token, tok ≠ .eob → tok ≠ .zero → (((coefGet i tok u).bind fun _ s =>
        walkDec bt rest (contextAfter tok) false s).Ends (WalkDone s n ctx lastz) (s.Unloaded bt) s.Starved) := by
      intro tok h1 h0
      refine ((coefGet_ends hu.ok i tok h1).mono (fun _ _ h => h) (fun _ _ h => h.elim) (fun _ hf => hu.starved hf)).bind ?_
      rintro - x ⟨hx, v, hset, htok, hb, r, hr1, hr2, hqx⟩
      have hsx := hu.trans hx
      have hxc : ∀ j : Fin 16, j ≠ i → x.c (tables.zigzag j) = u.c (tables.zigzag j) := fun j hj => by
        rw [c_of_coef_set hset, State.c_setC, if_neg fun e => hj (zigzag_injective _ _ e)]
      have hxi : x.c (tables.zigzag i) = v := by rw [c_of_coef_set hset, State.c_setC_same _ hb]
      have hv0 : v ≠ 0 := fun hv => h0 (by rw [← htok, hv]; rfl)
      refine ((ih (n := n + 1) (ctx := contextAfter tok) (lastz := false) hx.ok (by omega) hrest fun j hj => by
        rw [hxc j (by rintro rfl; omega)]; exact hzero j hj).decode hsx).mono ?_ (fun _ _ h => h) (fun _ h => h)
      intro w t hd
      rw [← htok, contextAfter_tokenOf] at hd
      refine WalkDone.cons (v := v) hi hsx (fun j hj => by rw [hxc j hj, hcz]) hxi hb ⟨q + r, by omega, by omega, ?_⟩ ?_
      · rw [hqx, hqu, BitVec.ofNat_add, BitVec.add_assoc]
      · simpa [hv0] using hd
    have hp5 : (BitVec.ofNat 5 i.val).toNat = n := by rw [BitVec.toNat_ofNat]; omega
    cases tok with
    | eob =>
      have hl0 : lastz = false := by
        have := heob rfl
        cases lastz
        · rfl
        · exact absurd this (by decide)
      refine ⟨hu, ?_, ?_, fun j _ => hcz _, fun j h1 h2 => ?_, fun _ => ⟨?_, fun hl => by simp [hl0] at hl, fun j h1 h2 => ?_⟩,
        fun he => ?_, fun _ => rfl, fun j h1 h2 => ?_, q, fun _ => hq1, by omega, hqu⟩
      · simp only [walkResult, hp5]; exact le_rfl
      · simp only [walkResult, hp5]; omega
      · simp only [walkResult, hp5] at h2; omega
      · simp only [walkResult, hp5]; omega
      · simp only [walkResult, hp5] at h2; omega
      · simp [walkResult] at he
      · simp only [walkResult, hp5] at h2; omega
    | zero =>
      refine ((ih (n := n + 1) (ctx := 0) (lastz := true) hu.ok (by omega) hrest hzero).decode hu).mono ?_
        (fun _ _ h => h) (fun _ h => h)
      intro w t hd
      refine WalkDone.cons (v := 0) hi hu (fun j _ => hcz _) (by rw [hcz]; exact hz i (by omega)) (by decide)
        ⟨q, hq1, by omega, hqu⟩ ?_
      exact hd
    | one => exact hgo .one (by decide) (by decide)
    | two => exact hgo .two (by decide) (by decide)
    | three => exact hgo .three (by decide) (by decide)
    | four => exact hgo .four (by decide) (by decide)
    | cat c => exact hgo (.cat c) (by simp) (by simp)

theorem clearCoefs_decodeStep {s : State} (h : s.DecodeOk) : s.DecodeStep s.clearCoefs :=
  ⟨rfl, rfl, rfl, rfl, ⟨h.range, h.pos, h.brc_wf, h.brc_within⟩, id⟩

/-- The whole walk of `TW.DEC`, from the cleared registers. -/
theorem walkDec_command {s : State} (h : s.DecodeOk) (o : WalkOperands) :
    (walkDec o.bt (codedPositions o) (initialContext o) false s.clearCoefs).Ends
      (WalkDone s.clearCoefs (firstPosition o) (initialContext o) false) (s.Unloaded o.bt) s.Starved := by
  have hc := clearCoefs_decodeStep h
  exact (walkDec_ends hc.ok (by unfold firstPosition; split_ifs <;> omega) rfl fun _ _ => State.c_clearCoefs _ _).decode hc

end Sys2Proof.Machine
end

