-- ==== Sys2Proof/Laws/WalkEnc.lean ====
section
/-! SUPPORT. Everything an encoding walk can do (43_token_walker.md R190). -/

namespace Sys2Proof.Machine

theorem pathOf_length (tok : Token) : (pathOf tok).length ≤ 6 := by
  cases tok with
  | cat c => cases c <;> decide
  | _ => decide

theorem positionPath_length (lastz : Bool) (tok : Token) : (positionPath lastz tok).length ≤ 7 := by
  have := pathOf_length tok
  unfold positionPath
  split_ifs
  · omega
  · simp only [List.length_cons]; omega

theorem State.EncodeStep.coefAt_eq {n : Nat} {s t : State} (h : State.EncodeStep n s t) (i : Fin 16) :
    coefAt t i = coefAt s i := by
  unfold coefAt
  exact c_of_coef_eq h.coef _

/-- Where a walk from position `n` with context `ctx` ends: at `nEnd`, with the context of the position before. -/
structure WalkCoded (s : State) (n nEnd : Nat) (ctx : Fin 3) (w : WalkResult) : Prop where
  pos : w.pos.toNat = nEnd
  eob : w.eob = decide (nEnd < 16)
  ctx_start : nEnd = n → w.ctx = BitVec.ofNat 2 ctx
  ctx_end : ∀ j : Fin 16, n ≤ j.val → j.val + 1 = nEnd → w.ctx = BitVec.ofNat 2 (contextOf (coefAt s j).natAbs)

theorem WalkCoded.cons {s t : State} {n nEnd : Nat} {i : Fin 16} {ctx : Fin 3} {w : WalkResult} (hi : i.val = n)
    (hlt : n < nEnd) (hc : ∀ j, coefAt t j = coefAt s j)
    (h : WalkCoded t (n + 1) nEnd (contextOf (coefAt s i).natAbs) w) : WalkCoded s n nEnd ctx w := by
  refine ⟨h.pos, h.eob, fun h1 => by omega, fun j h1 h2 => ?_⟩
  by_cases hji : j = i
  · subst hji
    exact h.ctx_start (by omega)
  · rw [h.ctx_end j (by have : j.val ≠ i.val := fun h => hji (Fin.ext h); omega) h2, hc]

theorem walkEnc_ends {l : List (Fin 16)} {s : State} {n nEnd : Nat} {ctx : Fin 3} {lastz : Bool} {bt : BitVec 2}
    (h : s.EncodeOk) (hn : n ≤ nEnd) (hend : nEnd ≤ 16) (hl : l = (List.finRange 16).drop n)
    (hz : lastz = true → n < nEnd) (hnz : ∀ j : Fin 16, n ≤ j.val → j.val + 1 = nEnd → coefAt s j ≠ 0)
    (hb : ∀ j : Fin 16, n ≤ j.val → (coefAt s j).natAbs ≤ 2114) :
    (walkEnc bt nEnd l ctx lastz s).Ends (fun w t => State.EncodeStep (19 * (16 - n)) s t ∧ WalkCoded s n nEnd ctx w)
      (s.Jammed bt (19 * (16 - n))) fun _ => False := by
  induction l generalizing s n ctx lastz with
  | nil =>
    have h16 := positions_nil (hn.trans hend) hl.symm
    subst h16
    obtain rfl : nEnd = 16 := by omega
    refine ⟨(State.EncodeStep.refl h).mono (by omega), ?_, rfl, fun _ => rfl, fun j h1 h2 => ?_⟩
    · show (BitVec.ofNat 5 16).toNat = 16
      decide
    · have := j.isLt; omega
  | cons i rest ih =>
    obtain ⟨hi, hrest⟩ := positions_cons hl.symm
    have hi16 := i.isLt
    unfold walkEnc
    split_ifs with heob
    · simp only [Bool.and_eq_true, Bool.not_eq_true', decide_eq_true_eq] at heob
      obtain rfl : nEnd = n := by omega
      refine ((treePutAll_ends h (treeCtx bt i ctx) (pathOf .eob)).encode (k := 19 * (16 - nEnd)) (.refl h)
        (by simp [pathOf]; omega)).bind ?_
      rintro - t ⟨ht, -⟩
      refine ⟨ht.mono (by simp [pathOf]; omega), ?_, ?_, fun _ => rfl, fun j h1 h2 => by omega⟩
      · show (BitVec.ofNat 5 i.val).toNat = nEnd
        rw [BitVec.toNat_ofNat]; omega
      · show true = _
        rw [decide_eq_true (by omega)]
    · have hlt : n < nEnd := by
        by_contra hx
        cases lastz
        · simp at heob; omega
        · exact hx (hz rfl)
      dsimp only
      have hpl := positionPath_length lastz (tokenOf (coefAt s i).natAbs)
      refine ((treePutAll_ends h (treeCtx bt i ctx) _).encode (k := 19 * (16 - n)) (.refl h) (by omega)).bind ?_
      rintro - t ⟨ht, -⟩
      have ht7 := ht.mono hpl
      have hct := ht.coefAt_eq
      split_ifs with hv
      · refine ((ih (n := n + 1) (ctx := 0) (lastz := true) ht.ok hlt hrest (fun _ => ?_) ?_ ?_).encode ht7
          (by omega)).mono ?_ (fun _ _ h => h) (fun _ h => h)
        · by_contra hx
          exact hnz i (by omega) (by omega) hv
        · intro j h1 h2; rw [hct]; exact hnz j (by omega) h2
        · intro j h1; rw [hct]; exact hb j (by omega)
        · rintro w u ⟨hu, hw⟩
          refine ⟨(ht7.trans hu).mono (by omega), WalkCoded.cons hi hlt hct ?_⟩
          rw [hv]; exact hw
      · refine ((coefPut_ends ht.ok bt (hb i (by omega))).encode (k := 19 * (16 - n)) ht7 (by omega)).bind ?_
        rintro - u ⟨hu, -⟩
        have hcu : ∀ j, coefAt u j = coefAt s j := fun j => (hu.coefAt_eq j).trans (hct j)
        have htu := ht7.trans hu
        refine ((ih (n := n + 1) (ctx := contextAfter (tokenOf (coefAt s i).natAbs)) (lastz := false) hu.ok hlt hrest
          (fun h => by simp at h) ?_ ?_).encode htu (by omega)).mono ?_ (fun _ _ h => h) (fun _ h => h)
        · intro j h1 h2; rw [hcu]; exact hnz j (by omega) h2
        · intro j h1; rw [hcu]; exact hb j (by omega)
        · rintro w x ⟨hx, hw⟩
          refine ⟨(htu.trans hx).mono (by omega), WalkCoded.cons hi hlt hcu ?_⟩
          rw [← contextAfter_tokenOf]; exact hw

/-! ### The end position -/

theorem foldl_end (s : State) (l : List (Fin 16)) (a : Nat) :
    let e := l.foldl (fun n i => if coefAt s i ≠ 0 then i.val + 1 else n) a
    e = a ∧ (∀ j ∈ l, coefAt s j = 0) ∨ ∃ j ∈ l, e = j.val + 1 ∧ coefAt s j ≠ 0 := by
  induction l generalizing a with
  | nil => exact .inl ⟨rfl, by simp⟩
  | cons i l ih =>
    simp only [List.foldl_cons]
    rcases ih (if coefAt s i ≠ 0 then i.val + 1 else a) with ⟨h1, h2⟩ | ⟨j, hj, h⟩
    · by_cases hi : coefAt s i = 0
      · exact .inl ⟨by rw [h1]; simp [hi], by simpa [hi] using h2⟩
      · exact .inr ⟨i, by simp, by rw [h1]; simp [hi], hi⟩
    · exact .inr ⟨j, by simp [hj], h⟩

theorem mem_codedPositions (o : WalkOperands) (j : Fin 16) : j ∈ codedPositions o ↔ firstPosition o ≤ j.val := by
  unfold codedPositions firstPosition
  cases o.skipdc
  · simp
  · revert j; decide

theorem firstPosition_le (o : WalkOperands) : firstPosition o ≤ 1 := by unfold firstPosition; split_ifs <;> omega

/-- `n_end` of R190: the first position when the coded block is all zero, else one past a nonzero coded position. -/
theorem endPosition_cases (s : State) (o : WalkOperands) :
    endPosition s o = firstPosition o ∧ (∀ j : Fin 16, firstPosition o ≤ j.val → coefAt s j = 0) ∨
      ∃ j : Fin 16, firstPosition o ≤ j.val ∧ endPosition s o = j.val + 1 ∧ coefAt s j ≠ 0 := by
  rcases foldl_end s (codedPositions o) (firstPosition o) with ⟨h1, h2⟩ | ⟨j, hj, h⟩
  · exact .inl ⟨h1, fun j hj => h2 j ((mem_codedPositions o j).mpr hj)⟩
  · exact .inr ⟨j, (mem_codedPositions o j).mp hj, h⟩

/-- A position at which the fold is passed by is 0. -/
theorem foldl_end_last (s : State) (l : List (Fin 16)) (hs : l.Pairwise (· < ·)) (a : Nat) (j : Fin 16) (hj : j ∈ l)
    (h : l.foldl (fun n i => if coefAt s i ≠ 0 then i.val + 1 else n) a ≤ j.val) : coefAt s j = 0 := by
  induction l generalizing a with
  | nil => simp at hj
  | cons i l ih =>
    rw [List.pairwise_cons] at hs
    rw [List.foldl_cons] at h
    rcases List.mem_cons.mp hj with rfl | hj
    · by_contra h0
      rw [if_pos h0] at h
      rcases foldl_end s l (j.val + 1) with ⟨h1, -⟩ | ⟨k, hk, h1, -⟩
      · omega
      · have := hs.1 k hk
        have : j.val < k.val := this
        omega
    · exact ih hs.2 _ hj h

/-- Nothing nonzero is left from `n_end` on (R190). -/
theorem endPosition_last (s : State) (o : WalkOperands) (j : Fin 16) (h : endPosition s o ≤ j.val)
    (hf : firstPosition o ≤ j.val) : coefAt s j = 0 := by
  refine foldl_end_last s (codedPositions o) ?_ _ j ((mem_codedPositions o j).mpr hf) h
  exact List.Pairwise.sublist (List.drop_sublist _ _) (by decide)

theorem allCodable_iff (s : State) (o : WalkOperands) :
    allCodable s o = true ↔ ∀ j : Fin 16, firstPosition o ≤ j.val → (coefAt s j).natAbs ≤ 2114 := by
  unfold allCodable
  simp only [List.all_eq_true, decide_eq_true_eq, mem_codedPositions]
  exact Iff.rfl

/-- The whole walk of `TW.ENC` on a codable block. -/
theorem walkEnc_command {s : State} (h : s.EncodeOk) (o : WalkOperands) (hc : allCodable s o = true) :
    (walkEnc o.bt (endPosition s o) (codedPositions o) (initialContext o) false s).Ends
      (fun w t => State.EncodeStep 304 s t ∧ WalkCoded s (firstPosition o) (endPosition s o) (initialContext o) w)
      (s.Jammed o.bt 304) fun _ => False := by
  have hf := firstPosition_le o
  have hends : firstPosition o ≤ endPosition s o ∧ endPosition s o ≤ 16 ∧
      ∀ j : Fin 16, firstPosition o ≤ j.val → j.val + 1 = endPosition s o → coefAt s j ≠ 0 := by
    rcases endPosition_cases s o with ⟨h1, -⟩ | ⟨j, h1, h2, h3⟩
    · rw [h1]; exact ⟨le_rfl, by omega, fun j h2 h3 => by omega⟩
    · have := j.isLt
      refine ⟨by omega, by omega, fun k _ hk => ?_⟩
      obtain rfl : k = j := Fin.ext (by omega)
      exact h3
  refine ((walkEnc_ends h hends.1 hends.2.1 rfl (by simp) hends.2.2 ((allCodable_iff s o).mp hc)).encode
    (k := 304) (.refl h) (by omega)).mono ?_ (fun _ _ h => h) (fun _ h => h)
  rintro w t ⟨h1, h2⟩
  exact ⟨h1.mono (by omega), h2⟩

end Sys2Proof.Machine
end

