-- ==== Sys2Proof/Laws/Commands.lean ====
section
/-! SUPPORT. Everything a command can do, said once: what it writes when it completes, which errors it raises before
execution and why, which during execution (30_encoding.md R103, 60_exceptions.md R261 to R271). -/

namespace Sys2Proof.Machine

/-- What a command that completes may write (10_state.md R22 to R49). -/
def Written (i : Instr) (s t : State) : Prop :=
  match i with
  | .nop => t = s
  | .bdInit => t = { s with bd := t.bd }
  | .bdGet _ => t = { s with bd := t.bd, bitr := t.bitr }
  | .bdGetu => t = { s with bd := t.bd, bitr := t.bitr }
  | .beInit => t = { s with be := t.be }
  | .bePut _ _ => t = { s with be := t.be }
  | .bePutu _ => t = { s with be := t.be }
  | .beFlush => t = { s with be := t.be }
  | .tvDec _ => t = { s with bd := t.bd, val := t.val }
  | .tvEnc _ => t = { s with be := t.be }
  | .twDec _ => t = { s with coef := t.coef, bd := t.bd, brc := t.brc, tw := t.tw }
  | .twEnc _ => t = { s with be := t.be, brc := t.brc, tw := t.tw }
  | .brcClr => t = { s with brc := t.brc }
  | .qzQuant _ => t = { s with coef := t.coef }
  | .qzDequant _ => t = { s with coef := t.coef }
  | .qzTakedc => t = { s with coef := t.coef, dcr := t.dcr }

/-- The errors found before execution, with their causes (R103 steps 3 to 5). -/
def EarlyError (i : Instr) (s : State) (e : Err) : Prop :=
  match i with
  | .nop => False
  | .bdInit => e = .bufferBounds ∧ s.ibufSize < s.bdBase.toNat + s.bdLen.toNat
  | .bdGet p => e = .sequenceError ∧ s.bd.active = false ∨ e = .invalidProbability ∧ p = 0
  | .bdGetu => e = .sequenceError ∧ s.bd.active = false
  | .beInit => False
  | .bePut _ p => e = .sequenceError ∧ s.be.active = false ∨ e = .invalidProbability ∧ p = 0
  | .bePutu _ => e = .sequenceError ∧ s.be.active = false
  | .beFlush => e = .sequenceError ∧ s.be.active = false
  | .tvDec cat => e = .unsupportedMode ∧ categoryOf cat = none ∨ e = .sequenceError ∧ s.bd.active = false
  | .tvEnc cat =>
    e = .unsupportedMode ∧ categoryOf cat = none ∨ e = .sequenceError ∧ s.be.active = false ∨ e = .rangeViolation
  | .twDec _ => e = .sequenceError ∧ s.bd.active = false
  | .twEnc o => e = .sequenceError ∧ s.be.active = false ∨ e = .rangeViolation ∧ allCodable s o = false
  | .brcClr => False
  | .qzQuant cls => e = .unsupportedMode ∧ stepsOf s.qstep cls = none ∨ e = .divideByZero
  | .qzDequant cls => e = .unsupportedMode ∧ stepsOf s.qstep cls = none ∨ e = .rangeViolation
  | .qzTakedc => False

/-- The errors raised during execution (R103 step 6). -/
def LateError (i : Instr) (e : Err) : Prop :=
  match i with
  | .bePut _ _ => e = .bufferBounds
  | .bePutu _ => e = .bufferBounds
  | .beFlush => e = .bufferBounds
  | .tvEnc _ => e = .bufferBounds
  | .twDec _ => e = .invalidProbability
  | .twEnc _ => e = .bufferBounds ∨ e = .invalidProbability
  | .nop => False
  | .bdInit => False
  | .bdGet _ => False
  | .bdGetu => False
  | .beInit => False
  | .tvDec _ => False
  | .brcClr => False
  | .qzQuant _ => False
  | .qzDequant _ => False
  | .qzTakedc => False

/-- How a command can end with a next state. -/
def Ended (i : Instr) (s t : State) : Prop :=
  Written i s t ∨ (∃ e, EarlyError i s e ∧ t = s.haltEntry e) ∨
    ∃ e u, LateError i e ∧ Written i s u ∧ t = { u.haltEntry e with midHalt := true }

theorem ended_finish {i : Instr} {s t : State} {r : Res State Unit} {F : Fault → Prop}
    (hr : r.Ends (fun _ u => Written i s u) (fun e u => Written i s u ∧ LateError i e) F) (h : finish r = .next t) :
    Ended i s t := by
  rcases finish_eq_next.mp h with rfl | ⟨e, u, rfl, rfl⟩
  · exact .inl hr
  · exact .inr (.inr ⟨e, u, hr.2, hr.1, rfl⟩)

theorem ended_reject {i : Instr} {s t : State} {e : Err} (he : EarlyError i s e) (h : reject e s = .next t) :
    Ended i s t := by
  cases h
  exact .inr (.inl ⟨e, he, rfl⟩)

theorem whenDecoding_eq_next {s t : State} {k : Host.Outcome State Fault Refusal} (h : whenDecoding s k = .next t) :
    s.bd.active = true ∧ k = .next t ∨ s.bd.active = false ∧ t = s.haltEntry .sequenceError := by
  unfold whenDecoding at h
  split_ifs at h with ha
  · exact .inl ⟨ha, h⟩
  · cases h; exact .inr ⟨by simpa using ha, rfl⟩

theorem whenEncoding_eq_next {s t : State} {k : Host.Outcome State Fault Refusal} (h : whenEncoding s k = .next t) :
    s.be.active = true ∧ k = .next t ∨ s.be.active = false ∧ t = s.haltEntry .sequenceError := by
  unfold whenEncoding at h
  split_ifs at h with ha
  · exact .inl ⟨ha, h⟩
  · cases h; exact .inr ⟨by simpa using ha, rfl⟩

theorem getToBitr_frame (p : Byte) (s : State) :
    (getToBitr p s).Ends (fun _ t => t = { s with bd := t.bd, bitr := t.bitr }) (fun _ _ => False) fun _ => True :=
  (getQuery_frame p s).bind fun b t ht => by
    show _ = _
    rw [ht]

theorem openPartition_frame (i : Memory 8) (base len : Word) (d : Decoder) :
    (d.openPartition i base len).Ends (fun _ _ => True) (fun _ _ => False) fun _ => True := by
  have hn : ∀ d : Decoder, (d.nextByte i).Ends (fun _ _ => True) (fun _ _ => False) fun _ => True := by
    intro d
    unfold Decoder.nextByte
    split
    · split <;> trivial
    · trivial
  exact (hn _).bind fun _ _ _ => (hn _).bind fun _ _ _ => trivial

/-- An operation on the encoder alone, put back into the state. -/
theorem Encoder.OnlyFull.written {s : State} {r : Res Encoder Unit} (h : Encoder.OnlyFull r) :
    (r.into fun e => { s with be := e }).Ends (fun _ t => t = { s with be := t.be })
      (fun e t => t = { s with be := t.be } ∧ e = .bufferBounds) fun _ => True := by
  cases r with
  | ok a e => exact rfl
  | raise x e => exact ⟨rfl, h⟩
  | stop f => trivial

/-- Everything a command can do when it ends with a next state. -/
theorem exec_ended {i : Instr} {s t : State} (h : exec i s = .next t) : Ended i s t := by
  cases i with
  | nop => cases h; exact .inl rfl
  | bdInit =>
    simp only [exec, execBdInit, partitionFits, decide_eq_true_eq] at h
    split_ifs at h with hf
    · have hr := openPartition_frame s.ibuf s.bdBase s.bdLen s.bd
      cases ho : s.bd.openPartition s.ibuf s.bdBase s.bdLen with
      | ok a d => rw [ho] at h; cases h; exact .inl rfl
      | raise e d => rw [ho] at hr; exact hr.elim
      | stop f => rw [ho] at h; cases h
    · exact ended_reject (show EarlyError .bdInit s _ from ⟨rfl, by omega⟩) h
  | bdGet p =>
    rcases whenDecoding_eq_next h with ⟨-, h⟩ | ⟨ha, rfl⟩
    · split_ifs at h with hp
      · exact ended_reject (show EarlyError (.bdGet p) s _ from .inr ⟨rfl, hp⟩) h
      · exact ended_finish ((getToBitr_frame p s).mono (fun _ _ h => h) (fun _ _ h => h.elim) (fun _ h => h)) h
    · exact .inr (.inl ⟨_, .inl ⟨rfl, ha⟩, rfl⟩)
  | bdGetu =>
    rcases whenDecoding_eq_next h with ⟨-, h⟩ | ⟨ha, rfl⟩
    · exact ended_finish ((getToBitr_frame _ s).mono (fun _ _ h => h) (fun _ _ h => h.elim) (fun _ h => h)) h
    · exact .inr (.inl ⟨_, ⟨rfl, ha⟩, rfl⟩)
  | beInit => cases h; exact .inl rfl
  | bePut b p =>
    rcases whenEncoding_eq_next h with ⟨-, h⟩ | ⟨ha, rfl⟩
    · split_ifs at h with hp
      · exact ended_reject (show EarlyError (.bePut b p) s _ from .inr ⟨rfl, hp⟩) h
      · exact ended_finish (putQuery_frame b p s) h
    · exact .inr (.inl ⟨_, .inl ⟨rfl, ha⟩, rfl⟩)
  | bePutu b =>
    rcases whenEncoding_eq_next h with ⟨-, h⟩ | ⟨ha, rfl⟩
    · exact ended_finish (putQuery_frame b _ s) h
    · exact .inr (.inl ⟨_, ⟨rfl, ha⟩, rfl⟩)
  | beFlush =>
    rcases whenEncoding_eq_next h with ⟨-, h⟩ | ⟨ha, rfl⟩
    · exact ended_finish (Encoder.flush_onlyFull s.obufSize s.be).written h
    · exact .inr (.inl ⟨_, ⟨rfl, ha⟩, rfl⟩)
  | tvDec cat =>
    simp only [exec, execTvDec] at h
    split at h
    · next hc => exact ended_reject (show EarlyError (.tvDec cat) s _ from .inl ⟨rfl, hc⟩) h
    · next c hc =>
      rcases whenDecoding_eq_next h with ⟨-, h⟩ | ⟨ha, rfl⟩
      · refine ended_finish (F := fun _ => True) (((tvDec_frame c s).mono (fun _ _ h => h) (fun _ _ h => h.elim)
          (fun _ h => h)).bind fun v u hu => ?_) h
        show _ = _
        rw [hu]
      · exact .inr (.inl ⟨_, .inr ⟨rfl, ha⟩, rfl⟩)
  | tvEnc cat =>
    simp only [exec, execTvEnc] at h
    split at h
    · next hc => exact ended_reject (show EarlyError (.tvEnc cat) s _ from .inl ⟨rfl, hc⟩) h
    · next c hc =>
      rcases whenEncoding_eq_next h with ⟨-, h⟩ | ⟨ha, rfl⟩
      · split_ifs at h with ho
        · exact ended_reject (show EarlyError (.tvEnc cat) s _ from .inr (.inr rfl)) h
        · obtain ⟨off, hoff⟩ := Option.isSome_iff_exists.mp (Option.isSome_iff_ne_none.mpr (mt Option.isNone_iff_eq_none.mpr ho))
          unfold tvEnc at h
          rw [hoff] at h
          exact ended_finish (tvEncBits_frame _ off s) h
      · exact .inr (.inl ⟨_, .inr (.inl ⟨rfl, ha⟩), rfl⟩)
  | twDec o =>
    rcases whenDecoding_eq_next h with ⟨-, h⟩ | ⟨ha, rfl⟩
    · refine ended_finish (F := fun _ => True) (((walkDec_frame o.bt _ _ _ s.clearCoefs).mono (fun _ _ h => h)
        (fun e u hu => ⟨?_, hu.2⟩) (fun _ h => h)).bind fun w u hu => ?_) h
      · show _ = _
        rw [hu]; rfl
      · show _ = _
        rw [hu.1]; rfl
    · exact .inr (.inl ⟨_, ⟨rfl, ha⟩, rfl⟩)
  | twEnc o =>
    rcases whenEncoding_eq_next h with ⟨-, h⟩ | ⟨ha, rfl⟩
    · split_ifs at h with hc
      · have hb : ∀ i ∈ codedPositions o, (coefAt s i).natAbs ≤ 2114 := fun i hi =>
          (allCodable_iff s o).mp hc i ((mem_codedPositions o i).mp hi)
        refine ended_finish (F := fun _ => True) (((walkEnc_frame o.bt _ _ _ _ s hb).mono (fun _ _ h => h)
          (fun e u hu => ⟨?_, hu.2⟩) (fun _ h => h)).bind fun w u hu => ?_) h
        · show _ = _
          rw [hu]
        · show _ = _
          rw [hu.1]
      · exact ended_reject (show EarlyError (.twEnc o) s _ from .inr ⟨rfl, by simpa using hc⟩) h
    · exact .inr (.inl ⟨_, .inl ⟨rfl, ha⟩, rfl⟩)
  | brcClr => cases h; exact .inl rfl
  | qzQuant cls =>
    simp only [exec, execQzQuant] at h
    split at h
    · next hc => exact ended_reject (show EarlyError (.qzQuant cls) s _ from .inl ⟨rfl, hc⟩) h
    · split_ifs at h with hz
      · exact ended_reject (show EarlyError (.qzQuant cls) s _ from .inr rfl) h
      · cases h; exact .inl rfl
  | qzDequant cls =>
    simp only [exec, execQzDequant] at h
    split at h
    · next hc => exact ended_reject (show EarlyError (.qzDequant cls) s _ from .inl ⟨rfl, hc⟩) h
    · split_ifs at h with hz
      · cases h; exact .inl rfl
      · exact ended_reject (show EarlyError (.qzDequant cls) s _ from .inr rfl) h
  | qzTakedc => cases h; exact .inl rfl

/-- No command refuses (every arm has its meaning). -/
theorem exec_ne_refused (i : Instr) (s : State) (r : Refusal) : exec i s ≠ .refused r := by
  have hf : ∀ x : Res State Unit, finish x ≠ .refused r := fun _ => finish_ne_refused
  cases i <;> simp only [exec, execNop, execBdInit, execBdGet, execBdGetu, execBeInit, execBePut, execBePutu, execBeFlush,
    execTvDec, execTvEnc, execTwDec, execTwEnc, execBrcClr, execQzQuant, execQzDequant, execQzTakedc, whenDecoding,
    whenEncoding, reject] <;> (repeat' split) <;> first | exact hf _ | simp

end Sys2Proof.Machine
end

