-- ==== Sys2Proof/Laws/Step.lean ====
section
/-! SUPPORT. Everything one step can do, by transaction (45_system.md R246 to R250). -/

namespace Sys2Proof.Machine

theorem halted_iff (s : State) : s.halted = true ↔ s.err ≠ 0 := by simp [State.halted]

theorem halted_of_err {s : State} (h : s.err ≠ 0) : s.halted = true := (halted_iff s).mpr h

theorem running_of_err {s : State} (h : s.err = 0) : s.halted = false := by simp [State.halted, h]

theorem hostRead_running {s : State} (h : s.err = 0) (e : Element s.sizes) : hostRead s e = elementValue s e := by
  unfold hostRead
  rw [running_of_err h]
  rfl

theorem hostRead_halted {s : State} (h : s.err ≠ 0) (e : Element s.sizes) :
    hostRead s e = if readableHalted e then elementValue s e else Config.haltedRead s.sizes s.tick e := by
  unfold hostRead
  rw [halted_of_err h]
  cases readableHalted e <;> rfl

/-! The registers that stay readable while the block is halted. -/

theorem elementValue_status (s : State) : elementValue s (.csr 0) = s.status := rfl
theorem elementValue_err (s : State) : elementValue s (.csr 1) = s.err.zeroExtend 32 := rfl
theorem elementValue_errInfo (s : State) : elementValue s (.csr 2) = s.errInfo := rfl
theorem elementValue_cseq (s : State) : elementValue s (.csr 3) = s.cseq := rfl

/-- A read sees neither the host's list nor the last reply. -/
theorem hostRead_host (s : State) (l : List (HostTx s.sizes)) (r : Option Word) (e : Element s.sizes) :
    hostRead { s.withHost l with reply := r } e = hostRead s e := by cases e <;> rfl

/-- One step by the transaction it performs (R250). -/
theorem step_cons {s : State} {t : HostTx s.sizes} {rest : List (HostTx s.sizes)} (h : s.host = t :: rest) :
    step s = transact (s.taken t rest) t := by
  unfold step
  rw [h]

theorem step_nil {s : State} (h : s.host = []) : step s = .next s := by
  unfold step
  rw [h]

theorem step_reset {s : State} {rest : List (HostTx s.sizes)} (h : s.host = .reset :: rest) :
    step s = .next { State.reset with
      port := s.port.withPending rest, tick := s.tick + 1, resets := s.resets + 1 } := step_cons h

theorem step_read {s : State} {e : Element s.sizes} {rest : List (HostTx s.sizes)} (h : s.host = .read e :: rest) :
    step s = .next { s.withHost rest with reply := some (hostRead s e) } := by
  rw [step_cons h, ← hostRead_host s rest none e]
  rfl

theorem step_write {s : State} {e : Element s.sizes} {v : Word} {rest : List (HostTx s.sizes)}
    (h : s.host = .write e v :: rest) :
    step s = .next (hostWrite { s.withHost rest with reply := none, tick := s.tick + 1 } e v) := step_cons h

theorem step_cmd {s : State} {w : Word} {rest : List (HostTx s.sizes)} (h : s.host = .cmd w :: rest) :
    step s = present w { s.withHost rest with reply := none, tick := s.tick + 1 } := step_cons h

theorem hostWrite_halted {s : State} (h : s.err ≠ 0) (e : Element s.sizes) (v : Word) : hostWrite s e v = s := by
  unfold hostWrite; rw [if_pos (halted_of_err h)]

theorem hostWrite_running {s : State} (h : s.err = 0) (e : Element s.sizes) (v : Word) : hostWrite s e v = elementWrite s e v := by
  unfold hostWrite; rw [if_neg (by simp [running_of_err h])]

/-- What a host write may change. -/
theorem elementWrite_frame (s : State) (e : Element s.sizes) (v : Word) :
    elementWrite s e v = { s with
      coef := (elementWrite s e v).coef, val := (elementWrite s e v).val, bdBase := (elementWrite s e v).bdBase
      bdLen := (elementWrite s e v).bdLen, qstep := (elementWrite s e v).qstep, prob := (elementWrite s e v).prob
      ibuf := (elementWrite s e v).ibuf } := by
  cases e with
  | csr n => unfold elementWrite csrWrite; dsimp only; split <;> rfl
  | _ => rfl

theorem step_write_halted {s : State} {e : Element s.sizes} {v : Word} {rest : List (HostTx s.sizes)} (he : s.err ≠ 0)
    (h : s.host = .write e v :: rest) : step s = .next { s.withHost rest with reply := none, tick := s.tick + 1 } :=
  (step_write h).trans
    (congrArg _ (hostWrite_halted (s := { s.withHost rest with reply := none, tick := s.tick + 1 }) he e v))

/-- A host write to a running block: what it changes does not depend on the host's list. -/
theorem step_write_running {s : State} {e : Element s.sizes} {v : Word} {rest : List (HostTx s.sizes)} (he : s.err = 0)
    (h : s.host = .write e v :: rest) :
    step s = .next { s.withHost rest with
      coef := (elementWrite s e v).coef, val := (elementWrite s e v).val, bdBase := (elementWrite s e v).bdBase
      bdLen := (elementWrite s e v).bdLen, qstep := (elementWrite s e v).qstep, prob := (elementWrite s e v).prob
      ibuf := (elementWrite s e v).ibuf, reply := none, tick := s.tick + 1 } := by
  refine (step_write h).trans (congrArg _ ((hostWrite_running (s := { s.withHost rest with
    reply := none, tick := s.tick + 1 }) he e v).trans ?_))
  cases e with
  | csr n => unfold elementWrite csrWrite; dsimp only; split <;> rfl
  | _ => rfl

theorem present_halted {s : State} (h : s.err ≠ 0) (w : Word) : present w s = .next s := by
  unfold present; rw [if_pos (halted_of_err h)]

theorem present_ok {s : State} {w : Word} {i : Instr} (h : s.err = 0) (hd : decode w = .ok i) :
    present w s = exec i { s with cseq := s.cseq + 1 } := by
  unfold present
  rw [running_of_err h, hd]
  rfl

theorem present_rejected {s : State} {w : Word} {r : Reject} (h : s.err = 0) (hd : decode w = .error r) :
    present w s = .next { s with cseq := s.cseq + 1, err := 3, errInfo := s.cseq } := by
  unfold present
  rw [running_of_err h, hd]
  simp [reject, State.haltEntry, State.commandNumber, State.accept, Err.code]

theorem Err.code_ne_zero (e : Err) : e.code ≠ 0 := by cases e <;> decide

theorem Written.err {i : Instr} {s t : State} (h : Written i s t) : t.err = s.err := by
  cases i <;> (unfold Written at h; dsimp only at h; rw [h])

theorem Written.errInfo {i : Instr} {s t : State} (h : Written i s t) : t.errInfo = s.errInfo := by
  cases i <;> (unfold Written at h; dsimp only at h; rw [h])

theorem Written.cseq {i : Instr} {s t : State} (h : Written i s t) : t.cseq = s.cseq := by
  cases i <;> (unfold Written at h; dsimp only at h; rw [h])

/-- The block halts in a command exactly when the command raised an error (R270). -/
theorem Ended.cases_err {i : Instr} {s t : State} (h : Ended i s t) (he : s.err = 0) :
    Written i s t ∧ t.err = 0 ∨ t.err ≠ 0 := by
  rcases h with hw | ⟨e, -, rfl⟩ | ⟨e, u, -, -, rfl⟩
  · exact .inl ⟨hw, hw.err.trans he⟩
  · exact .inr (Err.code_ne_zero e)
  · exact .inr (Err.code_ne_zero e)

end Sys2Proof.Machine
end

