-- ==== Sys2Proof/Laws/CodeDecisions.lean ====
section
/-! SUPPORT. An encoding walk as the list of its decisions (43_token_walker.md R176, R190): it codes the list that
`State.walkDecisions` names, and does to the encoder what single commands `BE.PUT` of the list do. -/

namespace Sys2Proof.Machine

/-! ### Counting -/

/-- Count a decision that has a counter (R176). -/
def State.counted (s : State) : Option Nat → State
  | none => s
  | some j => { s with brc := s.brc.write .table j (s.brc.get j + 1) }

@[simp] theorem State.counted_be (s : State) (c : Option Nat) : (s.counted c).be = s.be := by cases c <;> rfl
@[simp] theorem State.counted_bd (s : State) (c : Option Nat) : (s.counted c).bd = s.bd := by cases c <;> rfl
@[simp] theorem State.counted_prob (s : State) (c : Option Nat) : (s.counted c).prob = s.prob := by cases c <;> rfl
@[simp] theorem State.counted_coef (s : State) (c : Option Nat) : (s.counted c).coef = s.coef := by cases c <;> rfl
@[simp] theorem State.counted_ibuf (s : State) (c : Option Nat) : (s.counted c).ibuf = s.ibuf := by cases c <;> rfl

theorem State.counted_get (s : State) (c : Option Nat) (j : Nat) :
    (s.counted c).brc.get j = s.brc.get j + if c = some j then 1 else 0 := by
  cases c with
  | none => simp [State.counted]
  | some k =>
    simp only [State.counted, Memory.get_write, Option.some.injEq]
    by_cases h : j = k
    · subst h; simp
    · simp [h, Ne.symm h]

@[simp] theorem countsOf_nil (j : Nat) : countsOf [] j = 0 := rfl

theorem countsOf_cons (d : Decision) (ds : List Decision) (j : Nat) :
    countsOf (d :: ds) j = (if d.counter = some j then 1 else 0) + countsOf ds j := by
  unfold countsOf
  rw [List.map_cons, List.count_cons, BitVec.ofNat_add, BitVec.add_comm]
  by_cases h : d.counter = some j <;> simp [h]

/-! ### Coding a list of decisions -/

/-- One decision as an encode query; probability 0 is the error of R265. -/
def codeOne (d : Decision) (s : State) : Res State Unit :=
  if d.prob = 0 then .raise .invalidProbability s
  else (putQuery d.bit d.prob s).bind fun _ s => .ok () (s.counted d.counter)

/-- The encode queries of a list of decisions, in order. -/
def codeAll : List Decision → State → Res State Unit
  | [], s => .ok () s
  | d :: ds, s => (codeOne d s).bind fun _ s => codeAll ds s

theorem codeAll_append (a b : List Decision) (s : State) :
    codeAll (a ++ b) s = (codeAll a s).bind fun _ s => codeAll b s := by
  induction a generalizing s with
  | nil => rfl
  | cons d a ih => simp only [List.cons_append, codeAll, Res.bind_assoc, ih]

theorem codeOne_frame (d : Decision) (s : State) :
    (codeOne d s).Ends (fun _ t => s.EncodeFrame t) (fun _ _ => True) fun _ => True := by
  unfold codeOne
  split_ifs
  · trivial
  · refine ((putQuery_encodeFrame d.bit d.prob s).mono (fun _ _ h => h) (fun _ _ _ => trivial) fun _ h => h).bind ?_
    intro _ t ht
    cases d.counter with
    | none => exact ht
    | some j => exact ht.trans rfl

theorem codeAll_frame (ds : List Decision) (s : State) :
    (codeAll ds s).Ends (fun _ t => s.EncodeFrame t) (fun _ _ => True) fun _ => True := by
  induction ds generalizing s with
  | nil => exact .refl s
  | cons d ds ih =>
    exact (codeOne_frame d s).bind fun _ t ht => (ih t).mono (fun _ _ hu => ht.trans hu) (fun _ _ h => h) fun _ h => h

/-- A continuation may use what the list of decisions left alone. -/
theorem codeAll_bind_congr {α : Type} {ds : List Decision} {s : State} {f g : Unit → State → Res State α}
    (h : ∀ t, s.EncodeFrame t → f () t = g () t) : (codeAll ds s).bind f = (codeAll ds s).bind g := by
  have hf := codeAll_frame ds s
  cases hr : codeAll ds s with
  | ok a t => rw [hr] at hf; exact h t hf
  | raise e t => rfl
  | stop x => rfl

theorem State.EncodeFrame.prob {s t : State} (h : s.EncodeFrame t) : t.prob = s.prob := by rw [h]

/-- A path of tree decisions (R172, R190). -/
theorem treePutAll_codeAll (c : TreeCtx) (path : List (Fin 11 × Bool)) (s : State) :
    treePutAll c path s = codeAll (path.map (treeDecision s.prob c)) s := by
  induction path generalizing s with
  | nil => rfl
  | cons a path ih =>
    obtain ⟨k, b⟩ := a
    have h1 : treePut c k b s = codeOne (treeDecision s.prob c (k, b)) s := rfl
    have hf := codeOne_frame (treeDecision s.prob c (k, b)) s
    simp only [treePutAll, List.map_cons, codeAll, h1]
    cases hr : codeOne (treeDecision s.prob c (k, b)) s with
    | ok u t =>
      rw [hr] at hf
      rw [Res.bind_ok, Res.bind_ok, ih, hf.prob]
    | raise e t => rfl
    | stop x => rfl

/-- The decisions of the low bits of an offset, one per probability, the most significant first (42_token_value.md R159). -/
def bitDecisions (ps : List Byte) (off : Nat) : List Decision :=
  (List.range ps.length).map fun k => { counter := none, bit := off.testBit (ps.length - 1 - k), prob := ps.getD k 0 }

theorem offsetDecisions_eq (c : Category) (off : Nat) :
    offsetDecisions c off = bitDecisions (tables.category c).probs off := rfl

theorem bitDecisions_cons (p : Byte) (ps : List Byte) (off : Nat) :
    bitDecisions (p :: ps) off = { counter := none, bit := off.testBit ps.length, prob := p } :: bitDecisions ps off := by
  unfold bitDecisions
  rw [List.length_cons, List.range_succ_eq_map, List.map_cons, List.map_map]
  congr 1
  apply List.map_congr_left
  intro k _
  show Decision.mk _ (off.testBit (ps.length + 1 - 1 - (k + 1))) _ = _
  rw [show ps.length + 1 - 1 - (k + 1) = ps.length - 1 - k by omega, List.getD_cons_succ]

theorem tvEncBits_codeAll (ps : List Byte) (hps : ∀ p ∈ ps, p ≠ 0) (off : Nat) (s : State) :
    tvEncBits ps off s = codeAll (bitDecisions ps off) s := by
  induction ps generalizing s with
  | nil => rfl
  | cons p ps ih =>
    rw [bitDecisions_cons, codeAll, tvEncBits, codeOne, if_neg (hps p (by simp)), Res.bind_assoc]
    congr 1
    funext _ t
    exact ih (fun q hq => hps q (by simp [hq])) t

theorem probs_ne_zero (c : Category) : ∀ p ∈ (tables.category c).probs, p ≠ 0 := by cases c <;> decide

theorem tvEnc_codeAll {c : Category} {mag off : Nat} (h : tvOffset c mag = some off) (s : State) :
    tvEnc c mag s = codeAll (offsetDecisions c off) s := by
  unfold tvEnc
  rw [h]
  exact tvEncBits_codeAll _ (probs_ne_zero c) off s

/-- The extra bits and the sign of a codable coefficient (R171, R179). -/
theorem coefPut_codeAll {v : Int} (hv : v.natAbs ≤ 2114) (s : State) :
    coefPut v s = codeAll (extraDecisions (tokenOf v.natAbs) v.natAbs ++ [signDecision v]) s := by
  have h1 : ∀ s, extraPut (tokenOf v.natAbs) v.natAbs s = codeAll (extraDecisions (tokenOf v.natAbs) v.natAbs) s := by
    intro s
    cases htok : tokenOf v.natAbs with
    | cat c =>
      obtain ⟨off, hoff⟩ := tokenOf_range hv htok
      have h2 := (tvOffset_eq_some.mp hoff).1
      show tvEnc c v.natAbs s = codeAll (offsetDecisions c (v.natAbs - (tables.category c).base)) s
      rw [tvEnc_codeAll hoff, show v.natAbs - (tables.category c).base = off by omega]
    | _ => rfl
  rw [coefPut, codeAll_append, h1]
  congr 1
  funext _ t
  show putQuery _ _ t = (codeOne _ t).bind _
  have h2 : (signDecision v).prob ≠ 0 := show (128 : Byte) ≠ 0 by decide
  rw [codeOne, if_neg h2, Res.bind_assoc]
  show putQuery (decide (v < 0)) tables.probUniform t = (putQuery (decide (v < 0)) tables.probUniform t).bind _
  cases putQuery (decide (v < 0)) tables.probUniform t <;> rfl

/-- An encoding walk codes its decisions (R190). -/
theorem walkEnc_codeAll {bt : BitVec 2} {nEnd : Nat} {l : List (Fin 16)} {ctx : Fin 3} {lastz : Bool} {s : State}
    (hb : ∀ i ∈ l, (coefAt s i).natAbs ≤ 2114) :
    ((walkEnc bt nEnd l ctx lastz s).bind fun _ t => .ok () t) =
      codeAll (blockDecisions s.prob bt (coefAt s) nEnd l ctx lastz) s := by
  induction l generalizing s ctx lastz with
  | nil => rfl
  | cons i rest ih =>
    have hrest : ∀ {t : State}, s.EncodeFrame t → coefAt t = coefAt s ∧ ∀ j ∈ rest, (coefAt t j).natAbs ≤ 2114 := by
      intro t ht
      exact ⟨funext ht.coefAt_eq, fun j hj => by rw [ht.coefAt_eq]; exact hb j (by simp [hj])⟩
    unfold walkEnc blockDecisions
    by_cases hend : lastz = false ∧ nEnd ≤ i.val
    · rw [if_pos (by simp [hend]), if_pos hend, treePutAll_codeAll, Res.bind_assoc]
      simp only [Res.bind_ok]
      show ((codeOne _ s).bind _).bind _ = (codeOne _ s).bind _
      rw [Res.bind_assoc]
      rfl
    · rw [if_neg (by simpa using hend), if_neg hend]
      dsimp only
      rw [treePutAll_codeAll, codeAll_append, Res.bind_assoc, coefDecisions, codeAll_append, Res.bind_assoc]
      by_cases hv : coefAt s i = 0
      · simp only [hv, if_true]
        refine codeAll_bind_congr fun t ht => ?_
        have h := ih (s := t) (ctx := 0) (lastz := true) (hrest ht).2
        rw [h, (hrest ht).1, ht.prob]
        rfl
      · simp only [hv, if_false, Res.bind_assoc]
        refine codeAll_bind_congr fun t ht => ?_
        rw [coefPut_codeAll (hb i (by simp))]
        refine codeAll_bind_congr fun u hu => ?_
        have hsu := ht.trans hu
        rw [ih (s := u) (hrest hsu).2, (hrest hsu).1, hsu.prob, contextAfter_tokenOf]
        simp

/-- Every decision of the list that has a counter has counted (R176). -/
theorem codeAll_counts {ds : List Decision} {s t : State} (h : codeAll ds s = .ok () t) (j : Nat) :
    t.brc.get j = s.brc.get j + countsOf ds j := by
  induction ds generalizing s with
  | nil => cases h; simp
  | cons d ds ih =>
    obtain ⟨⟨⟩, u, h1, h2⟩ := Res.bind_eq_ok.mp h
    unfold codeOne at h1
    split_ifs at h1
    obtain ⟨⟨⟩, x, h3, h4⟩ := Res.bind_eq_ok.mp h1
    cases h4
    have hx := putQuery_frame d.bit d.prob s
    rw [h3] at hx
    have hx : x = { s with be := x.be } := hx
    rw [ih h2, State.counted_get, countsOf_cons, ← BitVec.add_assoc, hx]

/-! ### Lists of decisions and lists of commands -/

/-- `BE.PUT` with a probability, presented to a running block with an active encoder, is its query. -/
theorem present_bePut {s : State} {b : Bool} {p : Byte} (hd : decode (encode (.bePut b p)) = .ok (.bePut b p)) (he : s.err = 0)
    (ha : s.be.active = true) (hp : p ≠ 0) :
    present (encode (.bePut b p)) s = finish (putQuery b p { s with cseq := s.cseq + 1 }) := by
  rw [present_ok he hd]
  simp only [exec, execBePut, whenEncoding, ha, if_true]
  rw [if_neg hp]

theorem present_bePut_zero {s : State} {b : Bool} (hd : decode (encode (.bePut b 0)) = .ok (.bePut b 0)) (he : s.err = 0)
    (ha : s.be.active = true) :
    present (encode (.bePut b 0)) s = reject .invalidProbability { s with cseq := s.cseq + 1 } := by
  rw [present_ok he hd]
  simp only [exec, execBePut, whenEncoding, ha, if_true]

theorem presentAll_halted (ws : List Word) {s : State} (h : s.err ≠ 0) : presentAll ws s = some s := by
  induction ws with
  | nil => rfl
  | cons w ws ih => rw [presentAll, present_halted h]; exact ih

/-- How the commands of a list of decisions end beside the list coded by a walk. -/
def SameEnd (r : Res State Unit) (u : State) : Prop :=
  r.Ends (fun _ t => u.err = 0 ∧ u.be = t.be) (fun e _ => u.err = e.code) fun _ => False

/-- A list of decisions coded by a walk does to the encoder what `BE.PUT` of them does, and ends in an error exactly when they
do, the same one; decoding must give back what was encoded (30_encoding.md R85 to R95). -/
theorem codeAll_presentAll (hd : ∀ i : Instr, decode (encode i) = .ok i) {ds : List Decision} {s s' : State}
    (h : s.be.Sound s.obufSize) (hz : s.obufSize < 2 ^ 32) (hbe : s'.be = s.be) (hsize : s'.obufSize = s.obufSize)
    (he : s'.err = 0) (ha : s.be.active = true) :
    ∃ u, presentAll (ds.map fun d => encode (.bePut d.bit d.prob)) s' = some u ∧ SameEnd (codeAll ds s) u := by
  induction ds generalizing s s' with
  | nil => exact ⟨s', rfl, he, hbe⟩
  | cons d ds ih =>
    simp only [List.map_cons, presentAll, codeAll, codeOne]
    by_cases hp : d.prob = 0
    · rw [if_pos hp, hp, present_bePut_zero (hd _) he (hbe ▸ ha)]
      exact ⟨_, presentAll_halted _ (show (4 : BitVec 3) ≠ 0 by decide), rfl⟩
    · rw [if_neg hp, present_bePut (hd _) he (hbe ▸ ha) hp]
      have hput : ({ s' with cseq := s'.cseq + 1 } : State).be.put ({ s' with cseq := s'.cseq + 1 } : State).obufSize d.bit
          d.prob = s.be.put s.obufSize d.bit d.prob := by
        show s'.be.put s'.obufSize d.bit d.prob = _
        rw [hbe, hsize]
      rcases Encoder.put_spec hz h d.bit d.prob with ⟨e, h1, -⟩ | ⟨e, k, h1, h2⟩
      · rw [putQuery, putQuery, hput, h1]
        exact ⟨_, presentAll_halted _ (show (7 : BitVec 3) ≠ 0 by decide), rfl⟩
      · rw [putQuery, putQuery, hput, h1]
        simp only [Res.into_ok, Res.bind_ok, finish]
        have ho : (({ s with be := e } : State).counted d.counter).obufSize = s.obufSize := by cases d.counter <;> rfl
        exact ih (by rw [State.counted_be, ho]; exact h2.sound) (ho ▸ hz) (by rw [State.counted_be])
          (by rw [ho]; exact hsize) he (by rw [State.counted_be]; exact h2.active.trans ha)

end Sys2Proof.Machine
end

