-- ==== Sys2Proof/Laws/DecoderOpen.lean ====
section
/-! SUPPORT. Everything opening a partition can do (40_boolean_decoder.md R111). -/

namespace Sys2Proof.Machine

theorem partitionFits_iff (base len : Word) (size : Nat) :
    partitionFits base len size = true ↔ base.toNat + len.toNat ≤ size := by simp [partitionFits]

/-- Byte `k` of a partition, 0 beyond its end (R112). -/
def partitionByte (ibuf : Memory 8) (base len : Word) (k : Nat) : Nat :=
  if k < len.toNat then ((ibuf.read .buffer (base.toNat + k)).getD 0).toNat else 0

theorem partitionByte_lt (ibuf : Memory 8) (base len : Word) (k : Nat) : partitionByte ibuf base len k < 256 := by
  unfold partitionByte; split_ifs
  · exact BitVec.isLt _
  · omega

/-- The decoder `BD.INIT` leaves. -/
def Decoder.opened (ibuf : Memory 8) (base len : Word) : Decoder where
  active := true
  eoi := decide (len.toNat < 2)
  lbase := base
  llen := len
  pos := BitVec.ofNat 32 (min 2 len.toNat)
  value := BitVec.ofNat 32 (partitionByte ibuf base len 0 * 256 + partitionByte ibuf base len 1)
  range := 255
  bitcnt := 0
  qcnt := 0

theorem append_bytes (a b : Byte) : ((a ++ b : BitVec 16).zeroExtend 32 : Word) = BitVec.ofNat 32 (a.toNat * 256 + b.toNat) := by
  apply BitVec.eq_of_toNat_eq
  have ha := a.isLt
  have hb := b.isLt
  rw [BitVec.toNat_setWidth, BitVec.toNat_append, Nat.shiftLeft_eq, ← Nat.mul_comm (2 ^ 8), ← Nat.two_pow_add_eq_or_of_lt hb]
  exact congrArg (· % 2 ^ 32) (by omega)

/-- Opening a partition whose first bytes are written ... -/
theorem Decoder.openPartition_ok {ibuf : Memory 8} {base len : Word} (d : Decoder)
    (h : ∀ k, k < 2 → k < len.toNat → (ibuf.read .buffer (base.toNat + k)).isSome) :
    d.openPartition ibuf base len = .ok () (Decoder.opened ibuf base len) := by
  have h0 : (0 : Word).toNat = 0 := rfl
  have h1 : (0 + 1 : Word).toNat = 1 := rfl
  have hlt := len.isLt
  unfold Decoder.openPartition Decoder.opened
  by_cases hl0 : 0 < len.toNat
  · obtain ⟨b0, hb0⟩ := Option.isSome_iff_exists.mp (h 0 (by omega) hl0)
    rw [Nat.add_zero] at hb0
    by_cases hl1 : 1 < len.toNat
    · obtain ⟨b1, hb1⟩ := Option.isSome_iff_exists.mp (h 1 (by omega) hl1)
      simp only [Decoder.nextByte, h0, h1, Nat.add_zero, if_pos hl0, if_pos hl1, hb0, hb1, Res.bind_ok, append_bytes,
        partitionByte, Option.getD_some, Nat.min_eq_left (show 2 ≤ len.toNat from hl1), decide_eq_false (show ¬len.toNat < 2 by omega)]
      rfl
    · have hl : len.toNat = 1 := by omega
      simp [Decoder.nextByte, hb0, append_bytes, partitionByte, hl, -BitVec.truncate_eq_setWidth]
  · have hl : len.toNat = 0 := by omega
    simp [Decoder.nextByte, append_bytes, partitionByte, hl, -BitVec.truncate_eq_setWidth]

/-- ... and when one of them is not. -/
theorem Decoder.openPartition_stop {ibuf : Memory 8} {base len : Word} (d : Decoder) {k : Nat} (hk : k < 2)
    (hlen : k < len.toNat) (h : ibuf.read .buffer (base.toNat + k) = none) :
    d.openPartition ibuf base len = .stop .unwrittenInput := by
  have h0 : (0 : Word).toNat = 0 := rfl
  have h1 : (0 + 1 : Word).toNat = 1 := rfl
  have hl0 : 0 < len.toNat := by omega
  unfold Decoder.openPartition
  cases hb0 : ibuf.read .buffer base.toNat with
  | none => simp only [Decoder.nextByte, h0, Nat.add_zero, if_pos hl0, hb0, Res.bind_stop]
  | some b =>
    have hk1 : k = 1 := by
      rcases Nat.lt_or_ge k 1 with hk0 | hk1
      · obtain rfl : k = 0 := by omega
        rw [Nat.add_zero, hb0] at h
        cases h
      · omega
    subst hk1
    simp only [Decoder.nextByte, h0, h1, Nat.add_zero, if_pos hl0, if_pos hlen, hb0, h, Res.bind_ok, Res.bind_stop]

end Sys2Proof.Machine
end

