-- ==== Sys2Proof/Laws/Sync.lean ====
section
/-! SUPPORT. The two halves of the coder in lock step (40_boolean_decoder.md R110): a decoder that reads the bytes an encoder
ends up with keeps the encoder's range, and its value is the distance from the encoder's low end to those bytes. -/

namespace Sys2Proof.Machine

/-- The stream, `n` bytes in all, lies in the interval of the encoder `e`. -/
structure Encoder.Window (o : Memory 8) (n : Nat) (e : Encoder) : Prop where
  shifts : e.shifts + 9 ≤ 8 * n
  low : e.low * 2 ^ (8 * n - 8 - e.shifts) ≤ outNumber o n
  high : outNumber o n < (e.low + e.range.toNat) * 2 ^ (8 * n - 8 - e.shifts)

/-- The decoder `d` stands where the encoder `e` stood. -/
structure Sync (o : Memory 8) (e : Encoder) (d : Decoder) : Prop where
  range : d.range = e.range
  pos : d.pos.toNat = 2 + e.shifts / 8
  bitcnt : d.bitcnt.toNat = e.shifts % 8
  value : d.value.toNat + e.low * 2 ^ 8 = outNumber o d.pos.toNat * 2 ^ d.bitcnt.toNat
  eoi : d.eoi = false

/-- The decoder's partition holds the stream. -/
structure Decoder.Reads (o : Memory 8) (n : Nat) (ibuf : Memory 8) (d : Decoder) : Prop where
  llen : d.llen.toNat = n
  bytes : ∀ i, i < n → ibuf.read .buffer (d.lbase.toNat + i) = o.read .buffer i
  written : ∀ i, i < n → (o.read .buffer i).isSome

theorem Decoder.Reads.input {o ibuf : Memory 8} {n : Nat} {d : Decoder} (h : d.Reads o n ibuf) : d.InputWritten ibuf := by
  intro k _ h2
  rw [h.llen] at h2
  rw [h.bytes k h2]
  exact h.written k h2

/-- The bytes after the first `m` only refine the number. -/
theorem outNumber_prefix (o : Memory 8) (m k : Nat) :
    outNumber o m * 256 ^ k ≤ outNumber o (m + k) ∧ outNumber o (m + k) < (outNumber o m + 1) * 256 ^ k := by
  induction k with
  | zero => simp
  | succ k ih =>
    have hb : ((o.read .buffer (m + k)).getD 0).toNat < 256 := ((o.read .buffer (m + k)).getD 0).isLt
    rw [← Nat.add_assoc]
    simp only [outNumber, pow_succ]
    constructor
    · rw [← mul_assoc]; omega
    · rw [← mul_assoc]; omega

theorem narrow_window {low r x rb K M X : Nat} (h1 : K * (low + x) * M ≤ X) (h2 : X < (K * (low + x) + rb * K) * M)
    (hr : x + rb ≤ r) :
    (low + x) * (K * M) ≤ X ∧ X < (low + x + rb) * (K * M) ∧ low * (K * M) ≤ X ∧ X < (low + r) * (K * M) := by
  have e1 : K * (low + x) * M = (low + x) * (K * M) := by ring
  have e2 : (K * (low + x) + rb * K) * M = (low + x + rb) * (K * M) := by ring
  rw [e1] at h1
  rw [e2] at h2
  exact ⟨h1, h2, le_trans (Nat.mul_le_mul_right _ (by omega)) h1,
    lt_of_lt_of_le h2 (Nat.mul_le_mul_right _ (by omega))⟩

/-- A query narrows the window, and the side it takes says where the stream lies. -/
theorem Encoder.Window.before {o : Memory 8} {n : Nat} {e e' : Encoder} {b : Bool} {p : Byte} {k size : Nat}
    (h : e.Coded e' b p k size) (h2 : 2 ≤ e.range.toNat) (hw : e'.Window o n) :
    e.Window o n ∧
      (e.low + if b then split e.range p else 0) * 2 ^ (8 * n - 8 - e.shifts) ≤ outNumber o n ∧
      outNumber o n < (e.low + (if b then split e.range p else 0) +
        if b then e.range.toNat - split e.range p else split e.range p) * 2 ^ (8 * n - 8 - e.shifts) := by
  have h3 := split_lt p h2
  have h4 := hw.shifts
  have h5 := hw.low
  have h6 := hw.high
  rw [h.shifts] at h4
  have hm : 2 ^ (8 * n - 8 - e.shifts) = 2 ^ k * 2 ^ (8 * n - 8 - e'.shifts) := by
    rw [← pow_add, h.shifts]; congr 1; omega
  rw [h.low] at h5 h6
  rw [h.range] at h6
  obtain ⟨a1, a2, a3, a4⟩ := narrow_window h5 h6 (r := e.range.toNat) (by split_ifs <;> omega)
  rw [← hm] at a1 a2 a3 a4
  exact ⟨⟨by omega, a3, a4⟩, a1, a2⟩

/-- Comparing with a multiple of `2 ^ (8 - c)`, the bytes fetched so far decide as the whole stream does. -/
theorem prefix_decides {P X A c m j : Nat} (hc : c ≤ 7) (hj : 8 * j + 8 = m + c) (h1 : P * 256 ^ j ≤ X)
    (h2 : X < (P + 1) * 256 ^ j) : A * 2 ^ m ≤ X ↔ A * 2 ^ 8 ≤ P * 2 ^ c := by
  have e1 : 256 ^ j = 2 ^ (8 * j) := by rw [pow_mul]; norm_num
  rw [e1] at h1 h2
  have e2 : A * 2 ^ 8 ≤ P * 2 ^ c ↔ A * 2 ^ (8 - c) ≤ P := by
    rw [show 2 ^ 8 = 2 ^ (8 - c) * 2 ^ c by rw [← pow_add]; congr 1; omega, ← mul_assoc]
    exact Nat.mul_le_mul_right_iff (by positivity)
  have e3 : A * 2 ^ m = A * 2 ^ (8 - c) * 2 ^ (8 * j) := by
    rw [mul_assoc, ← pow_add]; congr 2; omega
  rw [e2, e3]
  constructor
  · intro h
    have := Nat.lt_of_mul_lt_mul_right (lt_of_le_of_lt h h2)
    omega
  · intro h
    exact le_trans (Nat.mul_le_mul_right _ h) h1

theorem toNat_shl {v : Word} {k : Nat} (h : v.toNat * 2 ^ k < 2 ^ 32) : (v <<< k).toNat = v.toNat * 2 ^ k := by
  rw [BitVec.toNat_shiftLeft, Nat.shiftLeft_eq, Nat.mod_eq_of_lt h]

theorem Encoder.Window.lands {o : Memory 8} {n : Nat} {e : Encoder} {d : Decoder} (hs : Sync o e d) (hw : e.Window o n)
    (A : Nat) :
    A * 2 ^ (8 * n - 8 - e.shifts) ≤ outNumber o n ↔ A * 2 ^ 8 ≤ outNumber o d.pos.toNat * 2 ^ d.bitcnt.toNat := by
  have h1 := hw.shifts
  have h2 := hs.pos
  have h3 := hs.bitcnt
  obtain ⟨q1, q2⟩ := outNumber_prefix o d.pos.toNat (n - d.pos.toNat)
  rw [show d.pos.toNat + (n - d.pos.toNat) = n by omega] at q1 q2
  exact prefix_decides (by omega) (by omega) q1 q2

theorem side_iff {l s v z : Nat} (hv : v + l * 2 ^ 8 = z) : (l + s) * 2 ^ 8 ≤ z ↔ s * 256 ≤ v := by omega

/-- The decoder takes the side the encoder took. -/
theorem Sync.decision {o : Memory 8} {n : Nat} {e e' : Encoder} {d : Decoder} {b : Bool} {p : Byte} {k size : Nat}
    (hs : Sync o e d) (h : e.Coded e' b p k size) (h2 : 2 ≤ e.range.toNat) (hw : e'.Window o n) : d.decision p = b := by
  obtain ⟨w, a1, a2⟩ := hw.before h h2
  have hv := hs.value
  unfold Decoder.decision
  rw [hs.range]
  cases b
  · simp only [Bool.false_eq_true, if_false, Nat.add_zero] at a2
    have := (not_iff_not.mpr (w.lands hs (e.low + split e.range p))).mp (not_le.mpr a2)
    rw [decide_eq_false_iff_not]
    exact fun hc => this ((side_iff hv).mpr hc)
  · simp only [if_true] at a1
    have := (w.lands hs (e.low + split e.range p)).mp a1
    rw [decide_eq_true_eq]
    exact (side_iff hv).mp this

theorem merge_byte {v k c : Nat} {w : Word} {b : Byte} (hw : w.toNat = v) (hv : v * 2 ^ k < 2 ^ 32)
    (hd : 2 ^ (c + 8) ∣ v * 2 ^ k) (hc : c ≤ 7) :
    (w <<< k ||| b.zeroExtend 32 <<< c).toNat = v * 2 ^ k + b.toNat * 2 ^ c := by
  subst hw
  have hb : b.toNat < 256 := b.isLt
  have hp : 2 ^ c ≤ 2 ^ 7 := Nat.pow_le_pow_right (by norm_num) hc
  have hbc : b.toNat * 2 ^ c < 2 ^ (c + 8) := by
    rw [pow_add, Nat.mul_comm]
    exact Nat.mul_lt_mul_of_pos_left (by omega) (by positivity)
  have hz : (b.zeroExtend 32 : Word).toNat = b.toNat := by
    rw [BitVec.toNat_setWidth]; omega
  have hz2 : ((b.zeroExtend 32 : Word) <<< c).toNat = b.toNat * 2 ^ c := by
    rw [toNat_shl (by rw [hz]; nlinarith), hz]
  rw [BitVec.toNat_or, toNat_shl hv, hz2]
  obtain ⟨q, hq⟩ := hd
  rw [hq, ← Nat.two_pow_add_eq_or_of_lt hbc]

/-- One query in lock step: the decoder answers what the encoder was given, and the two stay together. -/
theorem Sync.get {o ibuf : Memory 8} {n : Nat} {e e' : Encoder} {d : Decoder} {b : Bool} {p : Byte} {k size : Nat}
    (hs : Sync o e d) (hr : d.Reads o n ibuf) (h : e.Coded e' b p k size) (h2 : 128 ≤ e.range.toNat)
    (hw : e'.Window o n) : ∃ d', d.get ibuf p = .ok b d' ∧ Sync o e' d' ∧ d'.Reads o n ibuf := by
  have hdec := hs.decision h (by omega) hw
  obtain ⟨w, a1, a2⟩ := hw.before h (by omega)
  have hd2 : 2 ≤ d.range.toNat := by rw [hs.range]; omega
  obtain ⟨j, hj, h128, h255, hget⟩ := Decoder.get_ok p hd2 hr.input.next
  have hq := Decoder.queried_spec ibuf hd2 h128 h255
  have hnr := Decoder.narrow_range p hd2
  rw [hdec, hs.range] at hnr
  have hjk : j = k := by
    refine norm_unique h128 h255 (k := k) ?_ ?_
    · rw [hnr, ← h.range]; exact h.sound.range_ge
    · rw [hnr, ← h.range]; have := e'.range.isLt; omega
  subst hjk
  rw [hdec] at hget
  refine ⟨_, hget, ?_, ?_⟩
  · have hws := w.shifts
    have hws' := hw.shifts
    have hpos := hs.pos
    have hbc := hs.bitcnt
    have hval := hs.value
    have hsh := h.shifts
    have hqp := hq.pos
    have hqb := hq.bitcnt
    have hrange : (d.queried ibuf p j).range = e'.range := by
      apply BitVec.eq_of_toNat_eq
      rw [hq.range, h.range, hdec, hs.range]
    have hlen := hr.llen
    have hposlt : 8 ≤ d.bitcnt.toNat + j → d.pos.toNat < d.llen.toNat := by omega
    have hpos' : (d.queried ibuf p j).pos.toNat = 2 + e'.shifts / 8 := by
      rw [hqp]
      split_ifs <;> omega
    have hbit' : (d.queried ibuf p j).bitcnt.toNat = e'.shifts % 8 := by omega
    -- the value after the narrowing, and its bound
    have hx1 := (w.lands hs (e.low + if b then split e.range p else 0)).mp a1
    have hx2 : ¬_ := mt (w.lands hs _).mpr (not_le.mpr a2)
    have hnv : (d.narrow p).value.toNat + (e.low + if b then split e.range p else 0) * 2 ^ 8 =
        outNumber o d.pos.toNat * 2 ^ d.bitcnt.toNat := by
      rw [Decoder.narrow_value, hdec, hs.range]
      cases b <;> simp only [Bool.false_eq_true, if_false, if_true] at * <;> omega
    have hnb : (d.narrow p).value.toNat < (d.narrow p).range.toNat * 2 ^ 8 := by
      rw [hnr]; omega
    have hpj : 2 ^ j ≤ 2 ^ 7 := Nat.pow_le_pow_right (by norm_num) hj
    have hvj : (d.narrow p).value.toNat * 2 ^ j < 2 ^ 16 := by
      calc (d.narrow p).value.toNat * 2 ^ j < (d.narrow p).range.toNat * 2 ^ 8 * 2 ^ j :=
            Nat.mul_lt_mul_of_pos_right hnb (by positivity)
        _ = (d.narrow p).range.toNat * 2 ^ j * 2 ^ 8 := by ring
        _ ≤ 255 * 2 ^ 8 := Nat.mul_le_mul_right _ h255
        _ < 2 ^ 16 := by norm_num
    have hnsame := Decoder.narrow_same p d
    have hnbit : (d.narrow p).bitcnt = d.bitcnt := by rw [hnsame]
    refine ⟨hrange, hpos', hbit', ?_, ?_⟩
    · by_cases hf : d.bitcnt.toNat + j < 8
      · have hv : (d.queried ibuf p j).value = (d.narrow p).value <<< j := by
          show ((d.narrow p).renormed ibuf j).value = _
          unfold Decoder.renormed
          rw [if_pos (by rw [hnbit]; exact hf)]
          rfl
        rw [hv, toNat_shl (by omega), hqp, if_neg (by omega), hqb, Nat.mod_eq_of_lt hf, h.low, pow_add, ← mul_assoc, ← hnv]
        ring
      · have hv : (d.queried ibuf p j).value =
            (d.narrow p).value <<< j ||| ((d.narrow p).nextValue ibuf).zeroExtend 32 <<< (d.bitcnt.toNat + j - 8) := by
          show ((d.narrow p).renormed ibuf j).value = _
          unfold Decoder.renormed
          rw [if_neg (by rw [hnbit]; exact hf), hnbit]
        have hlt := hposlt (by omega)
        have hbyte : (d.narrow p).nextValue ibuf = (o.read .buffer d.pos.toNat).getD 0 := by
          unfold Decoder.nextValue
          rw [hnsame]
          simp only
          rw [if_pos hlt, hr.bytes _ (by omega)]
        have hdvd : 2 ^ (d.bitcnt.toNat + j - 8 + 8) ∣ (d.narrow p).value.toNat * 2 ^ j := by
          rw [show d.bitcnt.toNat + j - 8 + 8 = d.bitcnt.toNat + j by omega, pow_add]
          refine Nat.mul_dvd_mul_right ?_ _
          have hd1 : 2 ^ d.bitcnt.toNat ∣ outNumber o d.pos.toNat * 2 ^ d.bitcnt.toNat := Dvd.intro_left _ rfl
          rw [← hnv] at hd1
          refine (Nat.dvd_add_left ?_).mp hd1
          exact Dvd.dvd.mul_left (pow_dvd_pow 2 (by omega)) _
        have hout : outNumber o (d.pos.toNat + 1) =
            outNumber o d.pos.toNat * 256 + ((o.read .buffer d.pos.toNat).getD 0).toNat := rfl
        rw [hv, merge_byte rfl (by omega) hdvd (by omega), hbyte, hqp, if_pos ⟨by omega, hlt⟩, hout, hqb,
          show (d.bitcnt.toNat + j) % 8 = d.bitcnt.toNat + j - 8 by omega, h.low]
        have e1 : outNumber o d.pos.toNat * 256 * 2 ^ (d.bitcnt.toNat + j - 8) =
            outNumber o d.pos.toNat * 2 ^ d.bitcnt.toNat * 2 ^ j := by
          rw [mul_assoc, mul_assoc, ← pow_add, show (256 : Nat) = 2 ^ 8 by norm_num, ← pow_add]
          congr 2; omega
        rw [Nat.add_mul, e1, ← hnv]
        ring
    · show ((d.narrow p).renormed ibuf j).eoi = false
      have he0 : (d.narrow p).eoi = false := by rw [hnsame]; exact hs.eoi
      unfold Decoder.renormed
      split_ifs with hf
      · exact he0
      · rw [hnbit] at hf
        have hlt := hposlt (by omega)
        show ((d.narrow p).shifted j).advanced.eoi = false
        rw [Decoder.advanced_eoi]
        have h1 : ((d.narrow p).shifted j).eoi = false := he0
        have h2 : ((d.narrow p).shifted j).llen = d.llen := by
          show (d.narrow p).llen = _
          rw [hnsame]
        have h3 : ((d.narrow p).shifted j).pos = d.pos := by
          show (d.narrow p).pos = _
          rw [hnsame]
        rw [h1, h2, h3]
        simp [Nat.not_le.mpr hlt]
  · exact ⟨by rw [hq.llen]; exact hr.llen, by rw [hq.lbase]; exact hr.bytes, hr.written⟩

/-! ### The two ends -/

/-- The stream a flush leaves lies in the interval of the encoder it found. -/
theorem Encoder.Flushed.window {e e' : Encoder} {size : Nat} (h : e.Flushed e') (hc : e.Coding size) :
    e.Window e'.obuf (e.len.toNat + 4) := by
  have h1 := hc.bitcnt_pos
  have h2 := hc.bitcnt_le
  have h3 := hc.range_pos
  have hm : 8 * (e.len.toNat + 4) - 8 - e.shifts = e.bitcnt.toNat := by unfold Encoder.shifts; omega
  refine ⟨by unfold Encoder.shifts; omega, ?_, ?_⟩
  · rw [hm, h.number]
  · rw [hm, h.number]
    exact Nat.mul_lt_mul_of_pos_right (by omega) (by positivity)

end Sys2Proof.Machine
end

