-- ==== Sys2Proof/Laws/LockStep.lean ====
section
/-! SUPPORT. The lock step of Sys2Proof/Laws/Sync.lean carried from queries up to whole walks (43_token_walker.md R191): a
decoding piece takes the decisions the encoding piece was given. -/

namespace Sys2Proof.Machine

/-- The decoding state `d` stands where the encoding state `s` stood; the counters differ by `δ`. -/
structure Lock (o : Memory 8) (n : Nat) (δ : Nat → Word) (s d : State) : Prop where
  active : d.bd.active = true
  sync : Sync o s.be d.bd
  reads : d.bd.Reads o n d.ibuf
  prob : d.prob = s.prob
  counts : ∀ j, d.brc.get j = s.brc.get j + δ j

/-- What the encoder did from `s` to `t`, the piece `dec` undoes: it answers `v` and changes the coefficients by `f`. -/
def Follows (o : Memory 8) (n : Nat) (δ : Nat → Word) {α : Type} (s t : State) (dec : State → Res State α) (v : α)
    (f : Coefs → Coefs) : Prop :=
  t.be.Window o n → s.be.Window o n ∧
    ∀ d, Lock o n δ s d → ∃ d', dec d = .ok v d' ∧ Lock o n δ t d' ∧ d'.coef = f d.coef

variable {o : Memory 8} {n : Nat} {δ : Nat → Word} {α β : Type} {s t u : State}

theorem Follows.refl (v : α) : Follows o n δ s s (fun d => .ok v d) v id :=
  fun hw => ⟨hw, fun d hd => ⟨d, rfl, hd, rfl⟩⟩

theorem Follows.bind {dec : State → Res State α} {k : α → State → Res State β} {v : α} {w : β} {f g : Coefs → Coefs}
    (h1 : Follows o n δ s t dec v f) (h2 : Follows o n δ t u (k v) w g) :
    Follows o n δ s u (fun d => (dec d).bind k) w (fun c => g (f c)) := fun hw => by
  obtain ⟨hw1, hd2⟩ := h2 hw
  obtain ⟨hw0, hd1⟩ := h1 hw1
  refine ⟨hw0, fun d hd => ?_⟩
  obtain ⟨d1, a1, a2, a3⟩ := hd1 d hd
  obtain ⟨d2, b1, b2, b3⟩ := hd2 d1 a2
  exact ⟨d2, by show (dec d).bind k = _; rw [a1, Res.bind_ok, b1], b2, by rw [b3, a3]⟩

theorem Follows.congr {dec dec' : State → Res State α} {v v' : α} {f f' : Coefs → Coefs}
    (h : Follows o n δ s t dec v f) (hd : ∀ d, dec d = dec' d) (hv : v = v') (hf : ∀ c, f c = f' c) :
    Follows o n δ s t dec' v' f' := by
  obtain rfl : dec = dec' := funext hd
  obtain rfl : f = f' := funext hf
  exact hv ▸ h

theorem putQuery_follows {b : Bool} {p : Byte} (h : s.EncodeOk) (he : putQuery b p s = .ok () t) :
    Follows o n δ s t (getQuery p) b id := by
  rcases Encoder.put_spec h.size h.sound b p with ⟨e', h1, -⟩ | ⟨e', k, h1, hc⟩
  · simp [putQuery, h1] at he
  · simp only [putQuery, h1, Res.into_ok, Res.ok.injEq, true_and] at he
    subst he
    have hge := h.sound.range_ge
    refine fun hw => ⟨(hw.before hc (by omega)).1, fun d hd => ?_⟩
    obtain ⟨d', g1, g2, g3⟩ := hd.sync.get hd.reads hc hge hw
    exact ⟨{ d with bd := d' }, by simp only [getQuery, g1, Res.into_ok],
      ⟨Decoder.get_active hd.reads.input.next (by rw [hd.sync.range]; omega) g1 ▸ hd.active, g2, g3, hd.prob, hd.counts⟩, rfl⟩

theorem Lock.countBranch {d : State} (h : Lock o n δ s d) (c : TreeCtx) (k : Fin 11) (b : Bool) :
    Lock o n δ (s.countBranch c k b) (d.countBranch c k b) := by
  refine ⟨h.active, h.sync, h.reads, h.prob, fun j => ?_⟩
  simp only [State.countBranch, Memory.get_write]
  split_ifs with hj
  · rw [h.counts, hj, BitVec.add_assoc, BitVec.add_comm (δ _), ← BitVec.add_assoc]
  · exact h.counts j

theorem treePut_follows {c : TreeCtx} {k : Fin 11} {b : Bool} (h : s.EncodeOk) (he : treePut c k b s = .ok () t) :
    Follows o n δ s t (treeGet c k) b id := by
  unfold treePut at he
  split_ifs at he with hp
  obtain ⟨⟨⟩, x, h1, h2⟩ := Res.bind_eq_ok.mp he
  cases h2
  intro hw
  obtain ⟨hw0, hd⟩ := putQuery_follows h h1 (o := o) (n := n) (δ := δ) hw
  refine ⟨hw0, fun d hl => ?_⟩
  obtain ⟨d', g1, g2, g3⟩ := hd d hl
  refine ⟨d'.countBranch c k b, ?_, g2.countBranch c k b, g3⟩
  rw [treeGet, hl.prob, if_neg hp, g1, Res.bind_ok]

theorem treePutAll_follows {c : TreeCtx} {path : List (Fin 11 × Bool)} {k : Fin 11} {m : Nat} {tok : Token}
    (h : s.EncodeOk) (he : treePutAll c path s = .ok () t) (hf : followPath k path = some tok) (hm : path.length ≤ m) :
    Follows o n δ s t (treeWalk c m k) tok id := by
  induction path generalizing s k m with
  | nil => simp [followPath] at hf
  | cons a path ih =>
    obtain ⟨j, b⟩ := a
    obtain ⟨⟨⟩, x, h1, h2⟩ := Res.bind_eq_ok.mp he
    have hx : x.EncodeOk := by
      have := treePut_ends h c j b
      rw [h1] at this
      exact this.1.ok
    have hjk : j = k := by
      by_contra hne
      simp [followPath, hne] at hf
    subst hjk
    simp only [followPath, if_true] at hf
    obtain ⟨m, rfl⟩ : ∃ m', m = m' + 1 := ⟨m - 1, by simp only [List.length_cons] at hm; omega⟩
    rw [List.length_cons] at hm
    refine (treePut_follows h h1).bind (k := fun b s => match branchOf j b with
      | .leaf tok => .ok tok s
      | .node k => treeWalk c m k s) ?_
    cases hb : branchOf j b with
    | leaf tok' =>
      rw [hb] at hf
      dsimp only at hf
      split_ifs at hf with hp
      obtain rfl := Option.some.inj hf
      subst hp
      cases h2
      exact Follows.refl _
    | node k' =>
      rw [hb] at hf
      exact ih hx h2 hf (by omega)

theorem tvEncBits_follows {ps : List Byte} {off acc : Nat} (h : s.EncodeOk) (he : tvEncBits ps off s = .ok () t) :
    Follows o n δ s t (tvDecBits ps acc) (acc * 2 ^ ps.length + off % 2 ^ ps.length) id := by
  induction ps generalizing s acc with
  | nil =>
    cases he
    exact (Follows.refl acc).congr (fun _ => rfl) (by simp [Nat.mod_one]) fun _ => rfl
  | cons p ps ih =>
    obtain ⟨⟨⟩, x, h1, h2⟩ := Res.bind_eq_ok.mp he
    have hx : x.EncodeOk := by
      have := putQuery_ends h 0 (off.testBit ps.length) p
      rw [h1] at this
      exact this.1.ok
    refine ((putQuery_follows h h1).bind (ih hx h2 (acc := acc <<< 1 ||| (off.testBit ps.length).toNat))).congr
      (fun _ => rfl) ?_ fun _ => rfl
    rw [shl1_or, List.length_cons, Nat.mod_pow_succ, ← Nat.toNat_testBit, pow_succ]
    ring

theorem tvEnc_follows {c : Category} {mag : Nat} (h : s.EncodeOk) (he : tvEnc c mag s = .ok () t) :
    Follows o n δ s t (tvDec c) mag id := by
  unfold tvEnc at he
  cases hoff : tvOffset c mag with
  | none => rw [hoff] at he; simp at he
  | some off =>
    rw [hoff] at he
    obtain ⟨h1, h2⟩ := tvOffset_eq_some.mp hoff
    refine ((tvEncBits_follows h he (acc := 0)).bind (k := fun acc s => .ok ((tables.category c).base + acc) s)
      (Follows.refl _)).congr (fun _ => rfl) ?_ fun _ => rfl
    rw [Nat.zero_mul, Nat.zero_add, Nat.mod_eq_of_lt h2, h1]

theorem extraPut_follows {a : Nat} (ha : a ≠ 0) (h : s.EncodeOk) (he : extraPut (tokenOf a) a s = .ok () t) :
    Follows o n δ s t (magnitudeGet (tokenOf a)) a id := by
  have hlit : ∀ tok, tokenOf a = tok → (tok = .zero → a = 0) ∧ (tok = .one → a = 1) ∧ (tok = .two → a = 2) ∧
      (tok = .three → a = 3) ∧ (tok = .four → a = 4) := by
    rintro _ rfl
    unfold tokenOf
    split_ifs <;> simp_all
  have hl := hlit _ rfl
  cases htok : tokenOf a with
  | cat c =>
    rw [htok] at he
    exact tvEnc_follows h he
  | eob => exact absurd htok (tokenOf_ne_eob a)
  | zero => exact absurd (tokenOf_eq_zero.mp htok) ha
  | one =>
    rw [htok] at he hl
    cases he
    exact (Follows.refl 1).congr (fun _ => rfl) (by rw [hl.2.1 rfl]) fun _ => rfl
  | two =>
    rw [htok] at he hl
    cases he
    exact (Follows.refl 2).congr (fun _ => rfl) (by rw [hl.2.2.1 rfl]) fun _ => rfl
  | three =>
    rw [htok] at he hl
    cases he
    exact (Follows.refl 3).congr (fun _ => rfl) (by rw [hl.2.2.2.1 rfl]) fun _ => rfl
  | four =>
    rw [htok] at he hl
    cases he
    exact (Follows.refl 4).congr (fun _ => rfl) (by rw [hl.2.2.2.2 rfl]) fun _ => rfl

/-- Storing a coefficient changes nothing the lock step rests on. -/
theorem Follows.setC {v : Int} (i : Fin 16) :
    Follows o n δ s s (fun d => .ok () (d.setC (tables.zigzag i) v)) ()
      (fun c => c.set (tables.zigzag i) (BitVec.ofInt 16 v)) :=
  fun hw => ⟨hw, fun _ hd => ⟨_, rfl, ⟨hd.active, hd.sync, hd.reads, hd.prob, hd.counts⟩, rfl⟩⟩

theorem coefPut_follows {v : Int} (i : Fin 16) (hv : v ≠ 0) (hb : v.natAbs ≤ 2114) (h : s.EncodeOk)
    (he : coefPut v s = .ok () t) :
    Follows o n δ s t (coefGet i (tokenOf v.natAbs)) () (fun c => c.set (tables.zigzag i) (BitVec.ofInt 16 v)) := by
  obtain ⟨⟨⟩, x, h1, h2⟩ := Res.bind_eq_ok.mp he
  have hx : x.EncodeOk := by
    have := extraPut_ends h 0 hb
    rw [h1] at this
    exact this.1.ok
  have hsign : (if decide (v < 0) then -(v.natAbs : Int) else v.natAbs) = v := by
    by_cases hn : v < 0
    · simp only [hn, decide_true, if_true]; omega
    · simp only [hn, decide_false, Bool.false_eq_true, if_false]; omega
  refine (extraPut_follows (by omega) h h1).bind (k := fun (mag : Nat) s =>
    (getQuery tables.probUniform s).bind fun negative s =>
      .ok () (s.setC (tables.zigzag i) (if negative then -(mag : Int) else mag)))
    ((putQuery_follows hx h2).bind (k := fun negative s =>
      .ok () (s.setC (tables.zigzag i) (if negative then -(v.natAbs : Int) else v.natAbs)))
      (g := fun cs => cs.set (tables.zigzag i) (BitVec.ofInt 16 v)) ?_)
  rw [hsign]
  exact Follows.setC i

/-- The coefficients a decoded walk stores, on top of `cs`. -/
def storedCoefs (s : State) (l : List (Fin 16)) (cs : Coefs) : Coefs :=
  l.foldl (fun cs i => if coefAt s i = 0 then cs else cs.set (tables.zigzag i) s.coef[tables.zigzag i]) cs

theorem storedCoefs_zero (s : State) (l : List (Fin 16)) (cs : Coefs) (h : ∀ j ∈ l, coefAt s j = 0) :
    storedCoefs s l cs = cs := by
  unfold storedCoefs
  induction l generalizing cs with
  | nil => rfl
  | cons i l ih => rw [List.foldl_cons, if_pos (h i (by simp)), ih _ fun j hj => h j (by simp [hj])]

theorem storedCoefs_congr {s s' : State} (l : List (Fin 16)) (cs : Coefs) (h : s'.coef = s.coef) :
    storedCoefs s' l cs = storedCoefs s l cs := by unfold storedCoefs coefAt State.c; rw [h]

theorem storedCoefs_get (s : State) (l : List (Fin 16)) (hl : l.Nodup) (cs : Coefs)
    (hc : ∀ j ∈ l, cs[tables.zigzag j] = 0) (j : Fin 16) :
    (storedCoefs s l cs)[tables.zigzag j] = if j ∈ l then s.coef[tables.zigzag j] else cs[tables.zigzag j] := by
  induction l generalizing cs with
  | nil => simp [storedCoefs]
  | cons i l ih =>
    obtain ⟨h1, h2⟩ := List.nodup_cons.mp hl
    have hne : ∀ x : Fin 16, x ≠ i → ∀ v : BitVec 16, (cs.set (tables.zigzag i) v)[tables.zigzag x] = cs[tables.zigzag x] := by
      intro x hx v
      have hz : (tables.zigzag i).val ≠ (tables.zigzag x).val := fun e => hx (zigzag_injective _ _ (Fin.ext e)).symm
      exact Vector.getElem_set_ne _ _ hz
    have hstep : storedCoefs s (i :: l) cs =
        storedCoefs s l (if coefAt s i = 0 then cs else cs.set (tables.zigzag i) s.coef[tables.zigzag i]) := rfl
    rw [hstep, ih h2]
    · by_cases hji : j = i
      · subst hji
        rw [if_neg h1, if_pos (List.mem_cons_self (a := j) (l := l))]
        split_ifs with h0
        · rw [hc j (by simp)]
          exact (BitVec.eq_of_toInt_eq (by rw [show (s.coef[tables.zigzag j]).toInt = 0 from h0]; rfl)).symm
        · exact Vector.getElem_set_self _
      · have : (if coefAt s i = 0 then cs else cs.set (tables.zigzag i) s.coef[tables.zigzag i])[tables.zigzag j] =
            cs[tables.zigzag j] := by
          split_ifs
          · rfl
          · exact hne j hji _
        rw [this]
        simp [hji]
    · intro x hx
      have hxi : x ≠ i := fun e => h1 (e ▸ hx)
      split_ifs
      · exact hc x (by simp [hx])
      · rw [hne x hxi]; exact hc x (by simp [hx])

/-- A whole walk: what the encoder walked, the decoder walks, and ends the same way. -/
theorem walkEnc_follows {bt : BitVec 2} {nEnd m : Nat} {l : List (Fin 16)} {ctx : Fin 3} {lastz : Bool} {w : WalkResult}
    (h : s.EncodeOk) (hl : l = (List.finRange 16).drop m) (hz : ∀ j : Fin 16, nEnd ≤ j.val → m ≤ j.val → coefAt s j = 0)
    (hb : ∀ j ∈ l, (coefAt s j).natAbs ≤ 2114) (he : walkEnc bt nEnd l ctx lastz s = .ok w t) :
    Follows o n δ s t (walkDec bt l ctx lastz) w (storedCoefs s l) := by
  induction l generalizing s m ctx lastz with
  | nil => cases he; exact Follows.refl _
  | cons i rest ih =>
    obtain ⟨hi, hrest⟩ := positions_cons hl.symm
    unfold walkEnc at he
    split_ifs at he with hend
    · rw [Bool.and_eq_true, Bool.not_eq_true', decide_eq_true_eq] at hend
      obtain ⟨rfl, hn⟩ := hend
      obtain ⟨⟨⟩, x, h1, h2⟩ := Res.bind_eq_ok.mp he
      cases h2
      have hall : ∀ j ∈ i :: rest, coefAt s j = 0 := by
        intro j hj
        rw [hl, List.mem_drop_iff_getElem] at hj
        obtain ⟨q, hq, rfl⟩ := hj
        refine hz _ ?_ ?_
        · simp; omega
        · simp
      have hf := treePutAll_follows (o := o) (n := n) (δ := δ) (m := 11) h h1 (k := 0) (tok := .eob) (by decide) (by decide)
      refine (hf.bind (k := fun tok s => match tok with
        | .eob => .ok (walkResult i ctx true) s
        | .zero => walkDec bt rest 0 true s
        | tok => (coefGet i tok s).bind fun _ s => walkDec bt rest (contextAfter tok) false s) (Follows.refl _)).congr
        (fun _ => rfl) rfl fun c => (storedCoefs_zero s _ c hall).symm
    · dsimp only at he
      obtain ⟨⟨⟩, x, h1, h2⟩ := Res.bind_eq_ok.mp he
      have hx : x.EncodeOk := by
        have := treePutAll_ends h (treeCtx bt i ctx) (positionPath lastz (tokenOf (coefAt s i).natAbs))
        rw [h1] at this
        exact this.1.ok
      have hxc : x.coef = s.coef := by
        have := treePutAll_ends h (treeCtx bt i ctx) (positionPath lastz (tokenOf (coefAt s i).natAbs))
        rw [h1] at this
        exact this.1.coef
      have hcx : ∀ j, coefAt x j = coefAt s j := fun j => by unfold coefAt State.c; rw [hxc]
      have hpath : ∀ lastz tok, tok ≠ .eob → followPath (startNode lastz) (positionPath lastz tok) = some tok := by
        intro lastz tok ht
        cases lastz <;> cases tok with
        | cat c => cases c <;> decide
        | eob => exact absurd rfl ht
        | _ => decide
      have hf := treePutAll_follows (o := o) (n := n) (δ := δ) (m := 11) h h1
        (hpath lastz _ (tokenOf_ne_eob _)) (le_trans (positionPath_length _ _) (by omega))
      have hsub : ∀ j ∈ rest, (coefAt s j).natAbs ≤ 2114 := fun j hj => hb j (by simp [hj])
      split_ifs at h2 with hv
      · have htok : tokenOf (coefAt s i).natAbs = .zero := by rw [hv]; rfl
        rw [htok] at hf
        have hr := ih hx (m := m + 1) hrest (fun j h1 h2 => by rw [hcx]; exact hz j h1 (by omega))
          (fun j hj => by rw [hcx]; exact hsub j hj) h2
        refine (hf.bind (k := fun tok s => match tok with
          | .eob => .ok (walkResult i ctx true) s
          | .zero => walkDec bt rest 0 true s
          | tok => (coefGet i tok s).bind fun _ s => walkDec bt rest (contextAfter tok) false s) hr).congr
          (fun _ => rfl) rfl fun c => ?_
        rw [storedCoefs_congr _ _ hxc]
        show storedCoefs s rest c = storedCoefs s rest (if coefAt s i = 0 then c else _)
        rw [if_pos hv]
      · obtain ⟨⟨⟩, y, h3, h4⟩ := Res.bind_eq_ok.mp h2
        have hbi := hb i (by simp)
        have hy := coefPut_ends hx 0 hbi
        rw [h3] at hy
        obtain ⟨hy1, -⟩ := hy
        have hyc : y.coef = s.coef := hy1.coef.trans hxc
        have hcy : ∀ j, coefAt y j = coefAt s j := fun j => by unfold coefAt State.c; rw [hyc]
        have hr := ih hy1.ok (m := m + 1) hrest (fun j h1 h2 => by rw [hcy]; exact hz j h1 (by omega))
          (fun j hj => by rw [hcy]; exact hsub j hj) h4
        have hnz : ∀ tok : Token, tok ≠ .eob → tok ≠ .zero → ∀ d : State, (match tok with
            | .eob => .ok (walkResult i ctx true) d
            | .zero => walkDec bt rest 0 true d
            | tok => (coefGet i tok d).bind fun _ s => walkDec bt rest (contextAfter tok) false s : Res State WalkResult) =
            (coefGet i tok d).bind fun _ s => walkDec bt rest (contextAfter tok) false s := by
          intro tok h1 h2 d
          cases tok <;> first | rfl | exact absurd rfl h1 | exact absurd rfl h2
        have hz0 : tokenOf (coefAt s i).natAbs ≠ .zero := fun e => hv (by have := tokenOf_eq_zero.mp e; omega)
        refine (hf.bind (k := fun tok s => match tok with
          | .eob => .ok (walkResult i ctx true) s
          | .zero => walkDec bt rest 0 true s
          | tok => (coefGet i tok s).bind fun _ s => walkDec bt rest (contextAfter tok) false s)
          (((coefPut_follows (o := o) (n := n) (δ := δ) i hv hbi hx h3).bind (k := fun _ d =>
            walkDec bt rest (contextAfter (tokenOf (coefAt s i).natAbs)) false d) hr).congr
            (fun d => (hnz _ (tokenOf_ne_eob _) hz0 d).symm) rfl fun _ => rfl)).congr (fun _ => rfl) rfl fun c => ?_
        rw [storedCoefs_congr _ _ hyc]
        show storedCoefs s rest (c.set (tables.zigzag i) (BitVec.ofInt 16 (coefAt s i))) =
          storedCoefs s rest (if coefAt s i = 0 then c else _)
        rw [if_neg hv]
        congr 2
        exact BitVec.ofInt_toInt

end Sys2Proof.Machine
end

