-- ==== Sys2Proof/Laws/PerInstr.lean ====
section
/-! SUPPORT. One fact about every command as syntax: its word has its row's bits (30_encoding.md R95). -/

namespace Sys2Proof.Laws.MatchMask

/-- R95: the word of a command agrees with `match` on the bits of `mask`. -/
def Statement (i : Instr) : Prop := encode i &&& maskOf i = matchOf i

theorem nop : Statement .nop := rfl
theorem bdInit : Statement .bdInit := rfl
theorem bdGet (p : Byte) : Statement (.bdGet p) := by revert p; unfold Statement; decide +kernel
theorem bdGetu : Statement .bdGetu := rfl
theorem beInit : Statement .beInit := rfl
theorem bePut (b : Bool) (p : Byte) : Statement (.bePut b p) := by revert b p; unfold Statement; decide +kernel
theorem bePutu (b : Bool) : Statement (.bePutu b) := by revert b; unfold Statement; decide +kernel
theorem beFlush : Statement .beFlush := rfl
theorem tvDec (cat : BitVec 3) : Statement (.tvDec cat) := by revert cat; unfold Statement; decide +kernel
theorem tvEnc (cat : BitVec 3) : Statement (.tvEnc cat) := by revert cat; unfold Statement; decide +kernel

theorem twDec (o : WalkOperands) : Statement (.twDec o) := by
  obtain ⟨bt, s, a, z, l, n⟩ := o
  revert bt s a z l n
  unfold Statement
  decide +kernel

theorem twEnc (o : WalkOperands) : Statement (.twEnc o) := by
  obtain ⟨bt, s, a, z, l, n⟩ := o
  revert bt s a z l n
  unfold Statement
  decide +kernel

theorem brcClr : Statement .brcClr := rfl
theorem qzQuant (cls : BitVec 2) : Statement (.qzQuant cls) := by revert cls; unfold Statement; decide +kernel
theorem qzDequant (cls : BitVec 2) : Statement (.qzDequant cls) := by revert cls; unfold Statement; decide +kernel
theorem qzTakedc : Statement .qzTakedc := rfl

end Sys2Proof.Laws.MatchMask
end

