-- ==== Sys2Proof/Laws/Quantizer.lean ====
section
/-! SUPPORT. Everything the quantizer's arithmetic can do (44_quantizer.md R222 to R235). -/

namespace Sys2Proof.Machine

theorem tdiv_eq (a : Int) (b : Nat) : tdiv a b = Int.tdiv a b := by
  unfold tdiv
  cases a with
  | ofNat n =>
    show (n : Int).sign * ((n / b : Nat) : Int) = ((n / b : Nat) : Int)
    rcases Nat.eq_zero_or_pos n with rfl | h
    · simp
    · rw [Int.sign_eq_one_of_pos (by exact_mod_cast h), one_mul]
  | negSucc n =>
    rw [Int.negSucc_eq, Int.neg_tdiv, Int.sign_eq_neg_one_of_neg (by omega)]
    rw [show (-((n : Int) + 1)).natAbs = n + 1 by omega, neg_one_mul]
    rfl

theorem natAbs_tdiv (a : Int) (b : Nat) : (tdiv a b).natAbs = a.natAbs / b := by
  rw [tdiv_eq, Int.natAbs_tdiv, Int.natAbs_natCast]; rfl

theorem natAbs_tdiv_le (a : Int) (b : Nat) : (tdiv a b).natAbs ≤ a.natAbs := by
  rw [natAbs_tdiv]; exact Nat.div_le_self _ _

/-- A quotient has the sign of its dividend, or is 0. -/
theorem tdiv_sign (a : Int) (b : Nat) : (0 ≤ a → 0 ≤ tdiv a b) ∧ (a ≤ 0 → tdiv a b ≤ 0) := by
  unfold tdiv
  constructor
  · intro h
    rcases eq_or_lt_of_le h with rfl | h
    · simp
    · rw [Int.sign_eq_one_of_pos h, one_mul]; exact Int.natCast_nonneg _
  · intro h
    rcases eq_or_lt_of_le h with rfl | h
    · simp
    · rw [Int.sign_eq_neg_one_of_neg h, neg_one_mul]; exact Int.neg_nonpos_of_nonneg (Int.natCast_nonneg _)

/-- A quotient of a coefficient is a coefficient (R225). -/
theorem tdiv_range {a : Int} (b : Nat) (h1 : -32768 ≤ a) (h2 : a ≤ 32767) : -32768 ≤ tdiv a b ∧ tdiv a b ≤ 32767 := by
  have h3 := natAbs_tdiv_le a b
  have h4 := tdiv_sign a b
  omega

/-- The coefficients `QZ.QUANT` leaves (R225). -/
theorem State.c_quant (s : State) (f : Fin 16 → Nat) (k : Fin 16) :
    (s.mapCoefs fun slot v => tdiv v (f slot)).c k = tdiv (s.c k) (f k) := by
  have h := State.c_range s k
  have h' := tdiv_range (f k) h.1 h.2
  rw [State.c_mapCoefs, toInt_ofInt_16 h'.1 h'.2]

theorem fitsCoef_iff (v : Int) : fitsCoef v = true ↔ -32768 ≤ v ∧ v ≤ 32767 := by simp [fitsCoef]

theorem slotStep_toNat (dc ac : BitVec 16) (k : Fin 16) :
    (slotStep dc ac k).toNat = if k = 0 then dc.toNat else ac.toNat := by unfold slotStep; split_ifs <;> rfl

/-- A quotient multiplied by its divisor lies between 0 and the dividend, less than a divisor away. -/
theorem tdiv_mul (a : Int) {b : Nat} (hb : 0 < b) :
    (tdiv a b * b).natAbs ≤ a.natAbs ∧ 0 ≤ tdiv a b * b * a ∧ (a - tdiv a b * b).natAbs < b := by
  have h1 : (tdiv a b).natAbs * b ≤ a.natAbs := by rw [natAbs_tdiv]; exact Nat.div_mul_le_self _ _
  have h2 : a.natAbs < (tdiv a b).natAbs * b + b := by
    rw [natAbs_tdiv]
    have := Nat.lt_div_mul_add (a := a.natAbs) hb
    omega
  have h3 := tdiv_sign a b
  have h4 : (tdiv a b * b).natAbs = (tdiv a b).natAbs * b := by rw [Int.natAbs_mul, Int.natAbs_natCast]
  have h5 : (0 ≤ tdiv a b → 0 ≤ tdiv a b * b) ∧ (tdiv a b ≤ 0 → tdiv a b * b ≤ 0) :=
    ⟨fun h => by positivity, fun h => mul_nonpos_of_nonpos_of_nonneg h (by positivity)⟩
  refine ⟨by omega, ?_, by omega⟩
  rcases le_total 0 a with h | h
  · exact mul_nonneg (h5.1 (h3.1 h)) h
  · exact mul_nonneg_of_nonpos_of_nonpos (h5.2 (h3.2 h)) h

theorem stepsOf_eq_some {q : Steps} {cls : BitVec 2} {dc ac : BitVec 16} :
    stepsOf q cls = some (dc, ac) ↔
      cls = 0 ∧ dc = q.yDc ∧ ac = q.yAc ∨ cls = 1 ∧ dc = q.y2Dc ∧ ac = q.y2Ac ∨ cls = 2 ∧ dc = q.uvDc ∧ ac = q.uvAc := by
  have h : cls = 0 ∨ cls = 1 ∨ cls = 2 ∨ cls = 3 := by revert cls; decide
  rcases h with rfl | rfl | rfl | rfl <;> simp [stepsOf, eq_comm]

end Sys2Proof.Machine
end

