-- ==== Sys2Proof/Laws/ReadDecisions.lean ====
section
/-! SUPPORT. A decoding walk as the list of its decisions (43_token_walker.md R176, R180): it reads the list that
`State.walkDecisions` names of the block it leaves, and does to the decoder what single commands `BD.GET` do. -/

namespace Sys2Proof.Machine

/-- `t` has the decoder, the counters and the tables of `s`. -/
structure State.SameReader (s t : State) : Prop where
  bd : t.bd = s.bd
  brc : t.brc = s.brc
  prob : t.prob = s.prob
  ibuf : t.ibuf = s.ibuf

/-- The decode queries of a list of decisions, from `s`, answer them and leave the reader of `t`. -/
def Reads : List Decision → State → State → Prop
  | [], s, t => s.SameReader t
  | d :: ds, s, t => d.prob ≠ 0 ∧ ∃ u, getQuery d.prob s = .ok d.bit u ∧ Reads ds (u.counted d.counter) t

theorem getQuery_frame_ok {p : Byte} {b : Bool} {s t : State} (h : getQuery p s = .ok b t) : t = { s with bd := t.bd } := by
  obtain ⟨d, -, rfl⟩ := Res.into_eq_ok.mp h
  rfl

theorem getQuery_sameReader {p : Byte} {b : Bool} {s s' t : State} (hs : s.SameReader s') (h : getQuery p s = .ok b t) :
    ∃ t', getQuery p s' = .ok b t' ∧ t.SameReader t' := by
  obtain ⟨d, h1, rfl⟩ := Res.into_eq_ok.mp h
  exact ⟨{ s' with bd := d }, by rw [getQuery, hs.bd, hs.ibuf, h1]; rfl, rfl, hs.brc, hs.prob, hs.ibuf⟩

theorem State.SameReader.counted {s t : State} (h : s.SameReader t) (c : Option Nat) :
    (s.counted c).SameReader (t.counted c) := by
  cases c with
  | none => exact h
  | some j => exact ⟨h.bd, by simp only [State.counted, h.brc], h.prob, h.ibuf⟩

theorem Reads.congr {ds : List Decision} {s s' t : State} (hs : s.SameReader s') (h : Reads ds s t) : Reads ds s' t := by
  induction ds generalizing s s' with
  | nil =>
    exact ⟨h.bd.trans hs.bd.symm, h.brc.trans hs.brc.symm, h.prob.trans hs.prob.symm, h.ibuf.trans hs.ibuf.symm⟩
  | cons d ds ih =>
    obtain ⟨hp, u, h1, h2⟩ := h
    obtain ⟨u', h3, h4⟩ := getQuery_sameReader hs h1
    exact ⟨hp, u', h3, ih (h4.counted d.counter) h2⟩

theorem Reads.append {a b : List Decision} {s t u : State} (h1 : Reads a s t) (h2 : Reads b t u) : Reads (a ++ b) s u := by
  induction a generalizing s with
  | nil => exact h2.congr ⟨h1.bd.symm, h1.brc.symm, h1.prob.symm, h1.ibuf.symm⟩
  | cons d a ih =>
    obtain ⟨hp, x, h3, h4⟩ := h1
    exact ⟨hp, x, h3, ih h4⟩

theorem Reads.same {ds : List Decision} {s t t' : State} (h : Reads ds s t) (ht : t.SameReader t') : Reads ds s t' := by
  have := h.append (b := []) (u := t') ht
  rwa [List.append_nil] at this

theorem Reads.one {d : Decision} {s t : State} (hp : d.prob ≠ 0) (h : getQuery d.prob s = .ok d.bit t) :
    Reads [d] s (t.counted d.counter) := ⟨hp, t, h, rfl, rfl, rfl, rfl⟩

/-- Every decision read that has a counter has counted (R176). -/
theorem Reads.counts {ds : List Decision} {s t : State} (h : Reads ds s t) (j : Nat) :
    t.brc.get j = s.brc.get j + countsOf ds j := by
  induction ds generalizing s with
  | nil => rw [h.brc]; simp
  | cons d ds ih =>
    obtain ⟨-, u, h1, h2⟩ := h
    rw [ih h2, State.counted_get, countsOf_cons, ← BitVec.add_assoc, getQuery_frame_ok h1]

/-- The outcomes below a node with the paths that lead to them (R172). -/
def pathsFrom : Nat → Fin 11 → List (Token × List (Fin 11 × Bool))
  | 0, _ => []
  | n + 1, k =>
    [false, true].flatMap fun b =>
      match branchOf k b with
      | .leaf tok => [(tok, [(k, b)])]
      | .node j => (pathsFrom n j).map fun x => (x.1, (k, b) :: x.2)

/-- A tree walk reads the path it took (R172, R180). -/
theorem treeWalk_reads {c : TreeCtx} {n : Nat} {k : Fin 11} {s t : State} {tok : Token} (h : treeWalk c n k s = .ok tok t) :
    ∃ path, (tok, path) ∈ pathsFrom n k ∧ Reads (path.map (treeDecision s.prob c)) s t ∧ t.coef = s.coef := by
  induction n generalizing s k with
  | zero => simp [treeWalk] at h
  | succ n ih =>
    obtain ⟨b, x, h1, h2⟩ := Res.bind_eq_ok.mp h
    unfold treeGet at h1
    split_ifs at h1 with hp
    obtain ⟨b', y, h3, h4⟩ := Res.bind_eq_ok.mp h1
    cases h4
    have hy := getQuery_frame_ok h3
    have hone : Reads [treeDecision s.prob c (k, b)] s (y.countBranch c k b) := Reads.one (d := treeDecision s.prob c (k, b)) hp h3
    have hprob : (y.countBranch c k b).prob = s.prob := by rw [State.countBranch_prob, hy]
    have hcoef : (y.countBranch c k b).coef = s.coef := by rw [State.countBranch_coef, hy]
    cases hb : branchOf k b with
    | leaf tok' =>
      rw [hb] at h2
      cases h2
      refine ⟨[(k, b)], ?_, hone, hcoef⟩
      simp only [pathsFrom, List.mem_flatMap]
      exact ⟨b, by cases b <;> simp, by rw [hb]; exact List.mem_singleton_self _⟩
    | node j =>
      rw [hb] at h2
      obtain ⟨path, h5, h6, h7⟩ := ih h2
      rw [hprob] at h6
      refine ⟨(k, b) :: path, ?_, hone.append h6, h7.trans hcoef⟩
      simp only [pathsFrom, List.mem_flatMap]
      exact ⟨b, by cases b <;> simp, by rw [hb]; exact List.mem_map.mpr ⟨_, h5, rfl⟩⟩

/-- The one path to each outcome is the encoder's (R190). -/
theorem pathsFrom_start (lastz : Bool) (tok : Token) (path : List (Fin 11 × Bool))
    (h : (tok, path) ∈ pathsFrom 11 (startNode lastz)) :
    if tok = .eob then lastz = false ∧ path = pathOf .eob else path = positionPath lastz tok := by
  have h2 : ∀ lastz, ∀ x ∈ pathsFrom 11 (startNode lastz),
      if x.1 = .eob then lastz = false ∧ x.2 = pathOf .eob else x.2 = positionPath lastz x.1 := by decide
  exact h2 lastz _ h

theorem testBit_split (b : Bool) (n off k : Nat) (h : off < 2 ^ n) :
    (b.toNat * 2 ^ n + off).testBit k = if k < n then off.testBit k else if k = n then b else false := by
  rw [Nat.mul_comm, Nat.testBit_two_pow_mul_add _ h]
  split_ifs with h1 h2
  · rfl
  · subst h2; cases b <;> simp
  · cases b
    · simp
    · show Nat.testBit 1 (k - n) = false
      rw [show k - n = (k - n - 1) + 1 by omega, Nat.testBit_succ]
      simp

theorem bitDecisions_high (ps : List Byte) (b : Bool) (off : Nat) (h : off < 2 ^ ps.length) :
    bitDecisions ps (b.toNat * 2 ^ ps.length + off) = bitDecisions ps off := by
  unfold bitDecisions
  apply List.map_congr_left
  intro k hk
  rw [testBit_split _ _ _ _ h, if_pos (by have := List.mem_range.mp hk; omega)]

/-- The bits of an offset (42_token_value.md R158). -/
theorem tvDecBits_reads {ps : List Byte} (hps : ∀ p ∈ ps, p ≠ 0) {acc v : Nat} {s t : State}
    (h : tvDecBits ps acc s = .ok v t) :
    ∃ off, off < 2 ^ ps.length ∧ v = acc * 2 ^ ps.length + off ∧ Reads (bitDecisions ps off) s t ∧ t.coef = s.coef := by
  induction ps generalizing acc s with
  | nil => cases h; exact ⟨0, by simp, by simp, ⟨rfl, rfl, rfl, rfl⟩, rfl⟩
  | cons p ps ih =>
    obtain ⟨b, u, h1, h2⟩ := Res.bind_eq_ok.mp h
    obtain ⟨off, h3, h4, h5, h6⟩ := ih (fun q hq => hps q (by simp [hq])) h2
    have hb : b.toNat ≤ 1 := Bool.toNat_le b
    refine ⟨b.toNat * 2 ^ ps.length + off, ?_, ?_, ?_, ?_⟩
    · rw [List.length_cons, pow_succ]; nlinarith [Nat.mul_le_mul_right (2 ^ ps.length) hb]
    · rw [h4, shl1_or, List.length_cons, pow_succ]; ring
    · rw [bitDecisions_cons, bitDecisions_high _ _ _ h3, testBit_split _ _ _ _ h3, if_neg (by omega), if_pos rfl]
      exact (Reads.one (d := ⟨none, b, p⟩) (hps p (by simp)) h1).append h5
    · rw [h6, getQuery_frame_ok h1]

theorem tvDec_reads {c : Category} {v : Nat} {s t : State} (h : tvDec c s = .ok v t) :
    Reads (offsetDecisions c (v - (tables.category c).base)) s t ∧ tokenOf v = .cat c ∧ v ≤ 2114 ∧ t.coef = s.coef := by
  obtain ⟨acc, u, h1, h2⟩ := Res.bind_eq_ok.mp h
  cases h2
  obtain ⟨off, h3, h4, h5, h6⟩ := tvDecBits_reads (probs_ne_zero c) h1
  rw [Nat.zero_mul, Nat.zero_add] at h4
  subst h4
  have h7 := tokenOf_category c ((tables.category c).base + acc) (by omega) (by omega)
  exact ⟨by rw [Nat.add_sub_cancel_left]; exact h5, h7.1, h7.2.1, h6⟩

theorem magnitudeGet_reads {tok : Token} (ht : tok ≠ .eob) {v : Nat} {s t : State} (h : magnitudeGet tok s = .ok v t) :
    Reads (extraDecisions tok v) s t ∧ tokenOf v = tok ∧ v ≤ 2114 ∧ t.coef = s.coef := by
  cases tok with
  | cat c => exact tvDec_reads h
  | eob => exact absurd rfl ht
  | _ => cases h; exact ⟨⟨rfl, rfl, rfl, rfl⟩, by decide, by decide, rfl⟩

/-- The extra bits and the sign of a decoded coefficient (R171, R179). -/
theorem coefGet_reads {i : Fin 16} {tok : Token} (h1 : tok ≠ .eob) (h0 : tok ≠ .zero) {s t : State}
    (h : coefGet i tok s = .ok () t) :
    ∃ v : Int, v ≠ 0 ∧ v.natAbs ≤ 2114 ∧ tokenOf v.natAbs = tok ∧ t.coef = s.coef.set (tables.zigzag i) (BitVec.ofInt 16 v) ∧
      Reads (extraDecisions tok v.natAbs ++ [signDecision v]) s t := by
  obtain ⟨mag, x, h2, h3⟩ := Res.bind_eq_ok.mp h
  obtain ⟨b, y, h4, h5⟩ := Res.bind_eq_ok.mp h3
  cases h5
  obtain ⟨hr, htok, hmag, hc⟩ := magnitudeGet_reads h1 h2
  have hm0 : mag ≠ 0 := fun hm => h0 (by rw [← htok, hm]; rfl)
  have habs : (if b then -(mag : Int) else mag).natAbs = mag := by cases b <;> simp
  refine ⟨if b then -(mag : Int) else mag, ?_, ?_, ?_, ?_, ?_⟩
  · intro hv; rw [hv] at habs; exact hm0 habs.symm
  · rw [habs]; exact hmag
  · rw [habs]; exact htok
  · rw [State.setC_coef, getQuery_frame_ok h4, hc]
  · rw [habs]
    refine hr.append ?_
    have hsign : signDecision (if b then -(mag : Int) else mag) = ⟨none, b, tables.probUniform⟩ := by
      unfold signDecision tables
      congr 1
      cases b <;> simp; omega
    rw [hsign]
    exact (Reads.one (d := ⟨none, b, tables.probUniform⟩) (show (128 : Byte) ≠ 0 by decide) h4).same ⟨rfl, rfl, rfl, rfl⟩

/-- The positions of a walk's decisions depend on the coefficients at them alone. -/
theorem blockDecisions_congr {prob : Memory 8} {bt : BitVec 2} {f g : Fin 16 → Int} {n : Nat} {l : List (Fin 16)} {ctx : Fin 3}
    {lastz : Bool} (h : ∀ i ∈ l, f i = g i) :
    blockDecisions prob bt f n l ctx lastz = blockDecisions prob bt g n l ctx lastz := by
  induction l generalizing ctx lastz with
  | nil => rfl
  | cons i rest ih =>
    unfold blockDecisions
    rw [h i (by simp), ih fun j hj => h j (by simp [hj])]

/-- A decoding walk reads the decisions of the block it leaves (R180). -/
theorem walkDec_reads {bt : BitVec 2} {l : List (Fin 16)} {ctx : Fin 3} {lastz : Bool} {s t : State} {n : Nat} {w : WalkResult}
    (hok : s.DecodeOk) (hl : l = (List.finRange 16).drop n) (hz : ∀ j : Fin 16, n ≤ j.val → s.c (tables.zigzag j) = 0)
    (hn : n ≤ 16) (h : walkDec bt l ctx lastz s = .ok w t) :
    Reads (blockDecisions s.prob bt (fun i => t.c (tables.zigzag i)) w.pos.toNat l ctx lastz) s t := by
  induction l generalizing s n ctx lastz with
  | nil => cases h; exact ⟨rfl, rfl, rfl, rfl⟩
  | cons i rest ih =>
    obtain ⟨hi, hrest⟩ := positions_cons hl.symm
    have hi16 := i.isLt
    obtain ⟨tok, u, h1, h2⟩ := Res.bind_eq_ok.mp h
    have hw := treeWalk_ends hok (treeCtx bt i ctx) (n := 11) (k := startNode lastz) (by cases lastz <;> decide)
    rw [h1] at hw
    obtain ⟨hu, -⟩ := hw
    obtain ⟨path, hmem, hr, hcoef⟩ := treeWalk_reads h1
    have hpath := pathsFrom_start _ _ _ hmem
    have huz : ∀ j : Fin 16, n ≤ j.val → u.c (tables.zigzag j) = 0 := fun j hj => by
      rw [c_of_coef_eq hcoef]; exact hz j hj
    unfold blockDecisions
    have hgo : tok ≠ .eob → tok ≠ .zero → ((coefGet i tok u).bind fun _ s =>
        walkDec bt rest (contextAfter tok) false s) = .ok w t → Reads
          (if lastz = false ∧ w.pos.toNat ≤ i.val then [treeDecision s.prob ⟨bt, tables.band i, ctx⟩ (0, false)]
          else coefDecisions s.prob ⟨bt, tables.band i, ctx⟩ lastz (t.c (tables.zigzag i)) ++
            blockDecisions s.prob bt (fun i => t.c (tables.zigzag i)) w.pos.toNat rest
              (contextOf (t.c (tables.zigzag i)).natAbs) (decide (t.c (tables.zigzag i) = 0))) s t := by
      intro he h0 hgo
      obtain ⟨⟨⟩, x, h3, h4⟩ := Res.bind_eq_ok.mp hgo
      obtain ⟨v, hv, hb, htok, hset, hrx⟩ := coefGet_reads he h0 h3
      have hx := coefGet_ends hu.ok i tok he
      rw [h3] at hx
      obtain ⟨hx, -⟩ := hx
      have hxz : ∀ j : Fin 16, n + 1 ≤ j.val → x.c (tables.zigzag j) = 0 := fun j hj => by
        rw [c_of_coef_set hset, State.c_setC, if_neg fun e => by have := zigzag_injective _ _ e; subst this; omega]
        exact huz j (by omega)
      have hd := walkDec_ends (bt := bt) (ctx := contextAfter tok) (lastz := false) hx.ok (show n + 1 ≤ 16 by omega) hrest hxz
      rw [h4] at hd
      have hd : WalkDone x (n + 1) (contextAfter tok) false w t := hd
      have hti : t.c (tables.zigzag i) = v := by
        rw [hd.outside i (.inl (by omega)), c_of_coef_set hset, State.c_setC_same _ hb]
      rw [if_neg fun hh => by have := hd.pos_ge; omega, hti, coefDecisions, if_neg hv, htok]
      rw [if_neg he] at hpath
      rw [hpath] at hr
      have hrec := ih hx.ok hrest hxz (by omega) h4
      rw [hx.prob, hu.prob] at hrec
      rw [← htok, contextAfter_tokenOf] at hrec
      rw [← htok] at hr hrx ⊢
      refine (hr.append hrx).append ?_
      rw [decide_eq_false hv]
      exact hrec
    cases tok with
    | eob =>
      cases h2
      obtain ⟨rfl, rfl⟩ : lastz = false ∧ path = pathOf .eob := by simpa using hpath
      have hp5 : (BitVec.ofNat 5 i.val).toNat = i.val := by rw [BitVec.toNat_ofNat]; omega
      rw [if_pos ⟨rfl, by simp only [walkResult, hp5]; exact le_rfl⟩]
      exact hr
    | zero =>
      have huz' : ∀ j : Fin 16, n + 1 ≤ j.val → u.c (tables.zigzag j) = 0 := fun j hj => huz j (by omega)
      have hd := walkDec_ends (bt := bt) (ctx := 0) (lastz := true) hu.ok (show n + 1 ≤ 16 by omega) hrest huz'
      have h2 : walkDec bt rest 0 true u = .ok w t := h2
      rw [h2] at hd
      have hd : WalkDone u (n + 1) 0 true w t := hd
      have hti : t.c (tables.zigzag i) = 0 := by
        rw [hd.outside i (.inl (by omega))]; exact huz i (by omega)
      rw [if_neg fun hh => by have := hd.pos_ge; omega, hti, coefDecisions, if_pos rfl]
      have hpath : path = positionPath lastz .zero := by simpa using hpath
      rw [hpath] at hr
      have hrec := ih hu.ok hrest huz' (by omega) h2
      rw [hu.prob] at hrec
      rw [List.append_nil]
      exact hr.append hrec
    | one => exact hgo (by decide) (by decide) h2
    | two => exact hgo (by decide) (by decide) h2
    | three => exact hgo (by decide) (by decide) h2
    | four => exact hgo (by decide) (by decide) h2
    | cat c => exact hgo (by simp) (by simp) h2

/-- `BD.GET` with a probability, presented to a running block with an active decoder, is its query. -/
theorem present_bdGet {s t : State} {b : Bool} {p : Byte} (hd : decode (encode (.bdGet p)) = .ok (.bdGet p)) (he : s.err = 0)
    (ha : s.bd.active = true) (hp : p ≠ 0) (h : getQuery p s = .ok b t) :
    present (encode (.bdGet p)) s = .next { s with cseq := s.cseq + 1, bd := t.bd, bitr := b } := by
  obtain ⟨d, h1, rfl⟩ := Res.into_eq_ok.mp h
  rw [present_ok he hd]
  simp only [exec, execBdGet, whenDecoding, ha, if_true]
  rw [if_neg hp, getToBitr, getQuery]
  show finish (((s.bd.get s.ibuf p).into _).bind _) = _
  rw [h1]
  rfl

/-- A query that is answered leaves a range of at least 128 and the decoder active as it was (R118). -/
theorem getQuery_range {p : Byte} {b : Bool} {s t : State} (hr : 128 ≤ s.bd.range.toNat) (h : getQuery p s = .ok b t) :
    128 ≤ t.bd.range.toNat ∧ t.bd.active = s.bd.active := by
  obtain ⟨d, h1, rfl⟩ := Res.into_eq_ok.mp h
  have h2 : 2 ≤ s.bd.range.toNat := by omega
  obtain ⟨k, -, h128, h255, hok, hstop⟩ := Decoder.get_spec s.ibuf p h2
  by_cases hc : s.bd.CanShift s.ibuf k
  · have hq := Decoder.queried_spec s.ibuf h2 h128 h255
    rw [hok hc] at h1
    cases h1
    exact ⟨hq.range_ge, hq.active⟩
  · rw [hstop hc] at h1
    cases h1

/-- `BD.GET` with the probabilities of a list of decisions that is read answers them and leaves the decoder alike; decoding
must give back what was encoded (30_encoding.md R85 to R95). -/
theorem Reads.answers (hd : ∀ i : Instr, decode (encode i) = .ok i) {ds : List Decision} {s t s' : State} (h : Reads ds s t)
    (hr : 128 ≤ s.bd.range.toNat) (hbd : s'.bd = s.bd) (hib : s'.ibuf = s.ibuf) (he : s'.err = 0) (ha : s.bd.active = true) :
    ∃ u, answers (ds.map fun d => encode (.bdGet d.prob)) s' = some (ds.map Decision.bit, u) ∧ u.err = 0 ∧ t.bd = u.bd := by
  induction ds generalizing s s' with
  | nil => exact ⟨s', rfl, he, h.bd.trans hbd.symm⟩
  | cons d ds ih =>
    obtain ⟨hp, x, h1, h2⟩ := h
    obtain ⟨hx, hxa⟩ := getQuery_range hr h1
    have hxi : x.ibuf = s.ibuf := by rw [getQuery_frame_ok h1]
    have h1' : getQuery d.prob s' = .ok d.bit { s' with bd := x.bd } := by
      obtain ⟨e, h3, rfl⟩ := Res.into_eq_ok.mp h1
      rw [getQuery, hbd, hib, h3]
      rfl
    obtain ⟨u, h3, h4, h5⟩ := ih (s' := { s' with cseq := s'.cseq + 1, bd := x.bd, bitr := d.bit }) h2
      (by rw [State.counted_bd]; exact hx) (by rw [State.counted_bd]) (by rw [State.counted_ibuf, hxi]; exact hib) he
      (by rw [State.counted_bd]; exact hxa.trans ha)
    refine ⟨u, ?_, h4, h5⟩
    simp only [List.map_cons, Machine.answers, present_bdGet (hd _) he (hbd ▸ ha) hp h1', h3]
    rfl

end Sys2Proof.Machine
end

