-- ==== Sys2Proof/Laws/Stream.lean ====
section
/-! SUPPORT. The two ends of a stream: starting and finishing it on the encoder's side, opening it on the decoder's
(40_boolean_decoder.md R110, R111, 41_boolean_encoder.md R131, R138). -/

namespace Sys2Proof.Machine

theorem Encoder.start_low (e : Encoder) : e.start.low = 0 := by simp [Encoder.low, Encoder.start, outNumber]

theorem Encoder.start_shifts (e : Encoder) : e.start.shifts = 0 := by simp [Encoder.shifts, Encoder.start]

/-- `BE.INIT` leaves a sound encoder (R41). -/
theorem Encoder.start_sound (e : Encoder) (size : Nat) : e.start.Sound size := by
  refine ⟨⟨?_, ?_, ?_, ?_, ?_, ?_, fun i hi => ?_, ?_⟩, ?_⟩
  · show 1 ≤ (255 : Byte).toNat; decide
  · show 1 ≤ (24 : BitVec 5).toNat; decide
  · show (24 : BitVec 5).toNat ≤ 24; decide
  · exact fun h => absurd rfl h
  · show (0 : Word).toNat + (255 : Byte).toNat ≤ 2 ^ (33 - (24 : BitVec 5).toNat); decide
  · rw [e.start_low, e.start_shifts]
    show 0 + (255 : Byte).toNat ≤ 255 * 2 ^ 0; decide
  · exact absurd hi (Nat.not_lt_zero i)
  · exact Nat.zero_le size
  · show 128 ≤ (255 : Byte).toNat; decide

theorem outNumber_two (o : Memory 8) :
    outNumber o 2 = ((o.read .buffer 0).getD 0).toNat * 256 + ((o.read .buffer 1).getD 0).toNat := by
  simp [outNumber]

/-- The partition of `d` holds the `n` bytes of the stream `o`. -/
structure Holds (o : Memory 8) (n : Nat) (d : State) : Prop where
  len : d.bdLen.toNat = n
  fits : d.bdBase.toNat + d.bdLen.toNat ≤ d.ibufSize
  bytes : ∀ i, i < n → d.ibuf.read .buffer (d.bdBase.toNat + i) = o.read .buffer i
  written : ∀ i, i < n → (o.read .buffer i).isSome

/-- Opening a partition that holds a stream puts the decoder where the encoder started. -/
theorem Holds.opened {o : Memory 8} {n : Nat} {d : State} (h : Holds o n d) (h2 : 2 ≤ n) (e : Encoder) :
    Sync o e.start (Decoder.opened d.ibuf d.bdBase d.bdLen) ∧
      (Decoder.opened d.ibuf d.bdBase d.bdLen).Reads o n d.ibuf := by
  have hlen := h.len
  have hb : ∀ k, k < 2 → partitionByte d.ibuf d.bdBase d.bdLen k = ((o.read .buffer k).getD 0).toNat := by
    intro k hk
    unfold partitionByte
    rw [if_pos (by omega), h.bytes k (by omega)]
  have h0 := partitionByte_lt d.ibuf d.bdBase d.bdLen 0
  have h1 := partitionByte_lt d.ibuf d.bdBase d.bdLen 1
  have hpos : (Decoder.opened d.ibuf d.bdBase d.bdLen).pos = 2 := by
    show BitVec.ofNat 32 (min 2 d.bdLen.toNat) = 2
    rw [Nat.min_eq_left (by omega)]
    rfl
  refine ⟨⟨rfl, ?_, ?_, ?_, ?_⟩, ⟨hlen, h.bytes, h.written⟩⟩
  · rw [hpos, e.start_shifts]; rfl
  · rw [e.start_shifts]; rfl
  · have hv : (Decoder.opened d.ibuf d.bdBase d.bdLen).value.toNat =
        ((o.read .buffer 0).getD 0).toNat * 256 + ((o.read .buffer 1).getD 0).toNat := by
      rw [← hb 0 (by omega), ← hb 1 (by omega)]
      show (BitVec.ofNat 32 _).toNat = _
      rw [BitVec.toNat_ofNat]
      omega
    rw [hv, e.start_low, hpos, show (2 : Word).toNat = 2 from rfl, outNumber_two,
      show (Decoder.opened d.ibuf d.bdBase d.bdLen).bitcnt.toNat = 0 from rfl]
    simp
  · show decide (d.bdLen.toNat < 2) = false
    simp only [decide_eq_false_iff_not]
    omega

theorem Holds.execBdInit {o : Memory 8} {n : Nat} {d : State} (h : Holds o n d) :
    execBdInit d = .next { d with bd := Decoder.opened d.ibuf d.bdBase d.bdLen } := by
  unfold Sys2Proof.Machine.execBdInit
  rw [if_pos ((partitionFits_iff _ _ _).mpr h.fits), Decoder.openPartition_ok]
  · rfl
  · intro k _ hk
    rw [h.len] at hk
    rw [h.bytes k hk]
    exact h.written k hk

/-- Finishing a stream: if no error is left, the encoder was flushed, and the stream lies in its interval. -/
theorem execBeFlush_window {s t : State} (hs : s.be.Sound s.obufSize) (hsize : s.obufSize < 2 ^ 32) (ha : s.be.active = true)
    (h : execBeFlush s = .next t) (he : t.err = 0) :
    s.be.Window t.be.obuf t.be.len.toNat ∧ (∀ i, i < t.be.len.toNat → (t.be.obuf.read .buffer i).isSome) ∧
      2 ≤ t.be.len.toNat ∧ t = { s with be := t.be } := by
  unfold execBeFlush at h
  rw [whenEncoding, if_pos ha] at h
  by_cases hl : s.be.len.toNat + 4 ≤ s.obufSize
  · obtain ⟨e', h1, h2⟩ := Encoder.flush_ok hsize hs.toCoding hl
    rw [h1] at h
    cases h
    have hlen := h2.len
    refine ⟨?_, fun i hi => h2.written i (by rw [← hlen]; exact hi), by rw [hlen]; omega, rfl⟩
    rw [hlen]
    exact h2.window hs.toCoding
  · obtain ⟨e', h1⟩ := Encoder.flush_full hsize hs.toCoding (by omega)
    rw [h1] at h
    cases h
    exact absurd he (Err.code_ne_zero .bufferBounds)

end Sys2Proof.Machine
end

