-- ==== Sys2Proof/Tests/Slice0.lean ====
section
/-! SUPPORT. Tests of single steps with the results spec/ gives (the rule or vector is named at each), and for every
obligation with hypotheses a witness that they can be met. -/

namespace Sys2Proof.Tests

open Sys2Proof.Machine

/-! ### Small states -/

/-- The outcome is a next state with this property. -/
def after (o : Host.Outcome State Fault Refusal) (p : State → Bool) : Bool :=
  match o with
  | .next t => p t
  | .fault _ => false
  | .refused _ => false

theorem next_of_after {o : Host.Outcome State Fault Refusal} {p : State → Bool} (h : after o p = true) :
    ∃ t, o = .next t ∧ p t = true := by
  cases o with
  | next t => exact ⟨t, rfl, h⟩
  | fault f => exact absurd h (by simp [after])
  | refused f => exact absurd h (by simp [after])

/-- The outcome is this fault. -/
def faults (o : Host.Outcome State Fault Refusal) (f : Fault) : Bool :=
  match o with
  | .next _ => false
  | .fault g => decide (g = f)
  | .refused _ => false

theorem fault_of_faults {o : Host.Outcome State Fault Refusal} {f : Fault} (h : faults o f = true) : o = .fault f := by
  cases o with
  | next t => exact absurd h (by simp [faults])
  | fault g => rw [of_decide_eq_true h]
  | refused g => exact absurd h (by simp [faults])

def R : State := State.reset

/-- The port of a block with `n` bytes of `OBUF`. -/
def roomFor (n : Nat) : Port where
  sizes := ⟨0, n⟩
  busMap := ⟨32, []⟩
  pending := []

/-- Coefficients from slot 0 on, the rest 0. -/
def coefs (l : List Int) : Coefs := Vector.ofFn fun i => BitVec.ofInt 16 (l.getD i 0)

/-- Bytes from index `a` on. -/
def bytesAt (a : Nat) (l : List Nat) : Memory 8 := l.zipIdx.map fun x => (a + x.2, BitVec.ofNat 8 x.1)

/-- The table `T128` of spec/95_test_vectors.md. -/
def T128 : Memory 8 := (List.range 1056).map fun j => (j, 128)

/-- The table `TF` of spec/43_token_walker.md. -/
def TF : Memory 8 := (List.range 1056).map fun j => (j, BitVec.ofNat 8 ((37 * j + 11) % 255 + 1))

/-- Partition `IBUF[0 .. 3]` = 9C 40 A5 00, not opened (R119). -/
def input : State := { R with ibuf := bytesAt 0 [0x9C, 0x40, 0xA5, 0x00], bdLen := 4 }

/-- The same, opened: R119, first row. -/
def decoding : State :=
  { input with
    bd := {
      active := true, eoi := false, lbase := 0, llen := 4, pos := 2, value := 0x9C40, range := 255, bitcnt := 0, qcnt := 0 } }

/-- After `BE.INIT` (R131). -/
def encoding : State :=
  { R with be := { active := true, bottom := 0, range := 255, bitcnt := 24, qcnt := 0, len := 0, obuf := [] } }

/-- Steps of class 0, and the coefficients 21, -21, 0, ... -/
def quantizing : State :=
  { R with
    qstep := { yDc := 10, yAc := 4, y2Dc := 3, y2Ac := 7, uvDc := 5, uvAc := 0 }
    coef := coefs [21, -21] }

def halted : State := { R with err := 5, errInfo := 3, cseq := 4 }

/-! ### Terms that are not commands (R98) -/

theorem test_cat_0 : (Instr.tvDec 0).wellFormed = false := by decide
theorem test_cat_7 : (Instr.tvEnc 7).wellFormed = false := by decide
theorem test_cls_3 : (Instr.qzQuant 3).wellFormed = false ∧ (Instr.qzDequant 3).wellFormed = false := by decide

/-! ### Words written out from R85 to R95, and those of R104 -/

theorem test_word_nop : decode 0b00000000_00000000_00000000_00000000 = .ok .nop := by decide
theorem test_word_bd_get : decode 0b00010001_00000000_00000000_10000000 = .ok (.bdGet 128) := by decide
theorem test_word_bd : decode 0x10000000 = .ok .bdInit ∧ decode 0x12000000 = .ok .bdGetu := by decide
theorem test_word_be_put : decode 0b00100001_00000000_00000001_11001000 = .ok (.bePut true 200) := by decide
theorem test_word_be_putu : decode 0b00100010_00000000_00000001_00000000 = .ok (.bePutu true) := by decide
theorem test_word_be : decode 0x20000000 = .ok .beInit ∧ decode 0x23000000 = .ok .beFlush := by decide
theorem test_word_tv : decode 0b00110000_00000000_00000000_00000110 = .ok (.tvDec 6) ∧ decode 0x31000001 = .ok (.tvEnc 1) := by
  decide
theorem test_word_tw_dec : decode 0b01000000_00000000_00000000_00111100 = .ok (.twDec ⟨0, true, true, true, true, false⟩) := by
  decide
theorem test_word_tw_enc : decode 0b01000001_00000000_00000000_01111010 = .ok (.twEnc ⟨2, false, true, true, true, true⟩) := by
  decide
theorem test_word_brc_clr : decode 0x42000000 = .ok .brcClr := by decide
theorem test_word_qz : decode 0b01010001_00000000_00000000_00000010 = .ok (.qzDequant 2) ∧
    decode 0x50000000 = .ok (.qzQuant 0) ∧ decode 0x52000000 = .ok .qzTakedc := by decide
theorem test_word_reserved : decode 0x01000000 = .error (.reservedOpcode 1) ∧ decode 0x11000100 = .error (.reservedBit 0x11) := by
  decide
theorem test_decodeTableWord : decodeTableWord 32 0x210001C8 = some (.bePut true 200) ∧ decodeTableWord 32 0x01000000 = none := by
  decide

/-! ### One command each -/

/-- R245. -/
theorem test_nop : after (step (R.withFetchWord 32 0)) (fun t => t.cseq = 1 && t.err = 0) = true := by decide +kernel

/-- R119, `BD.INIT`. -/
theorem test_bd_init : after (exec .bdInit input) (fun t => decide (t.bd = decoding.bd)) = true := by decide +kernel

/-- BD2: an empty partition. -/
theorem test_bd_init_empty :
    after (exec .bdInit R) (fun t => t.status = 0x0000000A && t.bd.pos = 0 && t.bd.value = 0) = true := by decide +kernel

/-- R119, `BD.GET 128`. -/
theorem test_bd_get : after (exec (.bdGet 128) decoding) (fun t =>
    t.bitr && t.bd.value = 0x3880 && t.bd.range = 254 && t.bd.bitcnt = 1 && t.bd.pos = 2 && t.bd.qcnt = 1) = true := by
  decide +kernel

/-- R120, the ninth query: a byte is fetched. -/
theorem test_bd_getu_fetch : after (exec .bdGetu { R with
      ibuf := bytesAt 10 [0x12, 0x34, 0x56]
      bd := {
        active := true, eoi := false, lbase := 10, llen := 3, pos := 2, value := 0x1A00, range := 128, bitcnt := 7, qcnt := 8 } })
    (fun t => !t.bitr && t.bd.value = 0x3456 && t.bd.bitcnt = 0 && t.bd.pos = 3 && !t.bd.eoi) = true := by decide +kernel

/-- R131. -/
theorem test_be_init : after (exec .beInit R) (fun t => decide (t.be = encoding.be)) = true := by decide +kernel

/-- BE2: seven shifts. -/
theorem test_be_put : after (exec (.bePut true 255) encoding) (fun t =>
    t.be.bottom = 0x7F00 && t.be.range = 128 && t.be.bitcnt = 17 && t.be.len = 0 && t.be.qcnt = 1) = true := by
  decide +kernel

/-- R140, continued: the carry ripples through 7F FF FF, and a byte 00 is appended. -/
theorem test_be_put_carry : after (exec (.bePut true 255) { encoding with
      be := {
        active := true, bottom := 0x01FFFF80, range := 192, bitcnt := 7, qcnt := 12, len := 3, obuf := bytesAt 0 [0x7F, 0xFF, 0xFF] } })
    (fun t => decide (t.be.obuf = bytesAt 0 [0x80, 0, 0, 0]) && t.be.bottom = 0x1F80 && t.be.bitcnt = 8) = true := by
  decide +kernel

/-- BE5. -/
theorem test_be_putu : after (exec (.bePutu true) encoding) (fun t =>
    t.be.bottom = 0x100 && t.be.range = 254 && t.be.bitcnt = 23) = true := by decide +kernel

/-- BE7, the twenty-fifth query: the first byte. -/
theorem test_be_putu_byte : after (exec (.bePutu false)
      { encoding with be := { encoding.be with range := 128, bitcnt := 1, qcnt := 24 } })
    (fun t => t.be.bitcnt = 8 && t.be.len = 1 && t.be.obuf.read .buffer 0 = some 0) = true := by decide +kernel

/-- BE5, the flush: 80 00 00 00. -/
theorem test_be_flush : after (exec .beFlush { encoding with be := { encoding.be with bottom := 0x100, range := 254, bitcnt := 23 } })
    (fun t => !t.be.active && t.be.len = 4 && decide (t.be.obuf = bytesAt 0 [0x80, 0, 0, 0])) = true := by decide +kernel

/-- R141: a carry found by the flush. -/
theorem test_be_flush_carry : after (exec .beFlush
      { encoding with be := {
          active := true, bottom := 0x10000000, range := 128, bitcnt := 4, qcnt := 9, len := 1, obuf := [(0, 0x7F)] } })
    (fun t => t.be.len = 5 && decide (t.be.obuf = bytesAt 0 [0x80, 0, 0, 0, 0])) = true := by decide +kernel

/-- TV1: category 1, value 6, from the stream 9E 00 00 00. -/
theorem test_tv_dec : after (exec (.tvDec 1) { R with
      ibuf := bytesAt 0 [0x9E, 0, 0, 0]
      bd := { decoding.bd with value := 0x9E00 } })
    (fun t => t.val = 6 && t.bd.qcnt = 1 && !t.bitr) = true := by decide +kernel

/-- TV1: category 2, value 10. -/
theorem test_tv_enc : after (exec (.tvEnc 2) { encoding with val := 10 })
    (fun t => t.be.bottom = 0x35E && t.be.range = 158 && t.be.bitcnt = 22 && t.be.qcnt = 2) = true := by decide +kernel

/-- TV3: a magnitude outside the category. -/
theorem test_tv_enc_range : after (exec (.tvEnc 2) { encoding with val := 11, cseq := 2 })
    (fun t => t.err = 2 && t.errInfo = 1 && decide (t.be = encoding.be)) = true := by decide +kernel

/-- TW2, decoding side: the stream F0 20 C0 00. -/
theorem test_tw_dec : after (exec (.twDec ⟨0, false, false, false, false, false⟩) { R with
      prob := T128
      ibuf := bytesAt 0 [0xF0, 0x20, 0xC0, 0]
      bd := { decoding.bd with value := 0xF020 } })
    (fun t => decide (t.coef = coefs [5, -1]) && t.tw.pos = 2 && t.tw.ctx = 1 && t.tw.eob && t.bd.qcnt = 13) = true := by
  decide +kernel

/-- TW7: a magnitude of 2114, negative. -/
theorem test_tw_enc : after (exec (.twEnc ⟨0, false, false, false, false, false⟩)
      { encoding with prob := T128, coef := coefs [-2114] })
    (fun t => t.be.qcnt = 20 && t.tw.pos = 1 && t.tw.ctx = 2 && t.tw.eob && t.brc.get 21 = 1 && t.brc.get 110 = 1) = true := by
  decide +kernel

/-- TW9: `AP` = 1, `ANZ` = 1, `LP` = 0, `LNZ` = 1: the one query uses `PROB[11]` = 164, and `BRC[22]` counts. -/
theorem test_tw_enc_neighbours : after (exec (.twEnc ⟨0, false, true, true, false, true⟩) { encoding with prob := [(11, 164)] })
    (fun t => t.err = 0 && t.be.qcnt = 1 && t.tw.ctx = 1 && decide (t.brc = [(22, 1)])) = true := by decide +kernel

/-- BRC2. -/
theorem test_brc_clr : after (exec .brcClr { R with brc := [(5, 7)] }) (fun t => t.brc.get 5 = 0) = true := by decide +kernel

/-- QZ3. -/
theorem test_qz_quant : after (exec (.qzQuant 1) { quantizing with
      coef := coefs [10, -10, 20, -20, 6, -6, 7, -7, 8, 0, 0, 0, 0, 0, 0, -50] })
    (fun t => decide (t.coef = coefs [3, -1, 2, -2, 0, 0, 1, -1, 1, 0, 0, 0, 0, 0, 0, -7])) = true := by decide +kernel

/-- QZ5: a zero AC step is refused though no AC term is nonzero. -/
theorem test_qz_quant_zero : after (exec (.qzQuant 2) { quantizing with coef := coefs [10] })
    (fun t => t.err = 6 && decide (t.coef = coefs [10])) = true := by decide +kernel

/-- QZ4. -/
theorem test_qz_dequant : after (exec (.qzDequant 1) { quantizing with
      coef := coefs [3, -1, 2, -2, 0, 0, 1, -1, 1, 0, 0, 0, 0, 0, 0, -7] })
    (fun t => decide (t.coef = coefs [9, -7, 14, -14, 0, 0, 7, -7, 7, 0, 0, 0, 0, 0, 0, -49])) = true := by decide +kernel

/-- QZ9: 4096 * 8 does not fit. -/
theorem test_qz_dequant_range : after (exec (.qzDequant 0) { R with
      qstep := { R.qstep with yDc := 8, yAc := 8 }
      coef := coefs [4095, 4096] })
    (fun t => t.err = 2 && decide (t.coef = coefs [4095, 4096])) = true := by decide +kernel

/-- QZ12. -/
theorem test_qz_takedc : after (exec .qzTakedc { R with coef := coefs [-1] })
    (fun t => csrRead t 6 = 0xFFFFFFFF && !t.hasNz) = true := by decide +kernel

/-! ### The decisions of a walk -/

/-- The thirteen queries of R205. -/
theorem test_decisions_R205 :
    (({ R with prob := T128, coef := coefs [5, -1] } : State).walkDecisions ⟨0, false, false, false, false, false⟩ 2).map
      (fun d => (d.bit, d.prob)) =
    [(true, 128), (true, 128), (true, 128), (true, 128), (false, 128), (false, 128), (false, 159), (false, 128), (true, 128),
      (true, 128), (false, 128), (true, 128), (false, 128)] := by decide +kernel

/-- The ten queries of R208 with the nine counters, table `TF`. -/
theorem test_decisions_R208 :
    (({ R with prob := TF, coef := coefs [0, 0, 0, 0, 3] } : State).walkDecisions ⟨2, false, false, false, false, false⟩ 3).map
      (fun d => (d.bit, d.prob, d.counter)) =
    [(true, 168, some 1057), (false, 205, some 1058), (false, 151, some 1124), (true, 97, some 1191), (true, 134, some 1193),
      (false, 171, some 1194), (true, 208, some 1197), (false, 245, some 1198), (false, 128, none),
      (false, 55, some 1298)] := by decide +kernel

/-! ### Host transactions -/

/-- BRC3: the counters are read-only for the host. -/
theorem test_write_brc : after (step (R.withHost [.write (.brc 5) 77])) (fun t => decide (t.brc = [])) = true := by
  decide +kernel

/-- R248: a coefficient takes the low 16 bits; R31: `HAS_NZ` follows. -/
theorem test_write_coef : after (step (R.withHost [.write (.coef 3) 0x1FFFF]))
    (fun t => t.c 3 = -1 && t.status = 0x10) = true := by decide +kernel

/-- R246: the way out of a halted state. -/
theorem test_reset : after (step (halted.withHost [.reset])) (fun t => t.err = 0 && t.cseq = 0) = true := by
  decide +kernel

/-- R271: a halted block counts nothing. -/
theorem test_halted_command : after (step (halted.withHost [.cmd 0])) (fun t => t.cseq = 4 && t.errInfo = 3) = true := by
  decide +kernel

/-! ### Witnesses: the hypotheses of each obligation can be met, clause by clause -/

theorem witness_EncodeOfDecode : decode 0x4100007A = .ok (.twEnc ⟨2, false, true, true, true, true⟩) := by decide

theorem witness_ReservedWord : R.err = 0 ∧
    (∀ i : Instr, (0x01000000 : Word).extractLsb' 24 8 ≠ (matchOf i).extractLsb' 24 8) ∧
    ((0x11000100 : Word).extractLsb' 24 8 = (matchOf (.bdGet 0)).extractLsb' 24 8 ∧
      (0x11000100 : Word) &&& maskOf (.bdGet 0) ≠ matchOf (.bdGet 0)) ∧
    ((0x30000007 : Word).extractLsb' 24 8 = 0x30 ∧ (0x30000007 : Word).extractLsb' 0 3 = 7) ∧
    ((0x51000003 : Word).extractLsb' 24 8 = 0x51 ∧ (0x51000003 : Word).extractLsb' 0 2 = 3) :=
  ⟨rfl, fun i => by cases i <;> (simp only [matchOf]; decide), by decide, by decide, by decide⟩

theorem witness_WorkedEncodings : R.err = 0 ∧ R.bd.active = false ∧ decoding.err = 0 ∧ decoding.bd.active = true := by decide

theorem witness_StepRunsDecodedCommand : (R.withHost [.cmd 0x10000000]).host = .cmd 0x10000000 :: [] ∧
    R.err = 0 ∧ decode 0x10000000 = .ok .bdInit := by decide

theorem witness_HaltedBlockIgnoresHost : halted.err ≠ 0 ∧
    ∀ t : HostTx halted.sizes, (halted.withHost [t]).host = t :: [] := ⟨by decide, fun _ => rfl⟩

theorem witness_ResetIsTheOnlyWayOut : (R.withHost [.reset]).host = .reset :: [] ∧ halted.err ≠ 0 ∧
    (∀ rest, (halted.withHost [.cmd 0]).host ≠ .reset :: rest) ∧
    ∃ t, step (halted.withHost [.cmd 0]) = .next t := by
  refine ⟨rfl, by decide, fun rest h => ?_, _, rfl⟩
  cases (List.cons.inj h).1

theorem witness_AcceptedCommandsAreCounted :
    (∀ x ∈ ([.cmd 0, .reset, .read (.csr 0), .write (.prob 1055) 1] : List (HostTx R.sizes)), ∃ t, step (R.withHost [x]) = .next t) ∧
    ∃ t, step (halted.withHost [.cmd 0]) = .next t := by
  refine ⟨?_, _, rfl⟩
  simp only [List.forall_mem_cons]
  exact ⟨⟨_, rfl⟩, ⟨_, rfl⟩, ⟨_, rfl⟩, ⟨_, rfl⟩, by simp⟩

theorem witness_ErrorNamesItsCommand : R.err = 0 ∧
    (∃ t, step (R.withHost [.cmd 0x01000000]) = .next t ∧ t.err ≠ 0) ∧
    ∃ t, step (R.withHost [.cmd 0]) = .next t ∧ t.err = 0 :=
  ⟨rfl, ⟨_, rfl, by decide⟩, _, rfl, rfl⟩

theorem witness_HostWriteSetsOneElement : R.err = 0 ∧ R.midHalt = false ∧
    (∀ e : Element R.sizes, (R.withHost [.write e 1]).host = .write e 1 :: []) ∧
    (.csr 0 : Element R.sizes) ≠ .csr 7 ∧ (.ibuf ⟨65535, by decide⟩ : Element R.sizes) ≠ .ibuf ⟨0, by decide⟩ :=
  ⟨rfl, rfl, fun _ => rfl, by decide, by decide⟩

theorem witness_HostReadIsIdempotent :
    ∀ e : Element R.sizes, (R.withHost [.read e, .read e]).host = .read e :: .read e :: [] := fun _ => rfl

theorem witness_StatusBits : R.midHalt = false := rfl

/-- A bus of 16 bits with a coefficient on its low half, a byte of `IBUF` on its high half, and the command port. -/
def onBus : State :=
  { R with
    port := {
      sizes := ⟨4, 4⟩
      busMap := { width := 16, cells := [⟨0x100, 0, .element (.coef 3)⟩, ⟨0x102, 8, .element (.ibuf 3)⟩, ⟨0x104, 0, .commandPort⟩] }
      pending := [] } }

theorem witness_BusAccessIsItsTransaction :
    (∀ c ∈ onBus.port.busMap.cells, c.address ≠ 0x106) ∧
    (∀ c ∈ onBus.port.busMap.cells, ∀ c' ∈ onBus.port.busMap.cells, c'.address = c.address → c' = c) ∧
    onBus.onBus (.write 0x102 0xAB00) = some (onBus.withHost [.write (.ibuf ⟨3, by decide⟩) 0xAB]) ∧
    onBus.onBus (.write 0x104 0x12) = some (onBus.withHost [.cmd 0x12]) := by decide

theorem witness_UnitPreconditions : R.bd.active = false ∧ R.be.active = false ∧ (1 : BitVec 3) ≠ 0 ∧ (1 : BitVec 3) ≠ 7 ∧
    R.err = 0 ∧ (∃ t, exec (.bdGet 1) R = .next t ∧ t.err = 5) ∧ ∃ t, exec .beFlush R = .next t ∧ t.err = 5 :=
  ⟨rfl, rfl, by decide, by decide, rfl, ⟨_, rfl, rfl⟩, _, rfl, rfl⟩

theorem witness_ZeroProbabilityOperand : decoding.bd.active = true ∧ encoding.be.active = true := by decide

/-- From position 0 and from position 1. -/
theorem witness_UnloadedTableStopsAWalk :
    (0 : Fin 16).val = firstPosition ⟨0, false, false, false, false, false⟩ ∧
    (1 : Fin 16).val = firstPosition ⟨3, true, true, true, true, true⟩ ∧
    (∀ o : WalkOperands, ∀ i, decoding.prob.get (probIndex ⟨o.bt, tables.band i, initialContext o⟩ 0) = 0) ∧
    (∀ o : WalkOperands, ∀ i, encoding.prob.get (probIndex ⟨o.bt, tables.band i, initialContext o⟩ 0) = 0) ∧
    decoding.err = 0 ∧ decoding.bd.active = true ∧ encoding.err = 0 ∧ encoding.be.active = true ∧
    ∀ j : Fin 16, (encoding.c (tables.zigzag j)).natAbs ≤ 2114 :=
  ⟨rfl, rfl, fun _ _ => rfl, fun _ _ => rfl, rfl, rfl, rfl, rfl, by decide +kernel⟩

theorem witness_RangeViolationBeforeAnyChange :
    (encoding.be.active = true ∧ 2114 < (({ encoding with coef := coefs [-2115] } : State).c (tables.zigzag 0)).natAbs) ∧
    ((1 : Fin 16) ≠ 0 ∧ 2114 < (({ encoding with coef := coefs [0, 2115] } : State).c (tables.zigzag 1)).natAbs) ∧
    (categoryOf 1 = some .cat1 ∧ 4 < (tables.category .cat1).base ∧ (tables.category .cat1).base + 2 ^ 1 ≤ 7) ∧
    (stepsOf quantizing.qstep 0 = some (10, 4) ∧ 32767 < ({ R with coef := coefs [0, 8192] } : State).c 1 * 4 ∧
      ({ R with coef := coefs [-3277] } : State).c 0 * 10 < -32768) ∧
    after (exec (.tvEnc 1) { encoding with val := 7 }) (fun t => t.err = 2) = true := by decide +kernel

theorem witness_CodesByCommand : R.err = 0 ∧
    after (exec (.tvDec 0) R) (fun t => t.err = 3) = true ∧
    after (exec (.bdGet 0) decoding) (fun t => t.err = 4) = true ∧
    after (exec (.bePut true 0) encoding) (fun t => t.err = 4) = true ∧
    after (exec (.twDec ⟨0, false, false, false, false, false⟩) decoding) (fun t => t.err = 4) = true ∧
    after (exec (.twEnc ⟨0, false, false, false, false, false⟩) encoding) (fun t => t.err = 4) = true ∧
    after (exec (.qzQuant 2) quantizing) (fun t => t.err = 6) = true ∧
    after (exec .bdInit { R with bdLen := 65537 }) (fun t => t.err = 7) = true ∧
    after (exec .beFlush { encoding with port := roomFor 3 }) (fun t => t.err = 7) = true := by decide +kernel

theorem witness_EarlyErrorsChangeNothingElse : R.err = 0 ∧
    after (exec (.qzDequant 0) { quantizing with coef := coefs [4000] }) (fun t => t.err = 2) = true ∧
    after (exec (.qzQuant 3) R) (fun t => t.err = 3) = true ∧ after (exec .bdGetu R) (fun t => t.err = 5) = true ∧
    after (exec (.qzQuant 0) R) (fun t => t.err = 6) = true := by decide +kernel

/-- A partition that ends at the end of `IBUF` (of 0, 1 and 2 bytes), and one that passes it. -/
theorem witness_BdInitOpensPartition :
    (65536 : Word).toNat + (0 : Word).toNat ≤ R.ibufSize ∧
    ((65535 : Word).toNat + (1 : Word).toNat ≤ R.ibufSize ∧ ((bytesAt 65535 [7]).read .buffer 65535).isSome) ∧
    ((65534 : Word).toNat + (2 : Word).toNat ≤ R.ibufSize ∧
      ∀ k, k < 2 → ((bytesAt 65534 [7, 8]).read .buffer (65534 + k)).isSome) ∧
    R.ibufSize < (65535 : Word).toNat + (2 : Word).toNat := by decide +kernel

/-- A query without a fetch, one with a fetch, one beyond the end of the partition. -/
theorem witness_DecodeQueryResult : (1 : Byte) ≠ 0 ∧ decoding.bd.active = true ∧ 128 ≤ decoding.bd.range.toNat ∧
    decoding.bd.NextWritten decoding.ibuf ∧ ({ decoding.bd with bitcnt := 7 } : Decoder).NextWritten decoding.ibuf ∧
    ({ decoding.bd with bitcnt := 7, pos := 4 } : Decoder).NextWritten decoding.ibuf :=
  ⟨by decide, rfl, by decide, fun _ => by decide, fun _ => by decide, fun h => absurd h (by decide)⟩

theorem witness_DecodeQueryFacts : decoding.bd.active = true ∧ 128 ≤ decoding.bd.range.toNat ∧ (128 : Byte) ≠ 0 ∧
    (∃ t, exec (.bdGet 128) decoding = .next t) ∧ decoding.bd.value.toNat < decoding.bd.range.toNat * 256 :=
  ⟨rfl, by decide, by decide, (next_of_after test_bd_get).imp fun _ h => h.1, by decide⟩

/-- No byte of the partition is written: with 0 and with 7 shifts made since the last fetch. -/
theorem witness_UnwrittenInputStopsADecode : (128 : Byte) ≠ 0 ∧ decoding.bd.active = true ∧
    128 ≤ decoding.bd.range.toNat ∧ decoding.bd.pos.toNat < decoding.bd.llen.toNat ∧
    (∀ a, Memory.read .buffer ([] : Memory 8) a = none) ∧
    (∃ t, exec (.bdGet 128) { decoding with ibuf := [] } = .next t) ∧
    exec (.bdGet 128) { decoding with ibuf := [], bd := { decoding.bd with bitcnt := 7 } } = .fault .unwrittenInput ∧
    (0 : Word).toNat + (4 : Word).toNat ≤ R.ibufSize ∧ (bytesAt 0 [1]).read .buffer (0 + 1) = none :=
  ⟨by decide, rfl, by decide, by decide, fun _ => rfl,
    (next_of_after (p := fun _ => true) (by decide +kernel)).imp fun _ h => h.1, fault_of_faults (by decide +kernel), by decide, by decide⟩

/-- One shift away from the next byte. -/
def nearByte : Encoder :=
  { active := true, bottom := 0, range := 128, bitcnt := 1, qcnt := 24, len := 0, obuf := [] }

theorem nearByte_sound (size : Nat) : nearByte.Sound size :=
  ⟨⟨by decide, by decide, by decide, fun h => absurd rfl h, by decide, by decide, fun i hi => absurd hi (Nat.not_lt_zero i),
    Nat.zero_le size⟩, by decide⟩

/-- R141: a carry pending. -/
def carrying : Encoder :=
  { active := true, bottom := 0x10000000, range := 128, bitcnt := 4, qcnt := 9, len := 1, obuf := [(0, 0x7F)] }

theorem carrying_sound : carrying.Sound 65536 :=
  ⟨⟨by decide, by decide, by decide, fun _ => by decide, by decide, by decide, fun i hi => by
    obtain rfl : i = 0 := Nat.lt_one_iff.mp hi
    rfl, by decide⟩, by decide⟩

/-- No byte due; a byte due and room; a byte due and no room. -/
theorem witness_EncodeQueryResult : (255 : Byte) ≠ 0 ∧ encoding.err = 0 ∧ encoding.be.active = true ∧
    encoding.be.Sound encoding.obufSize ∧ encoding.obufSize < 2 ^ 32 ∧ (0 : Nat) < encoding.be.bitcnt.toNat ∧
    (nearByte.Sound 65536 ∧ nearByte.bitcnt.toNat ≤ 1 ∧ nearByte.len.toNat < 65536) ∧
    (nearByte.Sound 0 ∧ nearByte.bitcnt.toNat ≤ 1 ∧ nearByte.len.toNat = 0) ∧
    after (exec (.bePut false 128) { encoding with be := nearByte, port := roomFor 0 }) (fun t => t.err = 7) = true :=
  ⟨by decide, rfl, rfl, Encoder.start_sound Encoder.reset _, by decide, by decide,
    ⟨nearByte_sound _, by decide, by decide⟩, ⟨nearByte_sound _, by decide, by decide⟩, by decide +kernel⟩

/-- Room and no carry; a carry; no room. -/
theorem witness_BeFlushEndsStream : encoding.err = 0 ∧ encoding.be.active = true ∧
    encoding.be.Sound encoding.obufSize ∧ encoding.obufSize < 2 ^ 32 ∧ encoding.be.len.toNat + 4 ≤ encoding.obufSize ∧
    encoding.be.bottom.getLsbD (32 - encoding.be.bitcnt.toNat) = false ∧
    (carrying.Sound 65536 ∧ carrying.bottom.getLsbD (32 - carrying.bitcnt.toNat) = true) ∧
    (nearByte.Sound 3 ∧ 3 < nearByte.len.toNat + 4) :=
  ⟨rfl, rfl, Encoder.start_sound Encoder.reset _, by decide, by decide, by decide, ⟨carrying_sound, by decide⟩,
    nearByte_sound _, by decide⟩

/-- The stream of BE5: `BE.PUT 1, 128`, flushed. -/
def coded : State :=
  { R with
    cseq := 3
    be := {
      active := false, bottom := 0x100, range := 254, bitcnt := 23, qcnt := 1, len := 4, obuf := bytesAt 0 [0x80, 0, 0, 0] } }

/-- A partition that holds it. -/
def copied : State := { R with ibuf := bytesAt 0 [0x80, 0, 0, 0], bdLen := 4 }

theorem copied_holds : HoldsStream coded copied := ⟨rfl, by decide, by decide⟩

theorem witness_DecodeInvertsEncode : R.obufSize < 2 ^ 32 ∧
    presentAll (encode .beInit :: [(true, (128 : Byte))].map (fun q => encode (.bePut q.1 q.2)) ++ [encode .beFlush]) R =
      some coded ∧ coded.err = 0 ∧ copied.err = 0 ∧ HoldsStream coded copied :=
  ⟨by decide, by decide +kernel, rfl, rfl, copied_holds⟩

/-- A byte of `IBUF` the host has written, and a byte of `OBUF` the encoder has. -/
theorem witness_RegisterMap : R.err = 0 ∧ 27 ≤ (27 : Fin 64).val ∧ input.err = 0 ∧ 0 < input.ibufSize ∧
    input.ibuf.read .buffer 0 = some 0x9C ∧ coded.err = 0 ∧ 0 < coded.obufSize ∧ 0 < coded.be.len.toNat ∧
    (coded.be.obuf.read .buffer 0).isSome := by decide +kernel

theorem witness_EveryMagnitudeHasOneCoding : 1 ≤ 1 ∧ 4 ≤ 4 ∧ 5 ≤ 5 ∧ 2114 ≤ 2114 ∧ 2114 < 2115 ∧
    (tvOffset .cat1 5).isSome ∧ (tvOffset .cat6 2114).isSome := by decide

/-! The two coder halves at work, with the table `T128` loaded. -/

theorem find_range (v : Byte) (n a j : Nat) (h1 : a ≤ j) (h2 : j < a + n) :
    Memory.find ((List.range' a n).map fun j => (j, v)) j = some v := by
  induction n generalizing a with
  | zero => omega
  | succ n ih =>
    simp only [List.range'_succ, List.map_cons, Memory.find]
    split_ifs with h
    · rfl
    · exact ih (a + 1) (by omega) (by omega)

theorem T128_get {j : Nat} (h : j < 1056) : Memory.get T128 j = 128 := by
  unfold T128 Memory.get Memory.read
  rw [List.range_eq_range', find_range 128 1056 0 j (Nat.zero_le j) (by omega)]
  rfl

theorem loaded_of_get {m : Memory 8} (h : ∀ j, j < 1056 → m.get j = 128) (s : State) (bt : BitVec 2) :
    ({ s with prob := m } : State).Loaded bt := by
  intro band ctx node
  show m.get _ ≠ 0
  rw [h _ (probIndex_lt _ _)]
  decide

theorem T128_loaded (s : State) (bt : BitVec 2) : ({ s with prob := T128 } : State).Loaded bt :=
  loaded_of_get (fun _ h => T128_get h) s bt

theorem T128_wf : T128.wf .table := by
  constructor
  · have : T128.map Prod.fst = List.range 1056 := by simp [T128, Function.comp_def]
    rw [this]
    exact List.pairwise_lt_range
  · intro c hc
    obtain ⟨j, -, rfl⟩ := List.mem_map.mp hc
    exact by simp [Backing.unlisted]

theorem T128_within : T128.within 1056 := by
  intro c hc
  obtain ⟨j, hj, rfl⟩ := List.mem_map.mp hc
  exact List.mem_range.mp hj

theorem input_written : decoding.bd.InputWritten decoding.ibuf := by
  intro k h1 h2
  have h3 : (2 : Word).toNat = 2 := rfl
  have h4 : (4 : Word).toNat = 4 := rfl
  have hk : k = 2 ∨ k = 3 := by
    have h1 : (2 : Word).toNat ≤ k := h1
    have h2 : k < (4 : Word).toNat := h2
    omega
  rcases hk with rfl | rfl <;> decide

theorem decoding_inv : decoding.Inv :=
  ⟨⟨by decide, by decide, by decide, by decide, by decide, by decide, by decide, by decide⟩,
    fun _ => ⟨fun _ => by decide, fun h => absurd h (by decide)⟩, by decide, by decide, by decide, by decide, by decide,
    fun _ => rfl, by decide, fun h => absurd h (by decide), by decide⟩

theorem encoding_inv : encoding.Inv :=
  ⟨⟨by decide, by decide, by decide, by decide, by decide, by decide, by decide, by decide⟩,
    fun _ => ⟨fun h => absurd h (by decide), fun _ => Encoder.start_sound Encoder.reset _⟩, by decide, by decide, by decide,
    by decide, by decide, fun _ => rfl, by decide, fun h => absurd h (by decide), by decide⟩

theorem decoding_with_inv {m : Memory 8} (h1 : m.wf .table) (h2 : m.within 1056) : ({ decoding with prob := m } : State).Inv :=
  { decoding_inv with
    spaces := { decoding_inv.spaces with prob_wf := h1, prob_within := h2 }
    coders := fun h => ⟨(decoding_inv.coders h).bd_range, (decoding_inv.coders h).be_sound⟩ }

theorem encoding_with_inv {m : Memory 8} (h1 : m.wf .table) (h2 : m.within 1056) : ({ encoding with prob := m } : State).Inv :=
  { encoding_inv with
    spaces := { encoding_inv.spaces with prob_wf := h1, prob_within := h2 }
    coders := fun h => ⟨(encoding_inv.coders h).bd_range, (encoding_inv.coders h).be_sound⟩ }

theorem witness_TvDecReadsAnOffset : categoryOf 1 = some .cat1 ∧ categoryOf 6 = some .cat6 ∧ decoding.Inv ∧
    decoding.err = 0 ∧ decoding.bd.active = true ∧ decoding.bd.InputWritten decoding.ibuf :=
  ⟨rfl, rfl, decoding_inv, rfl, rfl, input_written⟩

/-- The two ends of category 1, with room and without. -/
theorem witness_TvEncWritesAnOffset : categoryOf 1 = some .cat1 ∧ encoding.Inv ∧ encoding.err = 0 ∧
    encoding.be.active = true ∧ (5 : BitVec 16).toNat = (tables.category .cat1).base + 0 ∧
    (6 : BitVec 16).toNat = (tables.category .cat1).base + 1 ∧ 1 < 2 ^ (tables.category .cat1).probs.length ∧
    after (exec (.tvEnc 1) { encoding with val := 5 }) (fun t => t.err = 0) = true ∧
    after (exec (.tvEnc 1) { encoding with val := 6, be := nearByte, port := roomFor 0 }) (fun t => t.err = 7) = true :=
  ⟨rfl, encoding_inv, rfl, rfl, rfl, rfl, by decide, by decide +kernel, by decide +kernel⟩

theorem witness_TableIndices : brcIndex ⟨3, 7, 2⟩ 10 true = 2111 ∧
    brcIndex ⟨3, 7, 2⟩ 10 true = brcIndex ⟨3, 7, 2⟩ 10 true := by decide

/-- The result is a value. -/
def fine {α : Type} : Res State α → Bool
  | .ok _ _ => true
  | .raise _ _ => false
  | .stop _ => false

theorem witness_OneCounterPerTreeDecision :
    fine (treeGet ⟨0, 0, 0⟩ 0 { decoding with prob := [(0, 128)] }) = true ∧
    fine (treePut ⟨0, 0, 0⟩ 0 true { encoding with prob := [(0, 128)] }) = true ∧
    fine (tvDec .cat1 decoding) = true ∧ fine (tvEnc .cat1 6 encoding) = true ∧ fine (getQuery 128 decoding) = true ∧
    fine (putQuery true 128 encoding) = true := by decide +kernel

/-- With the table loaded, and without it. -/
theorem witness_TwDecDecodesABlock : ({ decoding with prob := T128 } : State).Inv ∧ decoding.err = 0 ∧
    decoding.bd.active = true ∧ decoding.bd.InputWritten decoding.ibuf ∧
    ({ decoding with prob := T128 } : State).Loaded 0 ∧ decoding.Inv ∧
    after (exec (.twDec ⟨0, false, false, false, false, false⟩) decoding) (fun t => t.err = 4) = true :=
  ⟨decoding_with_inv T128_wf T128_within, rfl, rfl, input_written, T128_loaded decoding 0, decoding_inv, by decide +kernel⟩

/-- An all-zero block (`n` = 0), with the table loaded and room, and without the table. -/
theorem witness_TwEncEncodesABlock : ({ encoding with prob := T128 } : State).Inv ∧ encoding.err = 0 ∧
    encoding.be.active = true ∧ (∀ j : Fin 16, (encoding.c (tables.zigzag j)).natAbs ≤ 2114) ∧
    firstPosition ⟨0, false, false, false, false, false⟩ ≤ 0 ∧ (∀ j : Fin 16, encoding.c (tables.zigzag j) = 0) ∧
    ({ encoding with prob := T128 } : State).Loaded 0 ∧ encoding.be.len.toNat + 304 ≤ encoding.obufSize ∧ encoding.Inv ∧
    after (exec (.twEnc ⟨0, false, false, false, false, false⟩) encoding) (fun t => t.err = 4) = true :=
  ⟨encoding_with_inv T128_wf T128_within, rfl, rfl, by decide +kernel, by decide, by decide +kernel,
    T128_loaded encoding 0, by decide,
    encoding_inv, by decide +kernel⟩

/-- A whole block of ones (`n` = 16), and the same with no room in the buffer. -/
theorem witness_TwEncEncodesABlock_whole :
    (∀ j : Fin 16, ({ encoding with coef := Vector.replicate 16 1 } : State).c (tables.zigzag j) = 1) ∧
    after (exec (.twEnc ⟨0, false, false, false, false, false⟩) { encoding with coef := Vector.replicate 16 1, prob := T128 })
      (fun t => t.err = 0 && t.tw.pos = 16 && !t.tw.eob) = true ∧
    after (exec (.twEnc ⟨0, false, false, false, false, false⟩)
      { encoding with coef := Vector.replicate 16 1, prob := T128, port := roomFor 0 }) (fun t => t.err = 7) = true := by
  decide +kernel

theorem witness_ZeroBlockIsOneEndOfBlock : encoding.err = 0 ∧ encoding.be.active = true ∧
    (0 : Fin 16).val = firstPosition ⟨0, false, false, false, false, false⟩ ∧
    (∀ j : Fin 16, encoding.c (tables.zigzag j) = 0) ∧
    ({ encoding with prob := [(0, 128)] } : State).prob.get
      (probIndex ⟨0, tables.band 0, initialContext ⟨0, false, false, false, false, false⟩⟩ 0) = 128 ∧
    after (exec (.bePut false 128) { encoding with prob := [(0, 128)] }) (fun t => t.err = 0) = true := by decide +kernel

/-- The all-zero block of TW1, coded from a running encoder with `PROB[0]` = 128 and decoded again. -/
theorem witness_BlocksSurviveTheRoundTrip : encoding.Inv ∧ encoding.err = 0 ∧
    ∃ a b e : State, ∃ ws, present (encode .beInit) { encoding with prob := [(0, 128)] } = .next a ∧
      encodeBlocks [(⟨0, false, false, false, false, false⟩, coefs [])] a = some (ws, b) ∧
      present (encode .beFlush) b = .next e ∧ e.err = 0 ∧ e.be.len = 4 ∧
      ∃ d : State, d.err = 0 ∧ d.prob = [(0, 128)] ∧ HoldsStream e d := by
  refine ⟨encoding_inv, rfl, _, _, _, _, rfl, rfl, rfl, rfl, by decide +kernel,
    { R with prob := [(0, 128)], ibuf := bytesAt 0 [0, 0, 0, 0], bdLen := 4 }, rfl, rfl, ?_, by decide, ?_⟩
  · decide +kernel
  · decide +kernel

theorem witness_QuantDividesTowardZero : quantizing.qstep.yDc ≠ 0 ∧ quantizing.qstep.yAc ≠ 0 ∧
    quantizing.qstep.y2Dc ≠ 0 ∧ quantizing.qstep.y2Ac ≠ 0 ∧
    (⟨0, 0, 0, 0, 65535, 1⟩ : Steps).uvDc ≠ 0 ∧ (⟨0, 0, 0, 0, 65535, 1⟩ : Steps).uvAc ≠ 0 := by decide

theorem witness_StepZero : stepsOf quantizing.qstep 2 = some (5, 0) ∧ stepsOf R.qstep 0 = some (0, 0) := by decide

/-- Products at both ends of the range: 4095.875 * 8 is none, -4096 * 8 = -32768, 32767 * 1. -/
theorem witness_DequantMultiplies :
    (∀ k : Fin 16, -32768 ≤ ({ R with coef := coefs [-4096, 32767] } : State).c k * (if k = 0 then (8 : Int) else 1) ∧
      ({ R with coef := coefs [-4096, 32767] } : State).c k * (if k = 0 then (8 : Int) else 1) ≤ 32767) ∧
    stepsOf ⟨8, 1, 8, 1, 8, 1⟩ 0 = some (8, 1) ∧ stepsOf ⟨8, 1, 8, 1, 8, 1⟩ 1 = some (8, 1) ∧
    stepsOf ⟨8, 1, 8, 1, 8, 1⟩ 2 = some (8, 1) := by decide +kernel

theorem witness_DequantAfterQuant : stepsOf quantizing.qstep 1 = some (3, 7) ∧ (3 : BitVec 16) ≠ 0 ∧ (7 : BitVec 16) ≠ 0 := by
  decide

theorem witness_NopOnlyCounts : R.err = 0 ∧ halted.err ≠ 0 ∧
    (0x00000001 : Word).extractLsb' 24 8 = 0 ∧ (0x00000001 : Word).extractLsb' 0 24 ≠ 0 := by decide

theorem witness_BdGetuIsBdGetHalf : R.bd.active = false ∧ decoding.bd.active = true ∧
    after (exec .bdGetu decoding) (fun t => t.err = 0) = true := by decide

theorem witness_BePutuIsBePutHalf : R.be.active = false ∧ encoding.be.active = true ∧
    after (exec (.bePutu true) encoding) (fun t => t.err = 0) = true := by decide

/-- Each of the three commands answers a next state. -/
theorem witness_BrcClrClearsTheCounters : after (exec .bdInit R) (fun t => t.err = 0) = true ∧
    after (exec .beInit R) (fun t => t.err = 0) = true ∧ after (exec .beFlush encoding) (fun t => t.err = 0) = true := by
  decide

/-- For each field that some command writes, a command that writes it. -/
theorem witness_WhoWritesWhat :
    after (exec (.qzQuant 0) quantizing) (fun t => decide (t.coef ≠ quantizing.coef)) = true ∧
    after (exec (.bdGet 128) decoding) (fun t => decide (t.bitr ≠ decoding.bitr) && decide (t.bd ≠ decoding.bd)) = true ∧
    after (exec (.tvDec 1) decoding) (fun t => decide (t.val ≠ decoding.val)) = true ∧
    after (exec .qzTakedc quantizing) (fun t => decide (t.dcr ≠ quantizing.dcr)) = true ∧
    after (exec (.bePutu true) encoding) (fun t => decide (t.be ≠ encoding.be)) = true ∧
    after (exec (.twEnc ⟨0, false, false, false, false, false⟩) { encoding with prob := [(0, 128)] })
      (fun t => decide (t.brc ≠ []) && decide (t.tw ≠ encoding.tw)) = true := by decide +kernel

theorem witness_InvariantAtReset : 4294967295 < 2 ^ 32 := by decide

theorem witness_EveryStepKeepsTheInvariant : ({ decoding with prob := T128 } : State).Inv ∧
    ∃ t, step ({ decoding with prob := T128 } : State) = .next t := ⟨decoding_with_inv T128_wf T128_within, _, rfl⟩

/-- A step that faults. -/
theorem witness_OnlyTheHostCanStopARun : decoding.Inv ∧
    step { R.withHost [.cmd 0x10000000] with bdLen := 1 } = .fault .unwrittenInput := ⟨decoding_inv, by rfl⟩

theorem witness_PartialStateIsUnobservable : ({ halted with midHalt := true } : State).err ≠ 0 ∧
    ({ halted with midHalt := true, coef := coefs [1] } : State).midHalt = true ∧
    ({ halted with midHalt := true } : State).err = ({ halted with midHalt := true, coef := coefs [1] } : State).err ∧
    ({ halted with midHalt := true } : State) ≠ { halted with midHalt := true, coef := coefs [1] } := by decide

end Sys2Proof.Tests
end

section
/-! The bus side of the host (20_memory.md R66 (d), R69; log entry 13): what sits at an address, the transaction each access
to it stands for, and the datum that comes back. -/

namespace Sys2Proof.Machine

/-- Nothing is found at an address exactly when no cell carries it. -/
theorem busCellAt_eq_none_iff {z : Sizes} (m : BusMap z) (address : Nat) :
    busCellAt m address = none ↔ ∀ c ∈ m.cells, c.address ≠ address := by
  simp [busCellAt]

/-- The cell found at an address is one of the map and carries that address. -/
theorem mem_of_busCellAt_eq_some {z : Sizes} {m : BusMap z} {address : Nat} {c : BusCell z}
    (h : busCellAt m address = some c) : c ∈ m.cells ∧ c.address = address :=
  ⟨List.mem_of_find?_eq_some h, beq_iff_eq.mp (List.find?_some (p := fun c : BusCell z => c.address == address) h)⟩

/-- A cell that shares its address with no other is the one found there. -/
theorem busCellAt_of_unique {z : Sizes} {m : BusMap z} {c : BusCell z} (hc : c ∈ m.cells)
    (hu : ∀ c' ∈ m.cells, c'.address = c.address → c' = c) : busCellAt m c.address = some c := by
  cases hf : busCellAt m c.address with
  | none => exact absurd rfl ((busCellAt_eq_none_iff m c.address).mp hf c hc)
  | some c' =>
    obtain ⟨hmem, haddr⟩ := mem_of_busCellAt_eq_some hf
    rw [hu c' hmem haddr]

theorem fromLane_eq {z : Sizes} (c : BusCell z) (datum : Nat) : fromLane c datum = BitVec.ofNat 32 (datum / 2 ^ c.lane) := by
  rw [fromLane, Nat.shiftRight_eq_div_pow]

theorem toLane_eq {z : Sizes} (width : Nat) (c : BusCell z) (v : Word) :
    toLane width c v = v.toNat * 2 ^ c.lane % 2 ^ width := by
  rw [toLane, Nat.shiftLeft_eq]

theorem busRead_element {z : Sizes} {c : BusCell z} {e : Element z} (h : c.target = .element e) :
    busRead c = some (.read e) := by
  simp only [busRead, h]

theorem busRead_commandPort {z : Sizes} {c : BusCell z} (h : c.target = .commandPort) : busRead c = none := by
  simp only [busRead, h]

theorem busWrite_element {z : Sizes} {c : BusCell z} {e : Element z} (h : c.target = .element e) (datum : Nat) :
    busWrite c datum = .write e (BitVec.ofNat 32 (datum / 2 ^ c.lane)) := by
  simp only [busWrite, h, fromLane_eq]

theorem busWrite_commandPort {z : Sizes} {c : BusCell z} (h : c.target = .commandPort) (datum : Nat) :
    busWrite c datum = .cmd (BitVec.ofNat 32 (datum / 2 ^ c.lane)) := by
  simp only [busWrite, h, fromLane_eq]

/-- An access to an address where nothing sits is no transaction (R66 (d)). -/
theorem State.onBus_eq_none_of_unmapped {s : State} {address : Nat} (h : busCellAt s.port.busMap address = none) :
    s.onBus (.read address) = none ∧ ∀ datum, s.onBus (.write address datum) = none := by
  simp [State.onBus, busTransaction, h]

theorem State.onBus_read {s : State} {address : Nat} {c : BusCell s.sizes} (h : busCellAt s.port.busMap address = some c) :
    s.onBus (.read address) = (busRead c).map s.presenting := by
  simp [State.onBus, busTransaction, h]

theorem State.onBus_write {s : State} {address : Nat} {c : BusCell s.sizes} (h : busCellAt s.port.busMap address = some c)
    (datum : Nat) : s.onBus (.write address datum) = some (s.presenting (busWrite c datum)) := by
  simp [State.onBus, busTransaction, h]

/-- A read presented next is answered with what the element holds now, and the host's list is what it was. -/
theorem step_presenting_read (s : State) (e : Element s.sizes) :
    step (s.presenting (.read e)) = .next { s with reply := some (hostRead s e) } := by
  have hread : hostRead (s.presenting (.read e)) e = hostRead s e := hostRead_host s (.read e :: s.host) s.reply e
  rw [← hread]
  exact step_read (s := s.presenting (.read e)) (State.withHost_host s (.read e :: s.host))

/-- A reply `v` comes back on the lane of the cell that was read. -/
theorem busReply_replied {s : State} {address : Nat} {c : BusCell s.sizes} (h : busCellAt s.port.busMap address = some c)
    (v : Word) : busReply { s with reply := some v } address = some (v.toNat * 2 ^ c.lane % 2 ^ s.port.busMap.width) := by
  rw [← toLane_eq]
  exact congrArg (fun o : Option (BusCell s.sizes) => o.bind fun c => some (toLane s.port.busMap.width c v)) h

/-- Settles O16: the address picks its one cell, and the cell's target picks the transaction. -/
theorem busAccessIsItsTransaction : Obligations.BusAccessIsItsTransaction := by
  intro s
  refine ⟨fun address hno => State.onBus_eq_none_of_unmapped ((busCellAt_eq_none_iff _ _).mpr hno), fun c hc hu => ?_⟩
  have hat : busCellAt s.port.busMap c.address = some c := busCellAt_of_unique hc hu
  refine ⟨fun e he => ⟨⟨s.presenting (.read e), ?_, step_presenting_read s e, busReply_replied hat _⟩, fun datum => ?_⟩,
    fun hp => ⟨?_, fun datum => ?_⟩⟩
  · rw [State.onBus_read hat, busRead_element he, Option.map_some]
  · rw [State.onBus_write hat, busWrite_element he, State.presenting]
  · rw [State.onBus_read hat, busRead_commandPort hp, Option.map_none]
  · rw [State.onBus_write hat, busWrite_commandPort hp, State.presenting]

end Sys2Proof.Machine
end

section
/-! The bits of `STATUS`, what a halted block answers, and the reset values (10_state.md R29, R31, R53; 60_exceptions.md
R271). -/

namespace Sys2Proof.Machine

/-! ### The bits of `STATUS` -/

/-- A flag appended on the right is bit 0; the other bits move up by one. -/
theorem getLsbD_append_ofBool {n : Nat} (x : BitVec n) (b : Bool) (k : Nat) :
    (x ++ BitVec.ofBool b).getLsbD k = if k = 0 then b else x.getLsbD (k - 1) := by
  rw [BitVec.getLsbD_append, BitVec.getLsbD_ofBool]
  cases k <;> simp

/-- Bit 0 is `HALTED`, the flags stand above it, and nothing above them (R31). -/
theorem statusWord_getLsbD (halted : Bool) (flags : BitVec 5) (k : Nat) :
    (statusWord halted flags).getLsbD k = if k = 0 then halted else flags.getLsbD (k - 1) := by
  rw [statusWord, getLsbD_append_ofBool, BitVec.getLsbD_append]
  split_ifs with hzero hflag
  · rfl
  · rfl
  · exact BitVec.getLsbD_zero.trans (BitVec.getLsbD_of_ge flags _ (not_lt.mp hflag)).symm

theorem statusWord_ushiftRight_six (halted : Bool) (flags : BitVec 5) : statusWord halted flags >>> 6 = 0 := by
  refine BitVec.eq_of_getLsbD_eq fun k _ => ?_
  rw [BitVec.getLsbD_ushiftRight, statusWord_getLsbD, if_neg (by omega)]
  exact (BitVec.getLsbD_of_ge flags _ (by omega)).trans BitVec.getLsbD_zero.symm

/-- The order of the flags (R31). -/
theorem State.flags_getLsbD (s : State) :
    s.flags.getLsbD 0 = s.bd.active ∧ s.flags.getLsbD 1 = s.be.active ∧ s.flags.getLsbD 2 = s.bd.eoi ∧
      s.flags.getLsbD 3 = s.hasNz ∧ s.flags.getLsbD 4 = s.tw.eob := by
  unfold State.flags
  refine ⟨?_, ?_, ?_, ?_, ?_⟩ <;> repeat rw [getLsbD_append_ofBool]
  all_goals simp

/-- `HALTED` (R31). -/
theorem State.status_getLsbD_zero (s : State) : s.status.getLsbD 0 = decide (s.err ≠ 0) :=
  calc s.status.getLsbD 0 = s.halted := statusWord_getLsbD _ _ 0
    _ = decide (s.err ≠ 0) := by rw [Bool.eq_iff_iff, halted_iff, decide_eq_true_iff]

theorem State.status_ushiftRight_six (s : State) : s.status >>> 6 = 0 := statusWord_ushiftRight_six _ _

/-- Without an error raised during execution, `STATUS` bits 5 to 1 are the flags. -/
theorem State.status_getLsbD_succ {s : State} (h : s.midHalt = false) (k : Nat) :
    s.status.getLsbD (k + 1) = s.flags.getLsbD k := by
  simp only [State.status, statusWord_getLsbD, h, Bool.false_eq_true, if_false, Nat.add_one_ne_zero, Nat.add_sub_cancel]

/-! ### Reads, halted or not -/

/-- A register that a halted block still shows reads as it does on a running one (R271). -/
theorem hostRead_readable (s : State) {e : Element s.sizes} (h : readableHalted e = true) :
    hostRead s e = elementValue s e := by
  simp [hostRead, h]

theorem hostRead_status (s : State) : hostRead s (.csr 0) = s.status := hostRead_readable s rfl
theorem hostRead_errInfo (s : State) : hostRead s (.csr 2) = s.errInfo := hostRead_readable s rfl
theorem hostRead_cseq (s : State) : hostRead s (.csr 3) = s.cseq := hostRead_readable s rfl

theorem hostRead_err_toNat (s : State) : (hostRead s (.csr 1)).toNat = s.err.toNat := by
  rw [hostRead_readable s rfl, elementValue_err]
  exact BitVec.toNat_setWidth_of_le (by decide)

theorem step_cmd_halted {s : State} {w : Word} {rest : List (HostTx s.sizes)} (he : s.err ≠ 0)
    (h : s.host = .cmd w :: rest) : step s = .next { s.withHost rest with reply := none, tick := s.tick + 1 } :=
  (step_cmd h).trans (present_halted (s := { s.withHost rest with reply := none, tick := s.tick + 1 }) he w)

/-! ### After reset -/

theorem hostRead_reset (e : Element State.reset.sizes) : hostRead State.reset e = elementValue State.reset e :=
  hostRead_running rfl e

/-- Every register number, the reserved ones included, reads 0 after reset (R28, R53). -/
theorem csrRead_reset (n : Nat) : csrRead State.reset n = 0 := by
  unfold csrRead
  split <;> rfl

theorem State.c_reset (k : Fin 16) : State.reset.c k = 0 := by
  simp [State.c, State.reset]

theorem State.hasNz_reset : State.reset.hasNz = false := by
  rw [← Bool.not_eq_true, State.hasNz_iff]
  rintro ⟨k, hk⟩
  exact hk (State.c_reset k)

/-! ### The obligations -/

/-- Settles O14: `STATUS` is the word made of `HALTED` and the five flags, and each of its bits is one of them. -/
theorem statusBits : Obligations.StatusBits := by
  refine ⟨fun s => ?_, (hostRead_reset _).trans (csrRead_reset 0)⟩
  rw [hostRead_status]
  refine ⟨s.status_getLsbD_zero, s.status_ushiftRight_six, fun hmid => ?_⟩
  obtain ⟨hbd, hbe, heoi, hnz, heob⟩ := s.flags_getLsbD
  have hbit (k : Nat) : s.status.getLsbD (k + 1) = s.flags.getLsbD k := State.status_getLsbD_succ hmid k
  refine ⟨(hbit 0).trans hbd, (hbit 1).trans hbe, (hbit 2).trans heoi, ?_, (hbit 4).trans heob⟩
  rw [hbit 3, hnz]
  exact s.hasNz_iff

/-- Settles O7: commands and writes stop at the halted block, and a read is answered with `hostRead`, which shows the four
registers as they are. -/
theorem haltedBlockIgnoresHost : Obligations.HaltedBlockIgnoresHost := by
  intro s t rest he hhost
  refine ⟨?_, ?_, ?_⟩
  · rintro w rfl
    exact step_cmd_halted he hhost
  · rintro e v rfl
    exact step_write_halted he hhost
  · rintro e rfl
    refine ⟨hostRead s e, step_read hhost, ?_, ?_, ?_, ?_⟩ <;> rintro rfl
    · rw [hostRead_status]
      exact ⟨s.status_getLsbD_zero.trans (decide_eq_true he), s.status_ushiftRight_six⟩
    · exact hostRead_err_toNat s
    · exact hostRead_errInfo s
    · exact hostRead_cseq s

/-- Settles O9: the registers by `csrRead_reset`, the coefficients and `HAS_NZ` by `State.c_reset`, the tables by
`Memory.get_nil`; the flags, the latches and the empty buffers stand in `State.reset`. -/
theorem stateAfterReset : Obligations.StateAfterReset :=
  ⟨fun n => (hostRead_reset _).trans (csrRead_reset n), State.c_reset, fun j => Memory.get_nil j, fun j => Memory.get_nil j,
    rfl, rfl, rfl, rfl, State.hasNz_reset, rfl, rfl, rfl, fun _ => rfl, fun _ => rfl⟩

end Sys2Proof.Machine
end

section
/-! The opcode table as masks (30_encoding.md R85 to R98): the bits of a format that must be 0, the row that an opcode picks,
and what the decoder answers for every word of a row. -/

namespace Sys2Proof

/-! ### A word as its opcode and its operand field -/

theorem opcodeOf_append_operandsOf (w : Word) : opcodeOf w ++ operandsOf w = w :=
  (BitVec.extractLsb'_append_extractLsb'_eq_extractLsb' rfl).trans BitVec.extractLsb'_eq_self

/-- Two words are equal exactly when their opcodes and their operand fields are (R85). -/
theorem word_eq_iff {u v : Word} : u = v ↔ opcodeOf u = opcodeOf v ∧ operandsOf u = operandsOf v := by
  refine ⟨fun h => h ▸ ⟨rfl, rfl⟩, fun ⟨hop, hfield⟩ => ?_⟩
  rw [← opcodeOf_append_operandsOf u, hop, hfield, opcodeOf_append_operandsOf]

theorem opcodeOf_and (u v : Word) : opcodeOf (u &&& v) = opcodeOf u &&& opcodeOf v := BitVec.extractLsb'_and
theorem operandsOf_and (u v : Word) : operandsOf (u &&& v) = operandsOf u &&& operandsOf v := BitVec.extractLsb'_and

/-! ### The columns of the table -/

/-- Every mask covers the whole opcode (R95). -/
theorem opcodeOf_maskOf (i : Instr) : opcodeOf (maskOf i) = BitVec.allOnes 8 := by
  cases i <;> (dsimp only [maskOf]; decide)

/-- No match has a bit in the operand field (R95). -/
theorem operandsOf_matchOf (i : Instr) : operandsOf (matchOf i) = 0 := by
  cases i <;> (dsimp only [matchOf]; decide)

/-- A word agrees with a row exactly when it has the row's opcode and no reserved bit of the row. -/
theorem and_maskOf_eq_matchOf_iff (w : Word) (i : Instr) :
    w &&& maskOf i = matchOf i ↔ opcodeOf w = opcodeOf (matchOf i) ∧ operandsOf w &&& operandsOf (maskOf i) = 0 := by
  rw [word_eq_iff, opcodeOf_and, operandsOf_and, opcodeOf_maskOf, operandsOf_matchOf, BitVec.and_allOnes]

/-! ### Reserved bits -/

/-- The operand bits `start` to `start + len - 1`. -/
def fieldMask (start len : Nat) : BitVec 24 := (BitVec.allOnes len).setWidth 24 <<< start

theorem fieldMask_getLsbD {start len k : Nat} (h : start + len ≤ 24) :
    (fieldMask start len).getLsbD k = decide (start ≤ k ∧ k < start + len) := by
  rw [Bool.eq_iff_iff]
  simp only [fieldMask, BitVec.getLsbD_shiftLeft, BitVec.getLsbD_setWidth, BitVec.getLsbD_allOnes, Bool.and_eq_true,
    Bool.not_eq_true', decide_eq_true_eq, decide_eq_false_iff_not]
  omega

theorem eq_zero_iff_getLsbD {n : Nat} (x : BitVec n) : x = 0 ↔ ∀ k < n, x.getLsbD k = false :=
  ⟨fun h _ _ => h ▸ BitVec.getLsbD_zero,
    fun h => BitVec.eq_of_getLsbD_eq fun k hk => (h k hk).trans BitVec.getLsbD_zero.symm⟩

/-- A field is 0 exactly when its mask meets no bit of the word. -/
theorem extractLsb'_eq_zero_iff {start len : Nat} (h : start + len ≤ 24) (w : Word) :
    w.extractLsb' start len = 0 ↔ operandsOf w &&& fieldMask start len = 0 := by
  have hfield : w.extractLsb' start len = 0 ↔ ∀ k < len, w.getLsbD (start + k) = false := by
    rw [eq_zero_iff_getLsbD]
    simp +contextual
  have hmask : operandsOf w &&& fieldMask start len = 0 ↔
      ∀ k < 24, start ≤ k ∧ k < start + len → w.getLsbD k = false := by
    rw [eq_zero_iff_getLsbD]
    refine forall₂_congr fun k hk => ?_
    rw [BitVec.getLsbD_and, fieldMask_getLsbD h, Bool.and_comm, Bool.and_eq_false_imp, operandsOf, BitVec.getLsbD_extractLsb']
    simp [hk]
  rw [hfield, hmask]
  refine ⟨fun hbits k _ hin => ?_, fun hbits k hk => hbits (start + k) (by omega) (by omega)⟩
  obtain ⟨d, rfl⟩ := Nat.exists_eq_add_of_le hin.1
  exact hbits d (by omega)

/-- Two zeros, as one field (format B, R90). -/
theorem append_eq_zero_iff {m n : Nat} (x : BitVec m) (y : BitVec n) : x ++ y = 0 ↔ x = 0 ∧ y = 0 := by
  refine ⟨fun h => ⟨?_, ?_⟩, fun ⟨hx, hy⟩ => by rw [hx, hy]; exact BitVec.zero_append_zero⟩
  · rw [← BitVec.extractLsb'_append_eq_left (a := x) (b := y), h]
    exact BitVec.extractLsb'_zero
  · rw [← BitVec.extractLsb'_append_eq_right (a := x) (b := y), h]
    exact BitVec.extractLsb'_zero

/-- Whether a command is accepted depends only on whether its reserved bits are 0. -/
theorem whenClear_congr {m n : Nat} {r : BitVec m} {r' : BitVec n} (h : r = 0 ↔ r' = 0) (w : Word) (i : Instr) :
    whenClear w r i = whenClear w r' i := if_congr h rfl rfl

theorem whenClear_eq_ok_iff {n : Nat} {w : Word} {r : BitVec n} {i j : Instr} :
    whenClear w r i = .ok j ↔ r = 0 ∧ i = j := by
  unfold whenClear
  split_ifs with hr
  · simp [hr]
  · exact iff_of_false (fun h => nomatch h) fun h => hr h.1

/-- A format with one reserved field, checked by its mask (R87 to R93). -/
theorem whenClear_field (start len : Nat) (h : start + len ≤ 24) (w : Word) (i : Instr) :
    whenClear w (w.extractLsb' start len) i = whenClear w (operandsOf w &&& fieldMask start len) i :=
  whenClear_congr (extractLsb'_eq_zero_iff h w) w i

/-- Format B has two reserved fields, around its bit (R90). -/
theorem formatB_eq_whenClear (w : Word) (f : Bool → Instr) :
    formatB w f = whenClear w (operandsOf w &&& (fieldMask 9 15 ||| fieldMask 0 8)) (f (w.getLsbD 8)) := by
  refine whenClear_congr ?_ w _
  rw [append_eq_zero_iff, extractLsb'_eq_zero_iff (by decide), extractLsb'_eq_zero_iff (by decide),
    BitVec.and_or_distrib_left]
  exact BitVec.or_eq_zero_iff.symm

/-! ### The decoder, row by row -/

/-- The command of the same row whose operands stand in `w` (R87 to R94). -/
def Instr.withOperandsOf (w : Word) : Instr → Instr
  | .nop => .nop
  | .bdInit => .bdInit
  | .bdGet _ => .bdGet (w.extractLsb' 0 8)
  | .bdGetu => .bdGetu
  | .beInit => .beInit
  | .bePut _ _ => .bePut (w.getLsbD 8) (w.extractLsb' 0 8)
  | .bePutu _ => .bePutu (w.getLsbD 8)
  | .beFlush => .beFlush
  | .tvDec _ => .tvDec (w.extractLsb' 0 3)
  | .tvEnc _ => .tvEnc (w.extractLsb' 0 3)
  | .twDec _ => .twDec (walkOperandsOf w)
  | .twEnc _ => .twEnc (walkOperandsOf w)
  | .brcClr => .brcClr
  | .qzQuant _ => .qzQuant (w.extractLsb' 0 2)
  | .qzDequant _ => .qzDequant (w.extractLsb' 0 2)
  | .qzTakedc => .qzTakedc

/-- Every word with the opcode of a row: the command with the operands of the word, if its reserved bits are 0 (R95, R97). -/
theorem decode_of_opcode {w : Word} {i : Instr} (h : opcodeOf w = opcodeOf (matchOf i)) :
    decode w = whenClear w (operandsOf w &&& operandsOf (maskOf i)) (i.withOperandsOf w) := by
  unfold decode
  rw [h]
  cases i <;> dsimp only [matchOf, maskOf, Instr.withOperandsOf]
  case nop | bdInit | bdGetu | beInit | beFlush | brcClr | qzTakedc => exact whenClear_field 0 24 (by decide) w _
  case bdGet => exact whenClear_field 8 16 (by decide) w _
  case bePut => exact whenClear_field 9 15 (by decide) w _
  case bePutu => exact formatB_eq_whenClear w _
  case tvDec | tvEnc => exact whenClear_field 3 21 (by decide) w _
  case twDec | twEnc => exact whenClear_field 7 17 (by decide) w _
  case qzQuant | qzDequant => exact whenClear_field 2 22 (by decide) w _

/-- A word that decodes has the opcode of what it decodes to (R95). -/
theorem opcodeOf_of_decode {w : Word} {j : Instr} (h : decode w = .ok j) : opcodeOf w = opcodeOf (matchOf j) := by
  unfold decode at h
  split at h
  case h_17 => cases h
  all_goals
    next hop =>
    obtain ⟨-, rfl⟩ := whenClear_eq_ok_iff.mp h
    dsimp only [matchOf]
    exact BitVec.eq_of_toNat_eq hop

theorem matchOf_withOperandsOf (w : Word) (i : Instr) : matchOf (i.withOperandsOf w) = matchOf i := by cases i <;> rfl

/-- A word decodes to a command of a row exactly when it agrees with the row's match on its mask, and then the operands are
those of the word (R95). -/
theorem decode_eq_ok_of_row_iff {w : Word} {i j : Instr} :
    decode w = .ok j ∧ matchOf j = matchOf i ↔ w &&& maskOf i = matchOf i ∧ i.withOperandsOf w = j := by
  rw [and_maskOf_eq_matchOf_iff, and_assoc]
  constructor
  · rintro ⟨hdec, hrow⟩
    have hop : opcodeOf w = opcodeOf (matchOf i) := by rw [← hrow, opcodeOf_of_decode hdec]
    exact ⟨hop, whenClear_eq_ok_iff.mp (decode_of_opcode hop ▸ hdec)⟩
  · rintro ⟨hop, hclear, rfl⟩
    exact ⟨(decode_of_opcode hop).trans (whenClear_eq_ok_iff.mpr ⟨hclear, rfl⟩), matchOf_withOperandsOf w i⟩

theorem catLegal_iff (cat : BitVec 3) : catLegal cat = true ↔ cat ≠ 0 ∧ cat ≠ 7 := by simp [catLegal]
theorem clsLegal_iff (cls : BitVec 2) : clsLegal cls = true ↔ cls ≠ 3 := by simp [clsLegal]

/-- Settles O3: of the row's commands only the one with the word's own operands can be decoded, and it is well formed exactly
when its `CAT` or `CLS` is. -/
theorem wordMatchesItsRow : Obligations.WordMatchesItsRow := by
  intro i w
  have hrow : (∃ j, decode w = .ok j ∧ j.wellFormed = true ∧ matchOf j = matchOf i) ↔
      w &&& maskOf i = matchOf i ∧ (i.withOperandsOf w).wellFormed = true := by
    simp only [and_comm (a := Instr.wellFormed _ = true), ← and_assoc, decode_eq_ok_of_row_iff]
    exact ⟨fun ⟨_, ⟨hmatch, rfl⟩, hwf⟩ => ⟨hmatch, hwf⟩, fun ⟨hmatch, hwf⟩ => ⟨_, ⟨hmatch, rfl⟩, hwf⟩⟩
  refine hrow.trans (and_congr_right fun _ => ?_)
  cases i
  case tvDec | tvEnc => exact catLegal_iff _
  case qzQuant | qzDequant => exact clsLegal_iff _
  all_goals exact iff_of_true rfl trivial

end Sys2Proof
end

section
/-! Commands that are turned away before execution (30_encoding.md R96 to R98, R103, R104; 60_exceptions.md R264 to R266). -/

namespace Sys2Proof.Machine

/-- The reserved categories (R98). -/
theorem eq_of_catLegal_eq_false {cat : BitVec 3} (h : catLegal cat = false) : cat = 0 ∨ cat = 7 := by
  revert cat
  decide

/-- The reserved class (R98). -/
theorem eq_of_clsLegal_eq_false {cls : BitVec 2} (h : clsLegal cls = false) : cls = 3 := by
  revert cls
  decide

/-! ### What the block does with a rejected command -/

/-- A command whose meaning is a rejection is counted, and nothing else but the error is recorded (R270, R271). -/
theorem present_of_reject {s : State} {w : Word} {i : Instr} {e : Err} (h : s.err = 0) (hd : decode w = .ok i)
    (hr : exec i { s with cseq := s.cseq + 1 } = reject e { s with cseq := s.cseq + 1 }) :
    present w s = .next { s with cseq := s.cseq + 1, err := e.code, errInfo := s.cseq } := by
  rw [present_ok h hd, hr]
  simp [reject, State.haltEntry, State.commandNumber]

/-- A reserved field value is found before the precondition is looked at (R98, R103 step 3). -/
theorem exec_of_not_wellFormed {i : Instr} (h : i.wellFormed = false) (s : State) :
    exec i s = reject .unsupportedMode s := by
  cases i
  case tvDec cat => obtain rfl | rfl := eq_of_catLegal_eq_false h <;> rfl
  case tvEnc cat => obtain rfl | rfl := eq_of_catLegal_eq_false h <;> rfl
  case qzQuant cls => obtain rfl := eq_of_clsLegal_eq_false h; rfl
  case qzDequant cls => obtain rfl := eq_of_clsLegal_eq_false h; rfl
  all_goals cases h

theorem present_of_not_wellFormed {s : State} {w : Word} {i : Instr} (h : s.err = 0) (hd : decode w = .ok i)
    (hwf : i.wellFormed = false) :
    present w s = .next { s with cseq := s.cseq + 1, err := 3, errInfo := s.cseq } :=
  present_of_reject h hd (exec_of_not_wellFormed hwf _)

/-- `BD.GET 0`: the precondition comes before the operand (R103 steps 4 and 5). -/
theorem exec_bdGet_zero (s : State) :
    exec (.bdGet 0) s = reject (if s.bd.active then .invalidProbability else .sequenceError) s := by
  show whenDecoding s (if (0 : Byte) = 0 then reject .invalidProbability s else _) = _
  rw [if_pos rfl, whenDecoding, apply_ite (reject · s)]

/-! ### The worked encodings -/

/-- Settles O5: the legal words by running the decoder; the illegal ones are rejected by the decoder or decode to an
ill-formed term, and `BD.GET 0` is rejected by its meaning. -/
theorem workedEncodings : Obligations.WorkedEncodings := by
  refine ⟨rfl, rfl, rfl, rfl, rfl, rfl, rfl, rfl, rfl, rfl, rfl, rfl, rfl, rfl, rfl, rfl, rfl, rfl, rfl, ?_, ?_⟩
  · rintro s hs w (rfl | rfl | rfl | rfl)
    · exact present_rejected (r := .reservedBit 0x11) hs rfl
    · exact present_of_not_wellFormed (i := .tvDec 0) hs rfl rfl
    · exact present_of_not_wellFormed (i := .qzQuant 3) hs rfl rfl
    · exact present_rejected (r := .reservedOpcode 0x01) hs rfl
  · intro s hs
    refine (present_of_reject (i := .bdGet 0) hs rfl (exec_bdGet_zero _)).trans ?_
    rw [apply_ite Err.code]
    rfl

end Sys2Proof.Machine
end

section
/-! The uniform query of the boolean decoder (40_boolean_decoder.md R115). -/

namespace Sys2Proof.Machine

/-- 128 is a legal probability, so `BD.GET 128` only checks its precondition, as `BD.GETU` does (R115, R116). -/
theorem exec_bdGetu_eq_bdGet_half (s : State) : exec .bdGetu s = exec (.bdGet 128) s := by
  show whenDecoding s (finish (getToBitr 128 s)) =
    whenDecoding s (if (128 : Byte) = 0 then reject .invalidProbability s else finish (getToBitr 128 s))
  rw [if_neg (by decide)]

/-- The precondition of `BD.GETU` (R115, R266). -/
theorem exec_bdGetu_inactive {s : State} (h : s.bd.active = false) : exec .bdGetu s = reject .sequenceError s :=
  if_neg (Bool.eq_false_iff.mp h)

/-- On an active decoder `BD.GETU` has no error left to raise, neither before execution nor during it. -/
theorem written_of_exec_bdGetu {s t : State} (ha : s.bd.active = true) (h : exec .bdGetu s = .next t) :
    t = { s with bd := t.bd, bitr := t.bitr } := by
  obtain hw | ⟨_, ⟨-, hinactive⟩, -⟩ | ⟨_, _, hlate, -, -⟩ := exec_ended h
  · exact hw
  · exact absurd ha (Bool.eq_false_iff.mp hinactive)
  · exact hlate.elim

/-- Settles O26: `BD.GETU` is the query of `BD.GET 128` behind the same precondition, which is its only error. -/
theorem bdGetuIsBdGetHalf : Obligations.BdGetuIsBdGetHalf := by
  refine ⟨rfl, fun s => ⟨exec_bdGetu_eq_bdGet_half s, exec_bdGetu_inactive, fun t ha h => ?_⟩⟩
  rw [written_of_exec_bdGetu ha h]

end Sys2Proof.Machine
end

section
/-! Opening an output stream, and the uniform query of the boolean encoder (41_boolean_encoder.md R131, R137). -/

namespace Sys2Proof.Machine

/-- `BE.INIT` has no precondition and no error: it starts the encoder, whatever the encoder held (R131). -/
theorem exec_beInit (s : State) : exec .beInit s = .next { s with be := s.be.start } := rfl

/-- Settles O28: `BE.INIT` only starts the encoder, and `Encoder.start` sets every field of it but `OBUF`. -/
theorem beInitStartsStream : Obligations.BeInitStartsStream :=
  ⟨rfl, exec_beInit⟩

/-- 128 is a legal probability, so `BE.PUT b, 128` only checks its precondition, as `BE.PUTU b` does (R136, R137). -/
theorem exec_bePutu_eq_bePut_half (b : Bool) (s : State) : exec (.bePutu b) s = exec (.bePut b 128) s := by
  show whenEncoding s (finish (putQuery b 128 s)) =
    whenEncoding s (if (128 : Byte) = 0 then reject .invalidProbability s else finish (putQuery b 128 s))
  rw [if_neg (by decide)]

/-- The precondition of `BE.PUTU` (R137, R266). -/
theorem exec_bePutu_inactive {s : State} (h : s.be.active = false) (b : Bool) :
    exec (.bePutu b) s = reject .sequenceError s :=
  if_neg (Bool.eq_false_iff.mp h)

/-- On an active encoder `BE.PUTU` has no error left to raise before execution, and only a full buffer during it (R268). -/
theorem err_of_exec_bePutu {s t : State} {b : Bool} (ha : s.be.active = true) (h : exec (.bePutu b) s = .next t) :
    t.err = s.err ∨ t.err = Err.bufferBounds.code := by
  obtain hw | ⟨_, ⟨-, hinactive⟩, -⟩ | ⟨_, _, rfl, -, rfl⟩ := exec_ended h
  · have hframe : t = { s with be := t.be } := hw
    exact .inl (by rw [hframe])
  · exact absurd ha (Bool.eq_false_iff.mp hinactive)
  · exact .inr rfl

/-- Settles O30: `BE.PUTU b` is the query of `BE.PUT b, 128` behind the same precondition; past it only the full buffer is an
error. -/
theorem bePutuIsBePutHalf : Obligations.BePutuIsBePutHalf :=
  ⟨rfl, rfl, fun s b => ⟨exec_bePutu_eq_bePut_half b s, fun h => exec_bePutu_inactive h b, fun _ => err_of_exec_bePutu⟩⟩

end Sys2Proof.Machine
end

section
/-! The category table, and the one coding of each magnitude (42_token_value.md R156, R157). -/

namespace Sys2Proof.Machine

/-- Settles O33: the selector and the table, read off row by row. -/
theorem categoryTable_rows : Obligations.CategoryTable :=
  ⟨rfl, rfl, rfl, rfl, rfl, rfl, rfl, rfl⟩

/-- A magnitude lies in a category's range exactly when it is codable and the category is its outcome (R157, R171). -/
theorem tvOffset_isSome_iff {c : Category} {a : Nat} : (tvOffset c a).isSome ↔ a ≤ 2114 ∧ tokenOf a = .cat c := by
  rw [Option.isSome_iff_exists]
  constructor
  · rintro ⟨off, hoff⟩
    obtain ⟨rfl, hlt⟩ := tvOffset_eq_some.mp hoff
    obtain ⟨htok, hle, -⟩ := tokenOf_category c _ (Nat.le_add_right _ off) (Nat.add_lt_add_left hlt _)
    exact ⟨hle, htok⟩
  · rintro ⟨hle, htok⟩
    exact tokenOf_range hle htok

/-- The magnitudes that need extra bits: all but the five with an outcome of their own (R171). -/
theorem exists_tokenOf_eq_cat_iff {a : Nat} : (∃ c, tokenOf a = .cat c) ↔ 5 ≤ a := by
  unfold tokenOf
  split_ifs <;> simp <;> omega

/-- Outside 5 to 2114 a magnitude lies in no category (R157). -/
theorem tvOffset_eq_none {a : Nat} (h : a < 5 ∨ 2114 < a) (c : Category) : tvOffset c a = none := by
  rw [← Option.not_isSome_iff_eq_none, tvOffset_isSome_iff]
  rintro ⟨hle, htok⟩
  have hge : 5 ≤ a := exists_tokenOf_eq_cat_iff.mp ⟨c, htok⟩
  omega

/-- Settles O34: a magnitude from 5 to 2114 lies only in the category of its outcome, of which it has one; any other lies in
none. -/
theorem everyMagnitudeHasOneCoding : Obligations.EveryMagnitudeHasOneCoding := by
  refine ⟨by decide, fun a _ h4 => tvOffset_eq_none (.inl (by omega)), fun a h5 hle => ?_,
    fun a h => tvOffset_eq_none (.inr h)⟩
  obtain ⟨c, htok⟩ := exists_tokenOf_eq_cat_iff.mpr h5
  refine ⟨c, tvOffset_isSome_iff.mpr ⟨hle, htok⟩, fun c' h' => ?_⟩
  obtain ⟨-, htok'⟩ := tvOffset_isSome_iff.mp h'
  exact Token.cat.inj (htok'.symm.trans htok)

end Sys2Proof.Machine
end

section
/-! The initial context, the position tables, and clearing the counters (43_token_walker.md R173 to R175, R200). -/

namespace Sys2Proof.Machine

/-- The initial context counts the neighbours that are available and nonzero (R174). -/
theorem initialContext_val (o : WalkOperands) :
    (initialContext o).val = (o.ap && o.anz).toNat + (o.lp && o.lnz).toNat := by
  unfold initialContext
  cases o.ap && o.anz <;> cases o.lp && o.lnz <;> rfl

/-- Every position is coded, but position 0 with `SKIPDC` (R173). -/
theorem codedPositions_val (o : WalkOperands) :
    (codedPositions o).map Fin.val = if o.skipdc then List.range' 1 15 else List.range 16 := by
  unfold codedPositions firstPosition
  cases o.skipdc <;> rfl

/-- `ZIGZAG` is a permutation of the sixteen slots (R175). -/
theorem zigzag_bijective : Function.Bijective tables.zigzag :=
  Finite.injective_iff_bijective.mp zigzag_injective

/-- Settles O38: positions and context by a case for each operand bit they depend on, the tables read off entry by entry. -/
theorem initialContextAndPositionTables : Obligations.InitialContextAndPositionTables :=
  ⟨fun o => ⟨codedPositions_val o, rfl⟩, initialContext_val, rfl, rfl, zigzag_bijective⟩

/-- A command whose completion leaves the branch counters alone leaves them alone when it ends in an error, too. -/
theorem Ended.brc {i : Instr} {s t : State} (h : Ended i s t) (hw : ∀ u, Written i s u → u.brc = s.brc) :
    t.brc = s.brc := by
  obtain hdone | ⟨_, -, rfl⟩ | ⟨_, u, -, hpart, rfl⟩ := h
  · exact hw t hdone
  · rfl
  · exact hw u hpart

/-- Settles O45: an empty list of counters reads 0 everywhere; the other three commands write one half of the coder only. -/
theorem brcClrClearsTheCounters : Obligations.BrcClrClearsTheCounters := by
  refine ⟨rfl, fun s => ⟨_, rfl, rfl, Memory.get_nil⟩, fun s t i hi h => (exec_ended h).brc fun u hu => ?_⟩
  obtain rfl | rfl | rfl := hi
  · rw [show u = { s with bd := u.bd } from hu]
  · rw [show u = { s with be := u.be } from hu]
  · rw [show u = { s with be := u.be } from hu]

end Sys2Proof.Machine
end

section
/-! Blocks through encoder and decoder (43_token_walker.md R191): what `TW.ENC` coded into a stream, `TW.DEC` at the same
place reads back from it, one block after another. -/

namespace Sys2Proof.Machine

/-! ### The words of the walk commands -/

/-- A word with its row's bits whose operand fields are those of the command decodes to the command (R95). -/
theorem decode_encode_of_row {i : Instr} (hrow : encode i &&& maskOf i = matchOf i)
    (hfields : i.withOperandsOf (encode i) = i) : decode (encode i) = .ok i :=
  (decode_eq_ok_of_row_iff.mpr ⟨hrow, hfields⟩).1

/-- The operand fields of format T are read back as they were put in (R92). -/
theorem walkOperandsOf_encode (o : WalkOperands) :
    walkOperandsOf (encode (.twEnc o)) = o ∧ walkOperandsOf (encode (.twDec o)) = o := by
  obtain ⟨bt, skipdc, ap, anz, lp, lnz⟩ := o
  revert bt skipdc ap anz lp lnz
  decide +kernel

theorem decode_encode_twEnc (o : WalkOperands) : decode (encode (.twEnc o)) = .ok (.twEnc o) :=
  decode_encode_of_row (Laws.MatchMask.twEnc o) (congrArg Instr.twEnc (walkOperandsOf_encode o).1)

theorem decode_encode_twDec (o : WalkOperands) : decode (encode (.twDec o)) = .ok (.twDec o) :=
  decode_encode_of_row (Laws.MatchMask.twDec o) (congrArg Instr.twDec (walkOperandsOf_encode o).2)

/-! ### The block that comes back -/

/-- Blocks that agree at every position are equal: `ZIGZAG` reaches every slot (R175). -/
theorem Coefs.ext_zigzag {x y : Coefs} (h : ∀ j : Fin 16, x[tables.zigzag j] = y[tables.zigzag j]) : x = y := by
  have hslots : ∀ k : Fin 16, x[k] = y[k] := zigzag_bijective.surjective.forall.mpr h
  exact Vector.ext fun k hk => hslots ⟨k, hk⟩

/-- What is left of a block: the coefficients at the coded positions (R173). -/
theorem codedPart_zigzag (o : WalkOperands) (x : Coefs) (j : Fin 16) :
    (codedPart (o, x))[tables.zigzag j] = if j ∈ codedPositions o then x[tables.zigzag j] else 0 := by
  cases hskip : o.skipdc with
  | false => simp [codedPart, mem_codedPositions, firstPosition, hskip]
  | true =>
    simp only [codedPart, mem_codedPositions, firstPosition, hskip, if_true]
    obtain rfl | hj := eq_or_ne j 0
    · exact Vector.getElem_set_self (i := 0) (by decide)
    · have hslot : 0 ≠ (tables.zigzag j).val := fun h => hj (zigzag_injective j 0 (Fin.ext h.symm))
      rw [if_pos (Nat.one_le_iff_ne_zero.mpr (Fin.val_ne_zero_iff.mpr hj))]
      exact Vector.getElem_set_ne _ _ hslot

/-- From cleared registers a decoding walk stores the coded coefficients at their slots, and nothing else (R173, R175). -/
theorem storedCoefs_codedPositions (s : State) (o : WalkOperands) :
    storedCoefs s (codedPositions o) (Vector.replicate 16 0) = codedPart (o, s.coef) := by
  have hnodup : (codedPositions o).Nodup := (List.nodup_finRange 16).sublist (List.drop_sublist _ _)
  have hclear : ∀ j : Fin 16, (Vector.replicate 16 0 : Coefs)[tables.zigzag j] = 0 := fun _ =>
    Vector.getElem_replicate _
  refine Coefs.ext_zigzag fun j => ?_
  rw [storedCoefs_get s _ hnodup _ (fun j _ => hclear j), codedPart_zigzag, hclear]

/-! ### One walk -/

/-- An encoding command rests on the encoder, the branch counters and the sizes only. -/
theorem State.EncodeOk.congr {s t : State} (h : s.EncodeOk) (ht : t = { s with coef := t.coef, tw := t.tw, cseq := t.cseq }) :
    t.EncodeOk := by
  rw [ht]
  exact ⟨h.sound, h.size, h.obuf_wf, h.obuf_within, h.brc_wf, h.brc_within⟩

/-- The encoding block between two commands of a stream: neither halted nor finished. -/
structure State.Coding (s : State) : Prop where
  running : s.err = 0
  active : s.be.active = true
  ok : s.EncodeOk

/-- The state in which `TW.ENC` of the block `c` executes: the block loaded, the command counted (R103). -/
def State.loaded (s : State) (c : Coefs) : State := { s with coef := c, cseq := s.cseq + 1 }

theorem State.Coding.loaded {s : State} (h : s.Coding) (c : Coefs) : (s.loaded c).Coding :=
  ⟨h.running, h.active, h.ok.congr rfl⟩

/-- A `TW.ENC` that raises no error has walked its block, which was codable (R190). -/
theorem exec_twEnc_completed {s t : State} {o : WalkOperands} (h : exec (.twEnc o) s = .next t) (ht : t.err = 0) :
    allCodable s o = true ∧ ∃ w x, t = { x with tw := w } ∧
      walkEnc o.bt (endPosition s o) (codedPositions o) (initialContext o) false s = .ok w x := by
  obtain ⟨-, h⟩ | ⟨-, rfl⟩ := whenEncoding_eq_next h
  · split_ifs at h with hc
    · obtain hok | ⟨e, x, -, rfl⟩ := finish_eq_next.mp h
      · obtain ⟨w, x, hwalk, hend⟩ := Res.bind_eq_ok.mp hok
        cases hend
        exact ⟨hc, w, x, rfl, hwalk⟩
      · exact absurd ht (Err.code_ne_zero e)
    · cases h
      exact absurd ht (Err.code_ne_zero .rangeViolation)
  · exact absurd ht (Err.code_ne_zero .sequenceError)

/-- A decoding walk that completes is what `TW.DEC` does (R180). -/
theorem exec_twDec_of_walkDec {d d' : State} {o : WalkOperands} {w : WalkResult} (ha : d.bd.active = true)
    (h : walkDec o.bt (codedPositions o) (initialContext o) false d.clearCoefs = .ok w d') :
    exec (.twDec o) d = .next { d' with tw := w } := by
  show whenDecoding d (finish (endWalk _)) = _
  rw [whenDecoding, if_pos ha, h]
  rfl

theorem walkDec_err {bt : BitVec 2} {l : List (Fin 16)} {ctx : Fin 3} {lastz : Bool} {d d' : State} {w : WalkResult}
    (h : walkDec bt l ctx lastz d = .ok w d') : d'.err = d.err := by
  have hframe := walkDec_frame bt l ctx lastz d
  rw [h] at hframe
  have hd : d' = { d with bd := d'.bd, brc := d'.brc, coef := d'.coef } := hframe
  rw [hd]

/-- `TW.ENC` without an error leaves the encoder ready for the next command. -/
theorem State.Coding.twEnc {s t : State} {o : WalkOperands} (hs : s.Coding) (h : exec (.twEnc o) s = .next t)
    (ht : t.err = 0) : t.Coding := by
  obtain ⟨hc, w, x, rfl, hwalk⟩ := exec_twEnc_completed h ht
  have hends := walkEnc_command hs.ok o hc
  rw [hwalk] at hends
  obtain ⟨hstep, -⟩ := hends
  exact ⟨ht, hstep.active.trans hs.active, hstep.ok.congr rfl⟩

section
variable {m : Memory 8} {n : Nat} {δ : Nat → Word}

/-- The fields of the two states on which the lock step rests. -/
theorem Lock.congr {s s' d d' : State} (h : Lock m n δ s d) (hbe : s'.be = s.be) (hprob : s'.prob = s.prob)
    (hbrc : s'.brc = s.brc) (hd : d' = { d with coef := d'.coef, tw := d'.tw, cseq := d'.cseq }) : Lock m n δ s' d' := by
  rw [hd]
  exact ⟨h.active, hbe ▸ h.sync, h.reads, h.prob.trans hprob.symm, hbrc ▸ h.counts⟩

/-- One block: from a stream that lies in the interval `TW.ENC` leaves, `TW.DEC` takes the block back, and its walk ends in
the same way (R191). -/
theorem twDec_undoes_twEnc {s t : State} {o : WalkOperands} (hs : s.Coding) (h : exec (.twEnc o) s = .next t)
    (ht : t.err = 0) (hw : t.be.Window m n) :
    s.be.Window m n ∧ ∀ d, Lock m n δ s d → ∃ d', exec (.twDec o) d = .next d' ∧ Lock m n δ t d' ∧ d'.err = d.err ∧
      d'.coef = codedPart (o, s.coef) ∧ d'.tw = t.tw := by
  obtain ⟨hc, w, x, rfl, hwalk⟩ := exec_twEnc_completed h ht
  have hcodable := (allCodable_iff s o).mp hc
  have hfollows := walkEnc_follows (o := m) (n := n) (δ := δ) hs.ok rfl (fun j => endPosition_last s o j)
    (fun j hj => hcodable j ((mem_codedPositions o j).mp hj)) hwalk
  obtain ⟨hw0, hdec⟩ := hfollows hw
  refine ⟨hw0, fun d hd => ?_⟩
  obtain ⟨d', hd', hlock, hcoef⟩ := hdec d.clearCoefs (hd.congr rfl rfl rfl rfl)
  have herr : d'.err = d.err := walkDec_err (d := d.clearCoefs) hd'
  exact ⟨{ d' with tw := w }, exec_twDec_of_walkDec hd.active hd', hlock.congr rfl rfl rfl rfl, herr,
    hcoef.trans (storedCoefs_codedPositions s o), rfl⟩

end

/-! ### A list of blocks -/

/-- A halted block stays halted through a list of blocks (R271). -/
theorem encodeBlocks_halted {blocks : List (WalkOperands × Coefs)} {s t : State} {ws : List WalkResult} (hs : s.err ≠ 0)
    (h : encodeBlocks blocks s = some (ws, t)) : t.err = s.err := by
  induction blocks generalizing s ws with
  | nil => cases h; rfl
  | cons b blocks ih =>
    rw [encodeBlocks, present_halted (s := { s with coef := b.2 }) hs] at h
    obtain ⟨r, hr, hrt⟩ := Option.map_eq_some_iff.mp h
    cases hrt
    exact ih (s := { s with coef := b.2 }) hs hr

/-- A list of blocks coded without an error: the first block without an error, then the others. -/
theorem encodeBlocks_cons {o : WalkOperands} {c : Coefs} {blocks : List (WalkOperands × Coefs)} {s u : State}
    {ws : List WalkResult} (hs : s.err = 0) (h : encodeBlocks ((o, c) :: blocks) s = some (ws, u)) (hu : u.err = 0) :
    ∃ t ws', exec (.twEnc o) (s.loaded c) = .next t ∧ t.err = 0 ∧ encodeBlocks blocks t = some (ws', u) ∧
      ws = t.tw :: ws' := by
  rw [encodeBlocks, present_ok (s := { s with coef := c }) hs (decode_encode_twEnc o)] at h
  split at h
  case h_1 t ht =>
    obtain ⟨r, hr, hrt⟩ := Option.map_eq_some_iff.mp h
    cases hrt
    refine ⟨t, r.1, ht, ?_, hr, rfl⟩
    by_contra hne
    exact hne ((encodeBlocks_halted hne hr).symm.trans hu)
  all_goals cases h

theorem decodeBlocks_cons {o : WalkOperands} {os : List WalkOperands} {d d' u : State} {r : List (Coefs × WalkResult)}
    (hd : d.err = 0) (h : exec (.twDec o) { d with cseq := d.cseq + 1 } = .next d')
    (hr : decodeBlocks os d' = some (r, u)) :
    decodeBlocks (o :: os) d = some ((d'.coef, d'.tw) :: r, u) := by
  rw [decodeBlocks, present_ok hd (decode_encode_twDec o), h]
  dsimp only
  rw [hr]
  rfl

theorem State.Coding.encodeBlocks {blocks : List (WalkOperands × Coefs)} {s u : State} {ws : List WalkResult}
    (hs : s.Coding) (h : Machine.encodeBlocks blocks s = some (ws, u)) (hu : u.err = 0) : u.Coding := by
  induction blocks generalizing s ws with
  | nil => cases h; exact hs
  | cons b blocks ih =>
    obtain ⟨t, ws', hwalk, ht, hrest, -⟩ := encodeBlocks_cons hs.running h hu
    exact ih ((hs.loaded b.2).twEnc hwalk ht) hrest

/-- All blocks: by induction on the list, each taken back by `TW.DEC` where `TW.ENC` coded it (R191). -/
theorem decodeBlocks_encodeBlocks {m : Memory 8} {n : Nat} {δ : Nat → Word} {blocks : List (WalkOperands × Coefs)}
    {s u : State} {ws : List WalkResult} (hs : s.Coding) (h : encodeBlocks blocks s = some (ws, u)) (hu : u.err = 0)
    (hw : u.be.Window m n) :
    s.be.Window m n ∧ ∀ d, d.err = 0 → Lock m n δ s d → ∃ v, v.err = 0 ∧ Lock m n δ u v ∧
      decodeBlocks (blocks.map Prod.fst) d = some ((blocks.map codedPart).zip ws, v) := by
  induction blocks generalizing s ws with
  | nil => cases h; exact ⟨hw, fun d hd hlock => ⟨d, hd, hlock, rfl⟩⟩
  | cons b blocks ih =>
    obtain ⟨o, c⟩ := b
    obtain ⟨t, ws', hwalk, ht, hrest, rfl⟩ := encodeBlocks_cons hs.running h hu
    have hload := hs.loaded c
    obtain ⟨hw1, hblocks⟩ := ih (hload.twEnc hwalk ht) hrest
    obtain ⟨hw0, hblock⟩ := twDec_undoes_twEnc (δ := δ) hload hwalk ht hw1
    refine ⟨hw0, fun d hd hlock => ?_⟩
    obtain ⟨d', hd', hlock', herr, hcoef, htw⟩ :=
      hblock { d with cseq := d.cseq + 1 } (hlock.congr rfl rfl rfl rfl)
    obtain ⟨v, hv, hlockv, hdec⟩ := hblocks d' (herr.trans hd) hlock'
    refine ⟨v, hv, hlockv, ?_⟩
    rw [List.map_cons, decodeBlocks_cons hd hd' hdec, hcoef, htw]
    rfl

/-! ### The stream around the blocks -/

theorem present_beInit {s : State} (h : s.err = 0) :
    present (encode .beInit) s = .next { s with cseq := s.cseq + 1, be := s.be.start } := by
  rw [present_ok (i := .beInit) h rfl]
  rfl

/-- `BE.INIT` readies the encoder (R131). -/
theorem State.Inv.started {s : State} (h : s.Inv) (he : s.err = 0) :
    State.Coding { s with cseq := s.cseq + 1, be := s.be.start } :=
  ⟨he, rfl, ⟨Encoder.start_sound _ _, h.obuf_countable, h.spaces.obuf_wf, h.spaces.obuf_within, h.spaces.brc_wf,
    h.spaces.brc_within⟩⟩

/-- A command after which the block runs was given to a running block (R271). -/
theorem running_of_present {s t : State} {w : Word} (h : present w s = .next t) (ht : t.err = 0) : s.err = 0 := by
  by_contra hs
  rw [present_halted hs] at h
  cases h
  exact hs ht

/-- A flush without an error: the stream lies in the interval of the encoder it found, and is written (R138). -/
theorem State.Coding.flushed {s e : State} (hs : s.Coding) (h : present (encode .beFlush) s = .next e) (he : e.err = 0) :
    s.be.Window e.be.obuf e.be.len.toNat ∧ (∀ i, i < e.be.len.toNat → (e.be.obuf.read .buffer i).isSome) ∧
      2 ≤ e.be.len.toNat := by
  rw [present_ok (i := .beFlush) hs.running rfl] at h
  obtain ⟨hwindow, hwritten, hlen, -⟩ :=
    execBeFlush_window (s := { s with cseq := s.cseq + 1 }) hs.ok.sound hs.ok.size hs.active h he
  exact ⟨hwindow, hwritten, hlen⟩

theorem HoldsStream.holds {e d : State} (h : HoldsStream e d)
    (hwritten : ∀ i, i < e.be.len.toNat → (e.be.obuf.read .buffer i).isSome) : Holds e.be.obuf e.be.len.toNat d :=
  ⟨congrArg BitVec.toNat h.len, h.fits, h.bytes, hwritten⟩

/-- `BD.INIT` on a partition that holds a stream puts the decoder in lock step with the encoder after `BE.INIT`. -/
theorem Holds.present_bdInit {m : Memory 8} {n : Nat} {s d : State} (h : Holds m n d) (h2 : 2 ≤ n) (hd : d.err = 0)
    (hprob : d.prob = s.prob) :
    ∃ u, present (encode .bdInit) d = .next u ∧ u.err = 0 ∧
      Lock m n (fun j => d.brc.get j - s.brc.get j) { s with cseq := s.cseq + 1, be := s.be.start } u := by
  have hc : Holds m n { d with cseq := d.cseq + 1 } := ⟨h.len, h.fits, h.bytes, h.written⟩
  obtain ⟨hsync, hreads⟩ := hc.opened h2 s.be
  refine ⟨_, (present_ok (i := .bdInit) hd rfl).trans hc.execBdInit, hd, ⟨rfl, hsync, hreads, hprob, fun j => ?_⟩⟩
  exact (add_sub_cancel (s.brc.get j) (d.brc.get j)).symm

/-- Settles O44: the flushed stream lies in the interval after the last block, so the decoder, in lock step with the encoder
from the start, takes back each block. -/
theorem blocksSurviveTheRoundTrip : Obligations.BlocksSurviveTheRoundTrip := by
  intro s a b e d blocks ws hinv hs hinit henc hflush he hd hprob hstream
  rw [present_beInit hs] at hinit
  cases hinit
  have hstart := hinv.started hs
  have hb := running_of_present hflush he
  obtain ⟨hwindow, hwritten, hlen⟩ := (hstart.encodeBlocks henc hb).flushed hflush he
  obtain ⟨u, hu, hurun, hlock⟩ := (hstream.holds hwritten).present_bdInit hlen hd hprob
  obtain ⟨-, hdecode⟩ := decodeBlocks_encodeBlocks (δ := fun j => d.brc.get j - s.brc.get j) hstart henc hb hwindow
  obtain ⟨v, hvrun, hvlock, hdec⟩ := hdecode u hurun hlock
  refine ⟨u, v, hu, hdec, hvrun, hvlock.sync.eoi, fun j => ?_⟩
  rw [hvlock.counts j]
  ring

end Sys2Proof.Machine
end

section
/-! Taking the DC term out of a block (44_quantizer.md R235). -/

namespace Sys2Proof.Machine

/-- A cleared slot reads 0, and every other slot reads as before (R21). -/
theorem State.c_setC_zero (s : State) (slot k : Fin 16) : (s.setC slot 0).c k = if k = slot then 0 else s.c k :=
  s.c_setC slot k 0

/-- `QZ.TAKEDC` clears slot 0 and keeps what stood there in `DCR` (R235). -/
theorem exec_qzTakedc (s : State) : exec .qzTakedc s = .next { s.setC 0 0 with dcr := s.coef[0] } := rfl

/-- Settles O50: the word is the one of format N, and the slots are read after clearing slot 0. -/
theorem takedcMovesTheDcTerm : Obligations.TakedcMovesTheDcTerm := by
  refine ⟨decode_encode_of_row (i := .qzTakedc) Laws.MatchMask.qzTakedc rfl, fun s => ⟨_, exec_qzTakedc s, rfl, rfl, ?_, ?_⟩⟩
  · exact (s.c_setC_zero 0 0).trans (if_pos rfl)
  · exact fun k hk => (s.c_setC_zero 0 k).trans (if_neg hk)

end Sys2Proof.Machine
end

section
/-! The command of no unit (45_system.md R245). -/

namespace Sys2Proof

/-- Opcode 0 is the row of `NOP`, of format N (R87, R95). -/
theorem decode_of_opcode_zero {w : Word} (h : opcodeOf w = 0) : decode w = formatN w .nop := by
  unfold decode
  rw [h]
  rfl

/-- A format N word with a reserved bit set is rejected (R87, R97). -/
theorem formatN_of_ne_zero {w : Word} (h : operandsOf w ≠ 0) (i : Instr) :
    formatN w i = .error (.reservedBit (opcodeOf w)) := if_neg h

end Sys2Proof

namespace Sys2Proof.Machine

/-- `NOP` itself does nothing (R245): what a command is counted by happens before it executes (R103). -/
theorem exec_nop (s : State) : exec .nop s = .next s := rfl

/-- Settles O51: the word 0 decodes to `NOP`, the other words of its opcode are rejected for a reserved bit, and a halted block
ignores every word. -/
theorem nopOnlyCounts : Obligations.NopOnlyCounts := by
  intro s
  refine ⟨fun hrun => ⟨?_, exec_nop s, fun w hop hfield => ?_⟩, fun hhalted => present_halted hhalted _⟩
  · have hdec : decode 0x00000000 = .ok .nop := decode_encode_of_row Laws.MatchMask.nop rfl
    exact (present_ok hrun hdec).trans (exec_nop _)
  · exact present_rejected hrun ((decode_of_opcode_zero hop).trans (formatN_of_ne_zero hfield .nop))

end Sys2Proof.Machine
end

section
/-! Reserved words: an undefined opcode, a reserved bit or a reserved field value (30_encoding.md R96 to R98;
60_exceptions.md R264). -/

namespace Sys2Proof

/-- What a word with the opcode of a row can decode to: the command of that row with the operands of the word, and only if its
reserved bits are 0 (R95, R97). -/
theorem eq_of_decode_of_opcode {w : Word} {i j : Instr} (hop : opcodeOf w = opcodeOf (matchOf i)) (h : decode w = .ok j) :
    w &&& maskOf i = matchOf i ∧ i.withOperandsOf w = j := by
  obtain ⟨hclear, hj⟩ := whenClear_eq_ok_iff.mp (decode_of_opcode hop ▸ h)
  exact ⟨(and_maskOf_eq_matchOf_iff w i).mpr ⟨hop, hclear⟩, hj⟩

/-- A word is reserved when it decodes to no well-formed command (R96 to R98). -/
def ReservedWord (w : Word) : Prop := ∀ j, decode w = .ok j → j.wellFormed = false

/-- An undefined opcode (R96). -/
theorem reservedWord_of_opcode {w : Word} (h : ∀ i, opcodeOf w ≠ opcodeOf (matchOf i)) : ReservedWord w :=
  fun j hj => absurd (opcodeOf_of_decode hj) (h j)

/-- A 1 in a reserved bit of the format (R97). -/
theorem reservedWord_of_bit {w : Word} {i : Instr} (hop : opcodeOf w = opcodeOf (matchOf i)) (h : w &&& maskOf i ≠ matchOf i) :
    ReservedWord w :=
  fun _ hj => absurd (eq_of_decode_of_opcode hop hj).1 h

/-- A reserved value in a field of the format (R98). -/
theorem reservedWord_of_field {w : Word} {i : Instr} (hop : opcodeOf w = opcodeOf (matchOf i))
    (h : (i.withOperandsOf w).wellFormed = false) : ReservedWord w :=
  fun _ hj => (eq_of_decode_of_opcode hop hj).2 ▸ h

theorem catLegal_eq_false {cat : BitVec 3} (h : cat = 0 ∨ cat = 7) : catLegal cat = false := by
  obtain rfl | rfl := h <;> rfl

theorem clsLegal_eq_false {cls : BitVec 2} (h : cls = 3) : clsLegal cls = false := by
  rw [h]
  rfl

end Sys2Proof

namespace Sys2Proof.Machine

/-- The decoder rejects a reserved word, or it decodes to an ill-formed term, which its meaning rejects (R264). -/
theorem present_of_reservedWord {s : State} {w : Word} (hs : s.err = 0) (h : ReservedWord w) :
    present w s = .next { s with cseq := s.cseq + 1, err := 3, errInfo := s.cseq } := by
  cases hd : decode w with
  | error r => exact present_rejected hs hd
  | ok i => exact present_of_not_wellFormed hs hd (h i hd)

/-- Settles O4: each of the four causes makes the word a reserved one, whatever the state. -/
theorem reservedWordRaisesUnsupportedMode : Obligations.ReservedWordRaisesUnsupportedMode := by
  intro s w hs hcause
  apply present_of_reservedWord hs
  obtain hopcode | ⟨i, hop, hbit⟩ | ⟨hop | hop, hcat⟩ | ⟨hop | hop, hcls⟩ := hcause
  · exact reservedWord_of_opcode hopcode
  · exact reservedWord_of_bit hop hbit
  · exact reservedWord_of_field (i := .tvDec 0) hop (catLegal_eq_false hcat)
  · exact reservedWord_of_field (i := .tvEnc 0) hop (catLegal_eq_false hcat)
  · exact reservedWord_of_field (i := .qzQuant 0) hop (clsLegal_eq_false hcls)
  · exact reservedWord_of_field (i := .qzDequant 0) hop (clsLegal_eq_false hcls)

end Sys2Proof.Machine
end

section
/-! Encoding and decoding undo each other (30_encoding.md R85 to R97): the operand fields are read back as they were put in,
and an accepted word is its opcode with the operand field of its command. -/

namespace Sys2Proof

/-! ### The operand fields of a command's word -/

/-- A field below the opcode is a field of the operands (R85). -/
theorem extractLsb'_wordOf {start len : Nat} (h : start + len ≤ 24) (op : Byte) (f : BitVec 24) :
    (wordOf op f).extractLsb' start len = f.extractLsb' start len := BitVec.extractLsb'_append_eq_of_add_le h

theorem getLsbD_wordOf {k : Nat} (h : k < 24) (op : Byte) (f : BitVec 24) : (wordOf op f).getLsbD k = f.getLsbD k := by
  rw [wordOf, BitVec.getLsbD_append, if_pos h]

/-- `B` is bit 8 (R89, R90). -/
theorem bitAndProb_getLsbD (b : Bool) (p : Byte) : (bitAndProb b p).getLsbD 8 = b := by
  rw [bitAndProb, BitVec.getLsbD_append, if_neg (by decide), BitVec.getLsbD_append]
  simp

/-- The operands of a command stand in its word (R87 to R94). -/
theorem withOperandsOf_encode (i : Instr) : i.withOperandsOf (encode i) = i := by
  cases i
  case bdGet p => exact congrArg Instr.bdGet ((extractLsb'_wordOf (by decide) _ _).trans BitVec.extractLsb'_append_eq_right)
  case bePut b p =>
    exact congrArg₂ Instr.bePut ((getLsbD_wordOf (by decide) _ _).trans (bitAndProb_getLsbD b p))
      ((extractLsb'_wordOf (by decide) _ _).trans BitVec.extractLsb'_append_eq_right)
  case bePutu b => exact congrArg Instr.bePutu ((getLsbD_wordOf (by decide) _ _).trans (bitAndProb_getLsbD b 0))
  case tvDec cat => exact congrArg Instr.tvDec ((extractLsb'_wordOf (by decide) _ _).trans BitVec.extractLsb'_append_eq_right)
  case tvEnc cat => exact congrArg Instr.tvEnc ((extractLsb'_wordOf (by decide) _ _).trans BitVec.extractLsb'_append_eq_right)
  case twDec o => exact congrArg Instr.twDec (Machine.walkOperandsOf_encode o).2
  case twEnc o => exact congrArg Instr.twEnc (Machine.walkOperandsOf_encode o).1
  case qzQuant cls => exact congrArg Instr.qzQuant ((extractLsb'_wordOf (by decide) _ _).trans BitVec.extractLsb'_append_eq_right)
  case qzDequant cls =>
    exact congrArg Instr.qzDequant ((extractLsb'_wordOf (by decide) _ _).trans BitVec.extractLsb'_append_eq_right)
  all_goals rfl

open Laws.MatchMask in
/-- The word of a command has its row's bits (R95). -/
theorem encode_and_maskOf (i : Instr) : encode i &&& maskOf i = matchOf i := by
  cases i with
  | nop => exact nop
  | bdInit => exact bdInit
  | bdGet p => exact bdGet p
  | bdGetu => exact bdGetu
  | beInit => exact beInit
  | bePut b p => exact bePut b p
  | bePutu b => exact bePutu b
  | beFlush => exact beFlush
  | tvDec cat => exact tvDec cat
  | tvEnc cat => exact tvEnc cat
  | twDec o => exact twDec o
  | twEnc o => exact twEnc o
  | brcClr => exact brcClr
  | qzQuant cls => exact qzQuant cls
  | qzDequant cls => exact qzDequant cls
  | qzTakedc => exact qzTakedc

theorem decode_encode (i : Instr) : decode (encode i) = .ok i :=
  Machine.decode_encode_of_row (encode_and_maskOf i) (withOperandsOf_encode i)

/-- Settles O1: the word of a command has its row's bits, and the operands are read back from it. -/
theorem decodeOfEncode : Obligations.DecodeOfEncode := decode_encode

/-! ### An accepted word -/

theorem wordOf_opcodeOf {w : Word} {op : Byte} {f : BitVec 24} (hop : opcodeOf w = op) (hf : operandsOf w = f) :
    wordOf op f = w := by
  rw [← hop, ← hf]
  exact opcodeOf_append_operandsOf w

/-- A field of one bit. -/
theorem ofBool_getLsbD (w : Word) (k : Nat) : BitVec.ofBool (w.getLsbD k) = w.extractLsb' k 1 := by
  refine BitVec.eq_of_getLsbD_eq fun j hj => ?_
  obtain rfl : j = 0 := by omega
  simp

/-- Two fields side by side are one field (R85). -/
theorem extractLsb'_append {w : Word} {start m n : Nat} :
    w.extractLsb' (start + n) m ++ w.extractLsb' start n = w.extractLsb' start (m + n) :=
  BitVec.extractLsb'_append_extractLsb'_eq_extractLsb' rfl

/-- With the bits above the lowest field 0, that field is all there is (formats G, C, Q; R88, R91, R93). -/
theorem extractLsb'_eq_zero_append {w : Word} (m n : Nat) (hz : w.extractLsb' n m = 0) :
    w.extractLsb' 0 (m + n) = (0 : BitVec m) ++ w.extractLsb' 0 n := by
  rw [← hz]
  exact (BitVec.extractLsb'_append_extractLsb'_eq_extractLsb' (Nat.zero_add n).symm).symm

theorem operandsOf_formatU {w : Word} (hz : w.extractLsb' 9 15 = 0) :
    operandsOf w = bitAndProb (w.getLsbD 8) (w.extractLsb' 0 8) := by
  rw [bitAndProb, ← hz, ofBool_getLsbD, extractLsb'_append (start := 8) (n := 1), extractLsb'_append (start := 0) (n := 8)]
  rfl

theorem operandsOf_formatB {w : Word} (hz : w.extractLsb' 9 15 ++ w.extractLsb' 0 8 = 0) :
    operandsOf w = bitAndProb (w.getLsbD 8) 0 := by
  obtain ⟨hhigh, hlow⟩ := (append_eq_zero_iff _ _).mp hz
  rw [← hlow]
  exact operandsOf_formatU hhigh

theorem operandsOf_formatT {w : Word} (hz : w.extractLsb' 7 17 = 0) : operandsOf w = walkField (walkOperandsOf w) := by
  simp only [walkField, walkOperandsOf, ← hz, ofBool_getLsbD]
  rw [extractLsb'_append (start := 6) (n := 1), extractLsb'_append (start := 5) (n := 1),
    extractLsb'_append (start := 4) (n := 1), extractLsb'_append (start := 3) (n := 1),
    extractLsb'_append (start := 2) (n := 1), extractLsb'_append (start := 0) (n := 2)]
  rfl

/-- Settles O2: the opcode picks the row, the reserved bits of its format are 0, and the remaining bits are the fields. -/
theorem encodeOfDecode : Obligations.EncodeOfDecode := by
  intro w i h
  unfold decode at h
  split at h
  case h_17 => cases h
  all_goals
    rename_i hop
    obtain ⟨hclear, rfl⟩ := whenClear_eq_ok_iff.mp h
    refine wordOf_opcodeOf (BitVec.eq_of_toNat_eq hop) ?_
  case h_3 => exact extractLsb'_eq_zero_append 16 8 hclear
  case h_6 => exact operandsOf_formatU hclear
  case h_7 => exact operandsOf_formatB hclear
  case h_9 | h_10 => exact extractLsb'_eq_zero_append 21 3 hclear
  case h_11 | h_12 => exact operandsOf_formatT hclear
  case h_14 | h_15 => exact extractLsb'_eq_zero_append 22 2 hclear
  all_goals exact hclear

end Sys2Proof
end

section
/-! The invariant of the machine (Sys2Proof/Safety.lean): every piece of a command keeps it, an error during execution keeps
the part of it that a halted block needs, and a step stops the model only for want of input. -/

namespace Sys2Proof.Machine

/-! ### The invariant, halted and running -/

/-- The part of the invariant that does not speak of the coder halves or of an error. -/
structure State.Shaped (s : State) : Prop where
  spaces : s.SpacesOk
  bd_pos : s.bd.pos.toNat ≤ s.bd.llen.toNat
  bd_inside : s.bd.lbase.toNat + s.bd.llen.toNat ≤ s.ibufSize
  be_len : s.be.len.toNat ≤ s.obufSize
  tw_pos : s.tw.pos.toNat ≤ 16
  tw_ctx : s.tw.ctx.toNat ≤ 2
  obuf_countable : s.obufSize < 2 ^ 32

theorem State.Inv.shaped {s : State} (h : s.Inv) : s.Shaped :=
  ⟨h.spaces, h.bd_pos, h.bd_inside, h.be_len, h.tw_pos, h.tw_ctx, h.obuf_countable⟩

/-- Of a halted block the invariant asks its shape only (R271). -/
theorem State.Shaped.inv_of_halted {s : State} (h : s.Shaped) (he : s.err ≠ 0) (h1 : s.err ≠ Err.malformedBitstream.code) :
    s.Inv :=
  ⟨h.spaces, fun h0 => absurd h0 he, h.bd_pos, h.bd_inside, h.be_len, h.tw_pos, h.tw_ctx, fun h0 => absurd h0 he, h1,
    fun _ => he, h.obuf_countable⟩

theorem Err.code_injective {e e' : Err} (h : e.code = e'.code) : e = e' := by
  revert h
  cases e <;> cases e' <;> decide

/-- The error entry keeps the shape, so the halted block meets the invariant, whatever the error but code 1 (R262, R270). -/
theorem State.Shaped.inv_haltEntry {s : State} (h : s.Shaped) {e : Err} (he : e ≠ .malformedBitstream) (m : Bool) :
    ({ s.haltEntry e with midHalt := m } : State).Inv :=
  State.Shaped.inv_of_halted { h with spaces := { h.spaces with } } (Err.code_ne_zero e) fun hc => he (Err.code_injective hc)

theorem State.Inv.inv_haltEntry {s : State} (h : s.Inv) {e : Err} (he : e ≠ .malformedBitstream) : (s.haltEntry e).Inv :=
  h.shaped.inv_haltEntry he s.midHalt

/-- The invariant of a running block, from its shape and its coder halves. -/
theorem State.Shaped.inv_of_running {s t : State} (h : t.Shaped) (hc : t.CodersOk) (hs : s.Inv) (he : s.err = 0)
    (ht : t.err = s.err ∧ t.errInfo = s.errInfo ∧ t.midHalt = s.midHalt) : t.Inv := by
  obtain ⟨herr, hinfo, hmid⟩ := ht
  have hrun : t.err = 0 := herr.trans he
  exact ⟨h.spaces, fun _ => hc, h.bd_pos, h.bd_inside, h.be_len, h.tw_pos, h.tw_ctx, fun _ => hinfo.trans (hs.err_info he),
    fun h1 => hs.no_malformed (herr.symm.trans h1), fun hm => absurd he (hs.mid_halt (hmid.symm.trans hm)), h.obuf_countable⟩

/-- The invariant speaks of none of these fields. -/
theorem State.Inv.of_unrelated {s t : State} (h : s.Inv)
    (ht : t = { s with
      coef := t.coef, bitr := t.bitr, val := t.val, dcr := t.dcr, bdBase := t.bdBase, bdLen := t.bdLen, qstep := t.qstep
      cseq := t.cseq, reply := t.reply }) : t.Inv := by
  rw [ht]
  exact { h with spaces := { h.spaces with }, coders := fun he => { h.coders he with } }

/-- Nor of the host's list. -/
theorem State.Inv.taken {s : State} (h : s.Inv) (t : HostTx s.sizes) (rest : List (HostTx s.sizes)) : (s.taken t rest).Inv :=
  { h with spaces := { h.spaces with }, coders := fun he => { h.coders he with } }

theorem Memory.within_nil {w : Nat} (n : Nat) : Memory.within n ([] : Memory w) := fun _ hc => nomatch hc

/-- A reset block meets the invariant, whatever stands around it (R53, R246). -/
theorem inv_reset {p : Port} (hp : p.sizes.obuf < 2 ^ 32) (tick resets : Nat) :
    ({ State.reset with port := p, tick := tick, resets := resets } : State).Inv where
  spaces := ⟨Memory.wf_nil _, Memory.within_nil _, Memory.wf_nil _, Memory.within_nil _, Memory.wf_nil _, Memory.within_nil _,
    Memory.wf_nil _, Memory.within_nil _⟩
  coders _ := ⟨fun h => Bool.noConfusion h, fun h => Bool.noConfusion h⟩
  bd_pos := le_rfl
  bd_inside := Nat.zero_le _
  be_len := Nat.zero_le _
  tw_pos := Nat.zero_le _
  tw_ctx := Nat.zero_le _
  err_info _ := rfl
  no_malformed h := absurd h (show (0 : BitVec 3) ≠ 1 by decide)
  mid_halt h := Bool.noConfusion h
  obuf_countable := hp

/-! ### Pieces of commands -/

theorem State.Inv.decodeOk {s : State} (h : s.Inv) (he : s.err = 0) (ha : s.bd.active = true) : s.DecodeOk :=
  ⟨(h.coders he).bd_range ha, h.bd_pos, h.spaces.brc_wf, h.spaces.brc_within⟩

theorem State.Inv.encodeOk {s : State} (h : s.Inv) (he : s.err = 0) (ha : s.be.active = true) : s.EncodeOk :=
  ⟨(h.coders he).be_sound ha, h.obuf_countable, h.spaces.obuf_wf, h.spaces.obuf_within, h.spaces.brc_wf, h.spaces.brc_within⟩

/-- A piece of a decoding command keeps the invariant. -/
theorem State.Inv.decodeStep {s t : State} (h : s.Inv) (he : s.err = 0) (ht : s.DecodeStep t) : t.Inv := by
  have hframe := ht.same
  have hsizes : t.port = s.port := by rw [hframe]
  refine State.Shaped.inv_of_running ⟨?_, ht.ok.pos, ?_, ?_, ?_, ?_, ?_⟩ ⟨fun _ => ht.ok.range, fun ha => ?_⟩ h he ?_
  · have hbrc := ht.ok.brc_wf
    have hin := ht.ok.brc_within
    rw [hframe] at hbrc hin ⊢
    exact { h.spaces with brc_wf := hbrc, brc_within := hin }
  · rw [ht.lbase, ht.llen, State.ibufSize, State.sizes, hsizes]; exact h.bd_inside
  · rw [hframe]; exact h.be_len
  · rw [hframe]; exact h.tw_pos
  · rw [hframe]; exact h.tw_ctx
  · rw [hframe]; exact h.obuf_countable
  · rw [hframe] at ha ⊢; exact (h.coders he).be_sound ha
  · rw [hframe]; exact ⟨rfl, rfl, rfl⟩


/-- A piece of an encoding command keeps the invariant. -/
theorem State.Inv.encodeStep {n : Nat} {s t : State} (h : s.Inv) (he : s.err = 0) (ht : State.EncodeStep n s t) : t.Inv := by
  have hframe := ht.same
  refine State.Shaped.inv_of_running ⟨?_, ?_, ?_, ht.ok.sound.len_le, ?_, ?_, ht.ok.size⟩ ⟨fun ha => ?_, fun _ => ht.ok.sound⟩
    h he ?_
  · obtain ⟨-, -, hobuf, hobufIn, hbrc, hbrcIn⟩ := ht.ok
    rw [hframe] at hobuf hobufIn hbrc hbrcIn ⊢
    exact { h.spaces with obuf_wf := hobuf, obuf_within := hobufIn, brc_wf := hbrc, brc_within := hbrcIn }
  · rw [hframe]; exact h.bd_pos
  · rw [hframe]; exact h.bd_inside
  · rw [hframe]; exact h.tw_pos
  · rw [hframe]; exact h.tw_ctx
  · rw [hframe] at ha ⊢; exact (h.coders he).bd_range ha
  · rw [hframe]; exact ⟨rfl, rfl, rfl⟩

/-- A piece that failed has kept the shape. -/
theorem State.Jammed.shaped {s t : State} {bt : BitVec 2} {n : Nat} {e : Err} (h : s.Jammed bt n e t) (hs : s.Shaped) :
    t.Shaped := by
  obtain ⟨hframe, hbuf, hbrc, hbrcIn, -⟩ := h
  rw [hframe] at hbuf hbrc hbrcIn ⊢
  exact { hs with
    spaces := { hs.spaces with obuf_wf := hbuf.wf, obuf_within := hbuf.within, brc_wf := hbrc, brc_within := hbrcIn }
    be_len := hbuf.len_le }

theorem State.Jammed.ne_malformed {s t : State} {bt : BitVec 2} {n : Nat} {e : Err} (h : s.Jammed bt n e t) :
    e ≠ .malformedBitstream := by
  obtain ⟨rfl, -⟩ | ⟨rfl, -⟩ := h.cause <;> decide

/-- A walk ends at most one past the last position, with a context from 0 to 2 (R44, R45). -/
theorem State.Inv.walked {s : State} (h : s.Inv) {w : WalkResult} (hpos : w.pos.toNat ≤ 16) (hctx : w.ctx.toNat ≤ 2) :
    ({ s with tw := w } : State).Inv :=
  { h with spaces := { h.spaces with }, coders := fun he => { h.coders he with }, tw_pos := hpos, tw_ctx := hctx }

theorem toNat_ofNat_context (c : Fin 3) : (BitVec.ofNat 2 c).toNat ≤ 2 := by
  revert c
  decide

theorem WalkDone.ctx_le {s t : State} {n : Nat} {ctx : Fin 3} {lastz : Bool} {w : WalkResult}
    (h : WalkDone s n ctx lastz w t) : w.ctx.toNat ≤ 2 := by
  have hge := h.pos_ge
  have hle := h.pos_le
  by_cases hpos : w.pos.toNat = n
  · rw [h.ctx_start hpos]
    exact toNat_ofNat_context ctx
  · rw [h.ctx_end ⟨w.pos.toNat - 1, by omega⟩ (by dsimp only; omega) (by dsimp only; omega)]
    exact toNat_ofNat_context _

theorem WalkCoded.ctx_le {s : State} {n nEnd : Nat} {ctx : Fin 3} {w : WalkResult} (h : WalkCoded s n nEnd ctx w)
    (hn : n ≤ nEnd) (hend : nEnd ≤ 16) : w.ctx.toNat ≤ 2 := by
  by_cases hpos : nEnd = n
  · rw [h.ctx_start hpos]
    exact toNat_ofNat_context ctx
  · rw [h.ctx_end ⟨nEnd - 1, by omega⟩ (by dsimp only; omega) (by dsimp only; omega)]
    exact toNat_ofNat_context _

/-- The walk of a block ends between the first position and 16 (R190). -/
theorem endPosition_bounds (s : State) (o : WalkOperands) : firstPosition o ≤ endPosition s o ∧ endPosition s o ≤ 16 := by
  have hfirst := firstPosition_le o
  obtain ⟨hend, -⟩ | ⟨j, hj, hend, -⟩ := endPosition_cases s o <;> omega

/-! ### Opening a partition and finishing a stream -/

/-- Opening a partition completes, or stops at one of its first two bytes (R54, R111). -/
theorem Decoder.openPartition_ends (ibuf : Memory 8) (base len : Word) (d : Decoder) :
    (d.openPartition ibuf base len).Ends (fun _ d' => d' = Decoder.opened ibuf base len) (fun _ _ => False)
      fun f => f = .unwrittenInput ∧ ∃ k, k < 2 ∧ k < len.toNat ∧ ibuf.read .buffer (base.toNat + k) = none := by
  by_cases h : ∀ k, k < 2 → k < len.toNat → (ibuf.read .buffer (base.toNat + k)).isSome
  · rw [Decoder.openPartition_ok d h]
    exact rfl
  · push Not at h
    obtain ⟨k, hk, hlen, hnone⟩ := h
    have hnone := Option.not_isSome_iff_eq_none.mp hnone
    rw [Decoder.openPartition_stop d hk hlen hnone]
    exact ⟨rfl, k, hk, hlen, hnone⟩

/-- A flush completes or finds the buffer full, and keeps the buffer in order either way (R138). -/
theorem Encoder.flush_ends {e : Encoder} {size : Nat} (hsize : size < 2 ^ 32) (h : e.Coding size) (hbuf : e.BufferOk size) :
    (e.flush size).Ends (fun _ e' => e'.active = false ∧ e'.BufferOk size) (fun x e' => x = .bufferBounds ∧ e'.BufferOk size)
      fun _ => False := by
  have hkept := Encoder.flush_bufferOk hsize hbuf
  by_cases hl : e.len.toNat + 4 ≤ size
  · obtain ⟨e', hok, hflushed⟩ := Encoder.flush_ok hsize h hl
    rw [hok] at hkept ⊢
    exact ⟨by rw [hflushed.same], hkept⟩
  · obtain ⟨e', hfull⟩ := Encoder.flush_full hsize h (not_le.mp hl)
    rw [hfull] at hkept ⊢
    exact ⟨rfl, hkept⟩

/-- Another encoder with its buffer in order, active only if it is sound. -/
theorem State.Shaped.withEncoder {s : State} (h : s.Shaped) {e : Encoder} (he : e.BufferOk s.obufSize) :
    ({ s with be := e } : State).Shaped :=
  { h with spaces := { h.spaces with obuf_wf := he.wf, obuf_within := he.within }, be_len := he.len_le }

/-! ### Commands -/

/-- How the outcome of a command turns out: `P` of a next state, `F` of a fault; no command is refused. -/
def Settles (P : State → Prop) (F : Fault → Prop) : Host.Outcome State Fault Refusal → Prop
  | .next t => P t
  | .fault f => F f
  | .refused _ => False

theorem Settles.mono {P : State → Prop} {F F' : Fault → Prop} {o : Host.Outcome State Fault Refusal} (h : Settles P F o)
    (hf : ∀ f, F f → F' f) : Settles P F' o := by
  cases o with
  | next t => exact h
  | fault f => exact hf f h
  | refused r => exact h

theorem settles_finish {P : State → Prop} {F : Fault → Prop} {r : Res State Unit}
    (h : r.Ends (fun _ t => P t) (fun e t => P { t.haltEntry e with midHalt := true }) F) : Settles P F (finish r) := by
  cases r <;> exact h

/-- The only stop of a command that meets the invariant (R54): the input it needs has not been written. -/
def Starving (i : Instr) (s : State) : Prop :=
  i = .bdInit ∧ (∃ k, k < 2 ∧ k < s.bdLen.toNat ∧ s.ibuf.read .buffer (s.bdBase.toNat + k) = none) ∨
    ((∃ p, i = .bdGet p ∧ p ≠ 0) ∨ i = .bdGetu ∨ (∃ c, i = .tvDec c) ∨ ∃ o, i = .twDec o) ∧
      s.bd.active = true ∧ ¬s.bd.InputWritten s.ibuf

section
variable {s : State} (h : s.Inv) (he : s.err = 0)
include h

theorem settles_reject {F : Fault → Prop} {e : Err} (hne : e ≠ .malformedBitstream) : Settles State.Inv F (reject e s) :=
  h.inv_haltEntry hne

/-- Without its half of the coder a command is rejected (R266). -/
theorem settles_whenDecoding {F : Fault → Prop} {k : Host.Outcome State Fault Refusal}
    (hk : s.bd.active = true → Settles State.Inv F k) : Settles State.Inv F (whenDecoding s k) := by
  unfold whenDecoding
  split_ifs with ha
  · exact hk ha
  · exact settles_reject h (by decide)

theorem settles_whenEncoding {F : Fault → Prop} {k : Host.Outcome State Fault Refusal}
    (hk : s.be.active = true → Settles State.Inv F k) : Settles State.Inv F (whenEncoding s k) := by
  unfold whenEncoding
  split_ifs with ha
  · exact hk ha
  · exact settles_reject h (by decide)

theorem settles_jammed {F : Fault → Prop} {α : Type} {r : Res State α} {bt : BitVec 2} {n : Nat} {P : α → State → Prop}
    (hr : r.Ends P (s.Jammed bt n) fun _ => False) :
    r.Ends P (fun e t => ({ t.haltEntry e with midHalt := true } : State).Inv) F :=
  hr.mono (fun _ _ hp => hp) (fun _ _ hj => (hj.shaped h.shaped).inv_haltEntry hj.ne_malformed true) fun _ hf => hf.elim

theorem settles_qzQuant {F : Fault → Prop} (cls : BitVec 2) : Settles State.Inv F (execQzQuant cls s) := by
  unfold execQzQuant
  split
  · exact settles_reject h (by decide)
  · split_ifs
    · exact settles_reject h (by decide)
    · exact h.of_unrelated rfl

theorem settles_qzDequant {F : Fault → Prop} (cls : BitVec 2) : Settles State.Inv F (execQzDequant cls s) := by
  unfold execQzDequant
  split
  · exact settles_reject h (by decide)
  · split_ifs
    · exact h.of_unrelated rfl
    · exact settles_reject h (by decide)

include he

theorem settles_bdInit : Settles State.Inv (fun f => f = .unwrittenInput ∧ Starving .bdInit s) (execBdInit s) := by
  unfold execBdInit
  split_ifs with hfits
  · rw [partitionFits_iff] at hfits
    refine settles_finish (((Decoder.openPartition_ends s.ibuf s.bdBase s.bdLen s.bd).mono ?_ (fun _ _ hf => hf.elim)
      fun _ hf => ⟨hf.1, .inl ⟨rfl, hf.2⟩⟩).into)
    rintro - d rfl
    have hpos : (BitVec.ofNat 32 (min 2 s.bdLen.toNat)).toNat ≤ s.bdLen.toNat := by
      rw [BitVec.toNat_ofNat]
      exact (Nat.mod_le _ _).trans (Nat.min_le_right _ _)
    exact { h with
      spaces := { h.spaces with }
      coders := fun _ => ⟨fun _ => (by decide : 128 ≤ (255 : Byte).toNat), (h.coders he).be_sound⟩
      bd_pos := hpos
      bd_inside := hfits }
  · exact settles_reject h (by decide)

/-- One query into `BITR` (R114, R115). -/
theorem settles_getToBitr {i : Instr} (hi : (∃ p, i = .bdGet p ∧ p ≠ 0) ∨ i = .bdGetu) (p : Byte) (ha : s.bd.active = true) :
    Settles State.Inv (fun f => f = .unwrittenInput ∧ Starving i s) (finish (getToBitr p s)) := by
  refine settles_finish (((getQuery_ends (h.decodeOk he ha) p).mono (fun _ _ ht => ht) (fun _ _ hf => hf.elim)
    fun f hf => ⟨hf.1, .inr ⟨hi.imp_right .inl, ha, hf.2⟩⟩).bind ?_)
  rintro b t ⟨ht, -⟩
  exact (h.decodeStep he ht).of_unrelated rfl

theorem settles_tvDec (cat : BitVec 3) :
    Settles State.Inv (fun f => f = .unwrittenInput ∧ Starving (.tvDec cat) s) (execTvDec cat s) := by
  unfold execTvDec
  split
  · exact settles_reject h (by decide)
  · next c _ =>
    refine settles_whenDecoding h fun ha => settles_finish (((tvDec_ends (h.decodeOk he ha) c).mono (fun _ _ ht => ht)
      (fun _ _ hf => hf.elim) fun f hf => ⟨hf.1, .inr ⟨.inr (.inr (.inl ⟨cat, rfl⟩)), ha, hf.2⟩⟩).bind ?_)
    rintro v t ⟨ht, -⟩
    exact (h.decodeStep he ht).of_unrelated rfl

theorem settles_twDec (o : WalkOperands) :
    Settles State.Inv (fun f => f = .unwrittenInput ∧ Starving (.twDec o) s) (execTwDec o s) := by
  refine settles_whenDecoding h fun ha => settles_finish (((walkDec_command (h.decodeOk he ha) o).mono (fun _ _ ht => ht) ?_
    fun f hf => ⟨hf.1, .inr ⟨.inr (.inr (.inr ⟨o, rfl⟩)), ha, hf.2⟩⟩).bind ?_)
  · rintro e t ⟨ht, rfl, -⟩
    exact (h.decodeStep he ht).shaped.inv_haltEntry (by decide) true
  · intro w t ht
    exact (h.decodeStep he ((clearCoefs_decodeStep (h.decodeOk he ha)).trans ht.step)).walked ht.pos_le ht.ctx_le

theorem settles_putQuery {F : Fault → Prop} (b : Bool) (p : Byte) (ha : s.be.active = true) :
    Settles State.Inv F (finish (putQuery b p s)) :=
  settles_finish ((settles_jammed h (putQuery_ends (h.encodeOk he ha) 0 b p)).mono (fun _ _ ht => h.encodeStep he ht.1)
    (fun _ _ ht => ht) fun _ hf => hf)

theorem settles_beFlush {F : Fault → Prop} : Settles State.Inv F (execBeFlush s) := by
  refine settles_whenEncoding h fun ha => settles_finish (Res.Ends.into ?_)
  have hok := h.encodeOk he ha
  refine (Encoder.flush_ends hok.size hok.sound.toCoding ⟨hok.obuf_wf, hok.obuf_within, hok.sound.len_le⟩).mono ?_ ?_
    fun _ hf => hf.elim
  · rintro - e ⟨hstopped, hbuf⟩
    exact (h.shaped.withEncoder hbuf).inv_of_running
      ⟨(h.coders he).bd_range, fun hact => Bool.noConfusion (hstopped.symm.trans hact)⟩ h he ⟨rfl, rfl, rfl⟩
  · rintro x e ⟨rfl, hbuf⟩
    exact (h.shaped.withEncoder hbuf).inv_haltEntry (by decide) true

theorem settles_tvEnc {F : Fault → Prop} (cat : BitVec 3) : Settles State.Inv F (execTvEnc cat s) := by
  unfold execTvEnc
  split
  · exact settles_reject h (by decide)
  · next c _ =>
    refine settles_whenEncoding h fun ha => ?_
    split_ifs with hoff
    · exact settles_reject h (by decide)
    · obtain ⟨off, hoff⟩ := Option.ne_none_iff_exists'.mp (mt Option.isNone_iff_eq_none.mpr hoff)
      exact settles_finish ((settles_jammed h (tvEnc_ends (h.encodeOk he ha) 0 hoff)).mono
        (fun _ _ ht => h.encodeStep he ht.1) (fun _ _ ht => ht) fun _ hf => hf)

theorem settles_twEnc {F : Fault → Prop} (o : WalkOperands) : Settles State.Inv F (execTwEnc o s) := by
  refine settles_whenEncoding h fun ha => ?_
  split_ifs with hc
  · refine settles_finish ((settles_jammed h (walkEnc_command (h.encodeOk he ha) o hc)).bind ?_)
    rintro w t ⟨ht, hw⟩
    obtain ⟨hfirst, hend⟩ := endPosition_bounds s o
    exact (h.encodeStep he ht).walked (hw.pos ▸ hend) (hw.ctx_le hfirst hend)
  · exact settles_reject h (by decide)

/-- From the invariant every command leads to a state that meets it, but for a decoding command whose input is not written. -/
theorem settles_exec (i : Instr) : Settles State.Inv (fun f => f = .unwrittenInput ∧ Starving i s) (exec i s) := by
  cases i with
  | nop => exact h
  | bdInit => exact settles_bdInit h he
  | bdGet p =>
    refine settles_whenDecoding h fun ha => ?_
    split_ifs with hp
    · exact settles_reject h (by decide)
    · exact settles_getToBitr h he (.inl ⟨p, rfl, hp⟩) p ha
  | bdGetu => exact settles_whenDecoding h fun ha => settles_getToBitr h he (.inr rfl) _ ha
  | beInit =>
    exact { h with
      spaces := { h.spaces with }
      coders := fun hrun => ⟨(h.coders hrun).bd_range, fun _ => Encoder.start_sound s.be s.obufSize⟩
      be_len := Nat.zero_le _ }
  | bePut b p =>
    refine settles_whenEncoding h fun ha => ?_
    split_ifs
    · exact settles_reject h (by decide)
    · exact settles_putQuery h he b p ha
  | bePutu b => exact settles_whenEncoding h fun ha => settles_putQuery h he b _ ha
  | beFlush => exact settles_beFlush h he
  | tvDec cat => exact settles_tvDec h he cat
  | tvEnc cat => exact settles_tvEnc h he cat
  | twDec o => exact settles_twDec h he o
  | twEnc o => exact settles_twEnc h he o
  | brcClr =>
    exact { h with
      spaces := { h.spaces with brc_wf := Memory.wf_nil _, brc_within := Memory.within_nil _ }
      coders := fun hrun => { h.coders hrun with } }
  | qzQuant cls => exact settles_qzQuant h cls
  | qzDequant cls => exact settles_qzDequant h cls
  | qzTakedc => exact h.of_unrelated rfl

end

/-! ### Steps -/

/-- A host write keeps the invariant: the spaces it can reach stay canonical and inside their bounds (R50, R248). -/
theorem State.Inv.hostWrite {s : State} (h : s.Inv) (e : Element s.sizes) (v : Word) : (hostWrite s e v).Inv := by
  unfold Machine.hostWrite
  split_ifs
  · exact h
  · have hcoders (hrun : s.err = 0) : State.CodersOk s := h.coders hrun
    cases e with
    | csr n =>
      unfold elementWrite csrWrite
      dsimp only
      split
      all_goals exact h.of_unrelated rfl
    | coef slot => exact h.of_unrelated rfl
    | prob j =>
      exact { h with
        spaces := { h.spaces with
          prob_wf := Memory.write_wf _ _ h.spaces.prob_wf
          prob_within := Memory.write_within (k := .table) _ j.isLt h.spaces.prob_within }
        coders := fun hrun => { hcoders hrun with } }
    | brc j => exact h
    | ibuf i =>
      exact { h with
        spaces := { h.spaces with
          ibuf_wf := Memory.write_wf _ _ h.spaces.ibuf_wf
          ibuf_within := Memory.write_within (k := .buffer) _ i.isLt h.spaces.ibuf_within }
        coders := fun hrun => { hcoders hrun with } }
    | obuf i => exact h

theorem settles_present {s : State} (h : s.Inv) (w : Word) :
    Settles State.Inv (fun f => f = .unwrittenInput ∧ s.err = 0 ∧ ∃ i, decode w = .ok i ∧ Starving i s) (present w s) := by
  have haccept : s.accept.Inv := h.of_unrelated rfl
  unfold present
  split_ifs with hhalted
  · exact h
  · have he : s.err = 0 := not_not.mp (mt (halted_iff s).mpr hhalted)
    cases hd : decode w with
    | error r => exact settles_reject haccept (by decide)
    | ok i =>
      exact (settles_exec haccept he i).mono fun _ ⟨hf, hstarving⟩ => ⟨hf, he, i, rfl, hstarving⟩

/-- What a step from the invariant turns out to be. -/
theorem settles_step {s : State} (h : s.Inv) :
    Settles State.Inv (fun f => f = .unwrittenInput ∧ s.err = 0 ∧
      ∃ w rest i, s.host = .cmd w :: rest ∧ decode w = .ok i ∧ Starving i s) (step s) := by
  cases hhost : s.host with
  | nil =>
    rw [step_nil hhost]
    exact h
  | cons x rest =>
    have htaken := h.taken x rest
    rw [step_cons hhost]
    cases x with
    | reset => exact inv_reset (p := s.port.withPending rest) h.obuf_countable _ _
    | read e => exact htaken.of_unrelated rfl
    | write e v => exact htaken.hostWrite e v
    | cmd w =>
      exact (settles_present htaken w).mono fun _ ⟨hf, he, i, hd, hstarving⟩ => ⟨hf, he, w, rest, i, rfl, hd, hstarving⟩

/-- Settles O54: a next state of a step from the invariant meets it. -/
theorem everyStepKeepsTheInvariant : Obligations.EveryStepKeepsTheInvariant := by
  intro s t h hstep
  have hsettles := settles_step h
  rw [hstep] at hsettles
  exact hsettles

/-- Settles O55: the only fault of a step from the invariant is that of a command that starves, and no step is refused. -/
theorem onlyTheHostCanStopARun : Obligations.OnlyTheHostCanStopARun := by
  intro s h
  have hsettles := settles_step h
  refine ⟨fun f hstep => ?_, fun r hstep => ?_⟩
  · rw [hstep] at hsettles
    exact hsettles
  · rw [hstep] at hsettles
    exact hsettles

/-- Settles O53: the reset state is the reset block with the port the model gives it. -/
theorem invariantAtReset : Obligations.InvariantAtReset :=
  ⟨inv_reset (by decide) 0 0, fun p hp => inv_reset hp 0 0⟩

end Sys2Proof.Machine
end

section
/-! The coder's round trip (40_boolean_decoder.md R110): each decision encoded into a stream is answered where the decoder, in
lock step with the encoder, reads the stream back. -/

namespace Sys2Proof.Machine

/-- An encoder between two commands of a stream: the block runs, the half is active and sound. -/
structure State.Encoding (s : State) : Prop where
  running : s.err = 0
  active : s.be.active = true
  sound : s.be.Sound s.obufSize
  size : s.obufSize < 2 ^ 32

/-- Words presented without an error: the first without an error, then the others. -/
theorem presentAll_cons {w : Word} {ws : List Word} {s u : State} (h : presentAll (w :: ws) s = some u) (hu : u.err = 0) :
    ∃ t, present w s = .next t ∧ t.err = 0 ∧ presentAll ws t = some u := by
  rw [presentAll] at h
  split at h
  case h_1 t ht =>
    refine ⟨t, ht, ?_, h⟩
    by_contra hne
    rw [presentAll_halted _ hne] at h
    exact hne ((congrArg State.err (Option.some.inj h)).trans hu)
  all_goals cases h

/-- A `BE.PUT` without an error has coded its decision (R133, R136). -/
theorem State.Encoding.bePut {s t : State} (hs : s.Encoding) {b : Bool} {p : Byte}
    (h : present (encode (.bePut b p)) s = .next t) (ht : t.err = 0) :
    p ≠ 0 ∧ t.Encoding ∧ ∃ k, s.be.Coded t.be b p k s.obufSize := by
  have hp : p ≠ 0 := by
    rintro rfl
    rw [present_bePut_zero (decode_encode _) hs.running hs.active] at h
    cases h
    exact Err.code_ne_zero .invalidProbability ht
  refine ⟨hp, ?_⟩
  rw [present_bePut (decode_encode _) hs.running hs.active hp, putQuery] at h
  obtain ⟨e, hput, -⟩ | ⟨e, k, hput, hcoded⟩ := Encoder.put_spec hs.size hs.sound b p
  · rw [hput] at h
    cases h
    exact absurd ht (Err.code_ne_zero .bufferBounds)
  · rw [hput] at h
    cases h
    exact ⟨⟨hs.running, hcoded.active.trans hs.active, hcoded.sound, hs.size⟩, k, hcoded⟩

/-- A decoder in lock step with the encoder `e` over the stream of `n` bytes in `o`. -/
structure State.Decoding (o : Memory 8) (n : Nat) (e : Encoder) (d : State) : Prop where
  running : d.err = 0
  active : d.bd.active = true
  sync : Sync o e d.bd
  reads : d.bd.Reads o n d.ibuf

/-- `BD.GET` answers the decision that was coded, and the two halves stay in lock step. -/
theorem State.Decoding.bdGet {o : Memory 8} {n size k : Nat} {e e' : Encoder} {d : State} {b : Bool} {p : Byte}
    (hd : State.Decoding o n e d) (hp : p ≠ 0) (hcoded : e.Coded e' b p k size) (hrange : 128 ≤ e.range.toNat)
    (hw : e'.Window o n) : ∃ t, present (encode (.bdGet p)) d = .next t ∧ t.bitr = b ∧ State.Decoding o n e' t := by
  obtain ⟨d', hget, hsync, hreads⟩ := hd.sync.get hd.reads hcoded hrange hw
  have hactive := Decoder.get_active hd.reads.input.next (by rw [hd.sync.range]; omega) hget
  have hquery : getQuery p d = .ok b { d with bd := d' } := by rw [getQuery, hget, Res.into_ok]
  exact ⟨_, present_bdGet (decode_encode _) hd.running hd.active hp hquery, rfl, hd.running, hactive.trans hd.active, hsync,
    hreads⟩

/-- A flushed stream lies in the interval of every encoder on the way, and the decoder takes back what is still to come. -/
theorem answers_of_presentAll {ds : List (Bool × Byte)} {s e : State} (hs : s.Encoding)
    (h : presentAll (ds.map (fun q => encode (.bePut q.1 q.2)) ++ [encode .beFlush]) s = some e) (he : e.err = 0) :
    (s.be.Window e.be.obuf e.be.len.toNat ∧ (∀ i, i < e.be.len.toNat → (e.be.obuf.read .buffer i).isSome) ∧
      2 ≤ e.be.len.toNat) ∧
    ∀ d, State.Decoding e.be.obuf e.be.len.toNat s.be d →
      ∃ t, answers (ds.map fun q => encode (.bdGet q.2)) d = some (ds.map Prod.fst, t) ∧ t.err = 0 ∧ t.bd.eoi = false := by
  induction ds generalizing s with
  | nil =>
    obtain ⟨t, hflush, -, hnil⟩ := presentAll_cons h he
    cases hnil
    rw [present_ok hs.running (decode_encode _)] at hflush
    obtain ⟨hwindow, hwritten, hlen, -⟩ :=
      execBeFlush_window (s := { s with cseq := s.cseq + 1 }) hs.sound hs.size hs.active hflush he
    exact ⟨⟨hwindow, hwritten, hlen⟩, fun d hd => ⟨d, rfl, hd.running, hd.sync.eoi⟩⟩
  | cons q ds ih =>
    obtain ⟨t, hput, ht, hrest⟩ := presentAll_cons h he
    obtain ⟨hp, hcoding, k, hcoded⟩ := hs.bePut hput ht
    obtain ⟨⟨hwindow, hwritten, hlen⟩, hdec⟩ := ih hcoding hrest
    have hrange := hs.sound.range_ge
    refine ⟨⟨(hwindow.before hcoded (by omega)).1, hwritten, hlen⟩, fun d hd => ?_⟩
    obtain ⟨x, hget, hbit, hx⟩ := hd.bdGet hp hcoded hrange hwindow
    obtain ⟨u, hu, herr, heoi⟩ := hdec x hx
    refine ⟨u, ?_, herr, heoi⟩
    simp only [List.map_cons, answers, hget, hu, Option.map_some, hbit]

/-- Settles O32: the encoder starts sound, the decoder opens in lock step with it, and each decision comes back. -/
theorem decodeInvertsEncode : Obligations.DecodeInvertsEncode := by
  intro s e d ds hsize h he hd hstream
  obtain ⟨a, hinit, ha, hrest⟩ := presentAll_cons h he
  rw [present_beInit (running_of_present hinit ha)] at hinit
  cases hinit
  obtain ⟨⟨-, hwritten, hlen⟩, hdec⟩ := answers_of_presentAll ⟨ha, rfl, Encoder.start_sound _ _, hsize⟩ hrest he
  obtain ⟨u, hu, hurun, hlock⟩ := (hstream.holds hwritten).present_bdInit (s := { s with prob := d.prob }) hlen hd rfl
  obtain ⟨t, ht⟩ := hdec u ⟨hurun, hlock.active, hlock.sync, hlock.reads⟩
  exact ⟨u, t, hu, ht⟩

end Sys2Proof.Machine
end

section
/-! A block halted by an error during execution (60_exceptions.md R271): what it answers depends on `ERR`, `ERRINFO`, `CSEQ` and
the model's own fields only. -/

namespace Sys2Proof.Machine

/-- Everything of a state but what R271 keeps of a block halted during execution. -/
def State.forgotten (s s' : State) : State :=
  { s' with
    err := s.err, errInfo := s.errInfo, cseq := s.cseq, port := s.port, reply := s.reply, midHalt := s.midHalt, tick := s.tick
    resets := s.resets }

theorem State.forgotten_eq {s s' : State} (herr : s.err = s'.err) (hinfo : s.errInfo = s'.errInfo) (hcseq : s.cseq = s'.cseq)
    (hport : s.port = s'.port) (hreply : s.reply = s'.reply) (hmid : s.midHalt = s'.midHalt) (htick : s.tick = s'.tick)
    (hresets : s.resets = s'.resets) : s.forgotten s' = s' := by
  unfold State.forgotten
  rw [herr, hinfo, hcseq, hport, hreply, hmid, htick, hresets]

theorem status_forgotten {s : State} (hmid : s.midHalt = true) (s' : State) : (s.forgotten s').status = s.status := by
  unfold State.status
  rw [hmid, show (s.forgotten s').midHalt = true from hmid]
  rfl

/-- What stays readable is `STATUS`, `ERR`, `ERRINFO` and `CSEQ`. -/
theorem elementValue_forgotten {s : State} (hmid : s.midHalt = true) (s' : State) {e : Element s.sizes}
    (hr : readableHalted e = true) : elementValue (s.forgotten s') e = elementValue s e := by
  cases e with
  | csr n =>
    have hn : n.val ≤ 3 := by simpa [readableHalted] using hr
    obtain rfl | rfl | rfl | rfl : n = 0 ∨ n = 1 ∨ n = 2 ∨ n = 3 := by omega
    · exact (elementValue_status (s.forgotten s')).trans (status_forgotten hmid s')
    · exact elementValue_err (s.forgotten s')
    · exact elementValue_errInfo (s.forgotten s')
    · exact elementValue_cseq (s.forgotten s')
  | _ => simp [readableHalted] at hr

/-- A read of a block halted during execution sees nothing else. -/
theorem hostRead_forgotten {s : State} (he : s.err ≠ 0) (hmid : s.midHalt = true) (s' : State) (e : Element s.sizes) :
    hostRead (s.forgotten s') e = hostRead s e := by
  by_cases hr : readableHalted e = true
  · exact (hostRead_readable (s.forgotten s') hr).trans
      ((elementValue_forgotten hmid s' hr).trans (hostRead_readable s hr).symm)
  · exact ((hostRead_halted (s := s.forgotten s') he e).trans (if_neg hr)).trans
      ((hostRead_halted he e).trans (if_neg hr)).symm

/-- A step of a block halted during execution goes by what is not forgotten: it keeps that, or it is a reset. -/
theorem step_forgotten {s : State} (he : s.err ≠ 0) (hmid : s.midHalt = true) (s' : State) :
    ∃ t t', step s = .next t ∧ step (s.forgotten s') = .next t' ∧
      (t.err = s.err ∧ t.midHalt = true ∧ t' = t.forgotten s' ∨ t = t') := by
  cases hh : s.host with
  | nil => exact ⟨_, _, step_nil hh, step_nil (s := s.forgotten s') hh, .inl ⟨rfl, hmid, rfl⟩⟩
  | cons x rest =>
    cases x with
    | reset => exact ⟨_, _, step_reset hh, step_reset (s := s.forgotten s') hh, .inr rfl⟩
    | read e =>
      refine ⟨_, _, step_read hh, step_read (s := s.forgotten s') hh, .inl ⟨rfl, hmid, ?_⟩⟩
      rw [hostRead_forgotten he hmid s' e]
      rfl
    | write e v =>
      exact ⟨_, _, step_write_halted he hh, step_write_halted (s := s.forgotten s') he hh, .inl ⟨rfl, hmid, rfl⟩⟩
    | cmd w =>
      exact ⟨_, _, step_cmd_halted he hh, step_cmd_halted (s := s.forgotten s') he hh, .inl ⟨rfl, hmid, rfl⟩⟩

/-- Settles O56: the second state is the first with everything else forgotten, and no step looks at the rest. -/
theorem partialStateIsUnobservable : Obligations.PartialStateIsUnobservable := by
  rintro s s' alike ⟨he, hmid, herr, hinfo, hcseq, hport, hreply, hmid', htick, hresets⟩
  rw [← State.forgotten_eq herr hinfo hcseq hport hreply hmid' htick hresets]
  obtain ⟨t, t', ht, ht', ⟨herr, hm, rfl⟩ | heq⟩ := step_forgotten he hmid s'
  · exact ⟨t, _, ht, ht', .inl ⟨herr ▸ he, hm, rfl, rfl, rfl, rfl, rfl, rfl, rfl, rfl⟩⟩
  · exact ⟨t, t', ht, ht', .inr heq⟩

end Sys2Proof.Machine
end

section
/-! One step of the host's list (45_system.md R246 to R250): what a command adds to `CSEQ` and leaves in `ERRINFO`, and the
ways out of the halted state. -/

namespace Sys2Proof.Machine

/-- Settles O6: the word presented next is the head of the host's list, whichever way it came there. -/
theorem stepRunsDecodedCommand : Obligations.StepRunsDecodedCommand := by
  intro s w rest i hh he hd
  refine ⟨(step_cmd hh).trans (present_ok he hd), ?_⟩
  have hw : tableWord 32 w.toNat = w := by
    unfold tableWord
    rw [Nat.mod_eq_of_lt w.isLt, BitVec.ofNat_toNat, BitVec.setWidth_eq]
  rw [State.withFetchWord, hw]
  exact (step_cmd (s := s.presenting (.cmd w)) rfl).trans (present_ok he hd)

/-- Settles O13: a read leaves the block, so the second read meets the same block. -/
theorem hostReadIsIdempotent : Obligations.HostReadIsIdempotent := by
  refine ⟨fun s e rest hh => step_read hh, fun s e rest hh => ⟨_, rfl, step_read hh, ?_⟩⟩
  have h := step_read (s := { s.withHost (.read e :: rest) with reply := some (hostRead s e) }) (e := e) (rest := rest) rfl
  rw [hostRead_host s] at h
  exact h

theorem Ended.cseq {i : Instr} {s t : State} (h : Ended i s t) : t.cseq = s.cseq := by
  rcases h with hw | ⟨e, -, rfl⟩ | ⟨e, u, -, hw, rfl⟩
  · exact hw.cseq
  · rfl
  · exact hw.cseq

/-- A command that raises an error leaves its number in `ERRINFO`; one that raises none leaves the register (R270). -/
theorem Ended.errInfo {i : Instr} {s t : State} (h : Ended i s t) (he : s.err = 0) :
    t.errInfo = if t.err = 0 then s.errInfo else s.cseq - 1 := by
  rcases h with hw | ⟨e, -, rfl⟩ | ⟨e, u, -, hw, rfl⟩
  · rw [hw.err, if_pos he, hw.errInfo]
  · exact (if_neg (Err.code_ne_zero e)).symm
  · exact (congrArg (· - 1) hw.cseq).trans (if_neg (Err.code_ne_zero e)).symm

/-- A word presented to a running block is counted, and numbers the error it raises (R24, R270). -/
theorem present_running {s t : State} {w : Word} (he : s.err = 0) (h : present w s = .next t) :
    t.cseq = s.cseq + 1 ∧ t.errInfo = if t.err = 0 then s.errInfo else s.cseq := by
  cases hd : decode w with
  | error r =>
    rw [present_rejected he hd] at h
    cases h
    exact ⟨rfl, rfl⟩
  | ok i =>
    rw [present_ok he hd] at h
    have hE := exec_ended h
    refine ⟨hE.cseq, (hE.errInfo he).trans ?_⟩
    simp

/-- Settles O10, by the transaction performed. -/
theorem acceptedCommandsAreCounted : Obligations.AcceptedCommandsAreCounted := by
  intro s t x rest hh hs
  cases x with
  | reset => rw [step_reset hh] at hs; cases hs; rfl
  | read e => rw [step_read hh] at hs; cases hs; rfl
  | write e v =>
    by_cases he : s.err = 0
    · rw [step_write_running he hh] at hs; cases hs; rfl
    · rw [step_write_halted he hh] at hs; cases hs; rfl
  | cmd w =>
    by_cases he : s.err = 0
    · rw [step_cmd hh] at hs
      exact (present_running (s := { s.withHost rest with reply := none, tick := s.tick + 1 }) he hs).1.trans
        (if_pos he).symm
    · rw [step_cmd_halted he hh] at hs; cases hs; exact (if_neg he).symm

/-- Settles O11, from what a presented word does to a running block. -/
theorem errorNamesItsCommand : Obligations.ErrorNamesItsCommand := by
  intro s t w rest hh he hs
  rw [step_cmd hh] at hs
  obtain ⟨hcseq, hinfo⟩ := present_running (s := { s.withHost rest with reply := none, tick := s.tick + 1 }) he hs
  rw [State.status_getLsbD_zero]
  exact ⟨fun ht => ⟨hinfo.trans (if_neg ht), hcseq, decide_eq_true ht⟩,
    fun ht => ⟨hinfo.trans (if_pos ht), decide_eq_false (not_not.mpr ht)⟩⟩

/-- Settles O8: a halted block ignores commands and host writes, and a read changes nothing. -/
theorem resetIsTheOnlyWayOut : Obligations.ResetIsTheOnlyWayOut := by
  refine ⟨fun s rest hh => ⟨_, step_reset hh, rfl⟩, fun s t he hno hs => ?_⟩
  cases hh : s.host with
  | nil => rw [step_nil hh] at hs; cases hs; exact ⟨rfl, rfl, rfl⟩
  | cons x rest =>
    cases x with
    | reset => exact absurd hh (hno rest)
    | read e => rw [step_read hh] at hs; cases hs; exact ⟨rfl, rfl, rfl⟩
    | write e v => rw [step_write_halted he hh] at hs; cases hs; exact ⟨rfl, rfl, rfl⟩
    | cmd w => rw [step_cmd_halted he hh] at hs; cases hs; exact ⟨rfl, rfl, rfl⟩

end Sys2Proof.Machine
end

section
/-! What the host reads of a running block, and what a host write leaves there (45_system.md R247, R248; 10_state.md R28). -/

namespace Sys2Proof.Machine

/-- The numbers without a register read 0 (R28). -/
theorem csrRead_reserved (s : State) {n : Nat} (h : 27 ≤ n) : csrRead s n = 0 := by
  unfold csrRead
  split <;> first | omega | rfl

theorem ibufByte_written {s : State} {i : Nat} {b : Byte} (h : s.ibuf.read .buffer i = some b) : ibufByte s i = b := by
  unfold ibufByte; rw [h]; rfl

theorem obufByte_written {s : State} {i : Nat} {b : Byte} (hi : i < s.be.len.toNat) (h : s.be.obuf.read .buffer i = some b) :
    obufByte s i = b := by
  unfold obufByte; rw [if_pos hi, h]; rfl

/-- Settles O15, register by register. -/
theorem registerMap : Obligations.RegisterMap := by
  intro s he
  have hr := hostRead_running he
  have zx : ∀ {n : Nat} (x : BitVec n), n ≤ 32 → (x.zeroExtend 32).toNat = x.toNat := fun _ h => BitVec.toNat_setWidth_of_le h
  simp only [hr]
  refine ⟨zx _ (by decide), rfl, rfl, ?_, zx _ (by decide), BitVec.toInt_signExtend_of_le (by decide), rfl, rfl, rfl, rfl,
    zx _ (by decide), zx _ (by decide), rfl, rfl, zx _ (by decide), zx _ (by decide), rfl, rfl, zx _ (by decide),
    zx _ (by decide), zx _ (by decide), zx _ (by decide), zx _ (by decide), zx _ (by decide), zx _ (by decide),
    zx _ (by decide), fun n hn => csrRead_reserved s hn, fun k => BitVec.toInt_signExtend_of_le (by decide),
    fun j => zx _ (by decide), fun j => rfl, fun i b hb => ?_, fun i b hi hb => ?_⟩
  · exact (zx (BitVec.ofBool s.bitr) (by decide)).trans (BitVec.toNat_ofBool _)
  · exact (zx _ (by decide)).trans (congrArg BitVec.toNat (ibufByte_written hb))
  · exact (zx _ (by decide)).trans (congrArg BitVec.toNat (obufByte_written hi hb))

/-- A register of the CSR space after a host write to another one. -/
theorem csrRead_csrWrite_other (s : State) {n m : Nat} (v : Word) (h : m ≠ n) : csrRead (csrWrite s n v) m = csrRead s m := by
  unfold csrWrite
  split <;> (unfold csrRead; split <;> first | rfl | exact absurd rfl h)

/-- A register of the CSR space after a host write to it: the writable ones take the low bits (R248). -/
theorem csrRead_csrWrite_same (s : State) (n : Nat) (v : Word) :
    csrRead (csrWrite s n v) n =
      if n = 7 ∨ n = 8 then v
      else if n = 5 ∨ 21 ≤ n ∧ n ≤ 26 then (v.setWidth 16).zeroExtend 32
      else csrRead s n := by
  unfold csrWrite
  split
  case h_10 =>
    simp only [imp_false] at *
    rw [if_neg (by omega), if_neg (by omega)]
  all_goals rfl

/-- A coefficient shows in no register but `STATUS`. -/
theorem csrRead_setCoef (s : State) (c : Coefs) {m : Nat} (h : m ≠ 0) : csrRead { s with coef := c } m = csrRead s m := by
  unfold csrRead
  split <;> first | rfl | exact absurd rfl h

/-- A running block after a host write. -/
def State.rewritten (s : State) (e : Element s.sizes) (v : Word) : State :=
  { s with
    coef := (elementWrite s e v).coef, val := (elementWrite s e v).val, bdBase := (elementWrite s e v).bdBase
    bdLen := (elementWrite s e v).bdLen, qstep := (elementWrite s e v).qstep, prob := (elementWrite s e v).prob
    ibuf := (elementWrite s e v).ibuf }

theorem State.rewritten_csr (s : State) (n : Fin 64) (v : Word) : s.rewritten (.csr n) v = csrWrite s n v :=
  (elementWrite_frame s (.csr n) v).symm

theorem csrWrite_frame (s : State) (n : Nat) (v : Word) :
    (csrWrite s n v).coef = s.coef ∧ (csrWrite s n v).prob = s.prob ∧ (csrWrite s n v).ibuf = s.ibuf := by
  unfold csrWrite
  split <;> exact ⟨rfl, rfl, rfl⟩

/-- A host write to a register leaves every other element. -/
theorem elementValue_rewritten_csr (s : State) (n : Fin 64) (v : Word) {e : Element s.sizes} (h : e ≠ .csr n) :
    elementValue (s.rewritten (.csr n) v) e = elementValue s e := by
  obtain ⟨hcoef, hprob, hibuf⟩ := csrWrite_frame s n v
  cases e with
  | csr m =>
    refine (congrArg (csrRead · m) (s.rewritten_csr n v)).trans (csrRead_csrWrite_other s v fun hmn => h ?_)
    rw [Fin.ext hmn]
  | coef k => exact congrArg (fun block : Coefs => block[k].signExtend 32) hcoef
  | prob j => exact congrArg (fun m : Memory 8 => (m.get j).zeroExtend 32) hprob
  | brc j => rfl
  | ibuf i =>
    exact congrArg (fun m : Memory 8 => ((m.read .buffer i).getD (Config.unwrittenInput s.resets i)).zeroExtend 32) hibuf
  | obuf i => rfl

/-- A host write to a coefficient leaves every other element but `STATUS`. -/
theorem elementValue_rewritten_coef (s : State) (k : Fin 16) (v : Word) {e : Element s.sizes} (h : e ≠ .coef k)
    (h0 : e ≠ .csr 0) : elementValue (s.rewritten (.coef k) v) e = elementValue s e := by
  cases e with
  | csr m => exact csrRead_setCoef s _ fun hm => h0 (congrArg Element.csr (Fin.ext hm))
  | coef j =>
    have hjk : k.val ≠ j.val := fun hkj => h (congrArg Element.coef (Fin.ext hkj.symm))
    exact congrArg (BitVec.signExtend 32) (Vector.getElem_set_ne k.isLt j.isLt hjk)
  | _ => rfl

/-- A host write to an element of `PROB` leaves every other element. -/
theorem elementValue_rewritten_prob (s : State) (j : Fin 1056) (v : Word) {e : Element s.sizes} (h : e ≠ .prob j) :
    elementValue (s.rewritten (.prob j) v) e = elementValue s e := by
  cases e with
  | prob k =>
    have hkj : k.val ≠ j.val := fun hkj => h (congrArg Element.prob (Fin.ext hkj))
    exact congrArg (BitVec.zeroExtend 32) ((Memory.get_write _ _ _ _).trans (if_neg hkj))
  | _ => rfl

/-- A host write to a byte of `IBUF` leaves every other element. -/
theorem elementValue_rewritten_ibuf (s : State) (i : Fin s.ibufSize) (v : Word) {e : Element s.sizes} (h : e ≠ .ibuf i) :
    elementValue (s.rewritten (.ibuf i) v) e = elementValue s e := by
  cases e with
  | ibuf k =>
    have hki : k.val ≠ i.val := fun hki => h (congrArg Element.ibuf (Fin.ext hki))
    exact congrArg (fun b : Option Byte => (b.getD (Config.unwrittenInput s.resets k)).zeroExtend 32)
      (Memory.read_write_other .buffer s.ibuf _ hki)
  | _ => rfl

/-- Settles O12: the block becomes `s.rewritten e v`, whose elements the lemmas above look up. -/
theorem hostWriteSetsOneElement : Obligations.HostWriteSetsOneElement := by
  intro s e v rest he _ hh
  have hread (e' : Element s.sizes) : hostRead (s.rewritten e v) e' = elementValue (s.rewritten e v) e' :=
    hostRead_running (s := s.rewritten e v) he e'
  refine ⟨elementWrite s e v, step_write_running he hh, ?_, fun e' hne hcoef => ?_⟩
  · cases e with
    | csr n =>
      have hw : elementValue (s.rewritten (.csr n) v) (.csr n) = csrRead (csrWrite s n v) n :=
        congrArg (csrRead · n) (s.rewritten_csr n v)
      refine ((hread _).trans hw).trans ((csrRead_csrWrite_same s n v).trans ?_)
      rw [hostRead_running he]
      simp only [Fin.ext_iff]
      rfl
    | coef k => exact (hread _).trans (congrArg (BitVec.signExtend 32) (Vector.getElem_set_self k.isLt))
    | prob j => exact (hread _).trans (congrArg (BitVec.zeroExtend 32) ((Memory.get_write _ _ _ _).trans (if_pos rfl)))
    | brc j => exact (hread _).trans (hostRead_running he _).symm
    | ibuf i => 
      exact (hread _).trans (congrArg (BitVec.zeroExtend 32) (ibufByte_written (Memory.read_write_same .buffer s.ibuf _ _)))
    | obuf i => exact (hread _).trans (hostRead_running he _).symm
  · refine (hread e').trans (Eq.trans ?_ (hostRead_running he e').symm)
    cases e with
    | csr n => exact elementValue_rewritten_csr s n v hne
    | coef k => exact elementValue_rewritten_coef s k v hne (hcoef ⟨k, rfl⟩)
    | prob j => exact elementValue_rewritten_prob s j v hne
    | ibuf i => exact elementValue_rewritten_ibuf s i v hne
    | brc j => rfl
    | obuf i => rfl

end Sys2Proof.Machine
end

section
/-! The errors of the commands (60_exceptions.md R261 to R267): their codes tell their causes, and what a command that raises
one has written. -/

namespace Sys2Proof.Machine

/-- The cause behind an error code on a block that was running; an error found before execution changes nothing else. -/
theorem Ended.cause {i : Instr} {s t : State} {e : Err} (h : Ended i s t) (he : s.err = 0) (ht : t.err = e.code) :
    EarlyError i s e ∧ t = s.haltEntry e ∨ LateError i e := by
  rcases h with hw | ⟨e', hearly, rfl⟩ | ⟨e', u, hlate, -, rfl⟩
  · exact absurd (ht.symm.trans (hw.err.trans he)) (Err.code_ne_zero e)
  · obtain rfl := Err.code_injective (e := e') ht
    exact .inl ⟨hearly, rfl⟩
  · obtain rfl := Err.code_injective (e := e') ht
    exact .inr hlate

/-- Execution itself raises two errors only (R265, R268). -/
theorem LateError.cases {i : Instr} {e : Err} (h : LateError i e) : e = .bufferBounds ∨ e = .invalidProbability := by
  cases i <;> first | exact .inl h | exact .inr h | exact h | exact h.elim

theorem categoryOf_isSome {cat : BitVec 3} (h0 : cat ≠ 0) (h7 : cat ≠ 7) : ∃ c, categoryOf cat = some c :=
  Option.isSome_iff_exists.mp (by revert cat; decide)

theorem catLegal_of_categoryOf_eq_none {cat : BitVec 3} (h : categoryOf cat = none) : catLegal cat = false := by
  revert cat; decide

theorem clsLegal_of_stepsOf_eq_none {q : Steps} {cls : BitVec 2} (h : stepsOf q cls = none) : clsLegal cls = false := by
  have hcls : ∀ c : BitVec 2, c = 0 ∨ c = 1 ∨ c = 2 ∨ c = 3 := by decide
  obtain rfl | rfl | rfl | rfl := hcls cls
  · cases h
  · cases h
  · cases h
  · rfl

theorem whenDecoding_inactive {s : State} (h : s.bd.active = false) (k : Host.Outcome State Fault Refusal) :
    whenDecoding s k = reject .sequenceError s := by
  unfold whenDecoding; rw [h]; rfl

theorem whenDecoding_active {s : State} (h : s.bd.active = true) (k : Host.Outcome State Fault Refusal) :
    whenDecoding s k = k := if_pos h

theorem whenEncoding_inactive {s : State} (h : s.be.active = false) (k : Host.Outcome State Fault Refusal) :
    whenEncoding s k = reject .sequenceError s := by
  unfold whenEncoding; rw [h]; rfl

theorem whenEncoding_active {s : State} (h : s.be.active = true) (k : Host.Outcome State Fault Refusal) :
    whenEncoding s k = k := if_pos h

theorem exec_tvDec {cat : BitVec 3} {c : Category} (h : categoryOf cat = some c) (s : State) :
    exec (.tvDec cat) s =
      whenDecoding s (finish ((tvDec c s).bind fun v s => .ok () { s with val := BitVec.ofNat 16 v })) := by
  simp only [exec, execTvDec, h]

theorem exec_tvEnc {cat : BitVec 3} {c : Category} (h : categoryOf cat = some c) (s : State) :
    exec (.tvEnc cat) s =
      whenEncoding s
        (if (tvOffset c s.val.toNat).isNone then reject .rangeViolation s else finish (tvEnc c s.val.toNat s)) := by
  simp only [exec, execTvEnc, h]

/-- Settles O17: the precondition is the first thing a coder command checks after its reserved fields. -/
theorem unitPreconditions : Obligations.UnitPreconditions := by
  refine ⟨?_, ?_, ?_⟩
  · rintro s i ha (⟨p, rfl⟩ | rfl | ⟨cat, rfl, h0, h7⟩ | ⟨o, rfl⟩)
    · exact whenDecoding_inactive ha _
    · exact whenDecoding_inactive ha _
    · obtain ⟨c, hc⟩ := categoryOf_isSome h0 h7
      rw [exec_tvDec hc]
      exact whenDecoding_inactive ha _
    · exact whenDecoding_inactive ha _
  · rintro s i ha (⟨b, p, rfl⟩ | ⟨b, rfl⟩ | rfl | ⟨cat, rfl, h0, h7⟩ | ⟨o, rfl⟩)
    · exact whenEncoding_inactive ha _
    · exact whenEncoding_inactive ha _
    · exact whenEncoding_inactive ha _
    · obtain ⟨c, hc⟩ := categoryOf_isSome h0 h7
      rw [exec_tvEnc hc]
      exact whenEncoding_inactive ha _
    · exact whenEncoding_inactive ha _
  · intro s t i he h ht
    rcases (exec_ended h).cause (e := .sequenceError) he ht with ⟨hearly, -⟩ | hlate
    · cases i <;> simp_all [EarlyError]
    · rcases hlate.cases with h | h <;> cases h

/-- Settles O18: the operand is checked right after the precondition. -/
theorem zeroProbabilityOperand : Obligations.ZeroProbabilityOperand :=
  fun _ => ⟨fun ha => whenDecoding_active ha _, fun ha _ => whenEncoding_active ha _⟩

/-- Settles O21, command by command: the causes of each code stand in `EarlyError` and `LateError`. -/
theorem codesByCommand : Obligations.CodesByCommand := by
  intro s t i he h
  have hE := exec_ended h
  refine ⟨fun ht => ?_, fun ht => ?_, fun ht => ?_, fun ht => ?_, fun ht => ?_⟩
  · rcases hE.cause (e := .malformedBitstream) he ht with ⟨hearly, -⟩ | hlate
    · cases i <;> simp [EarlyError] at hearly
    · rcases hlate.cases with h | h <;> cases h
  · rcases hE.cause (e := .unsupportedMode) he ht with ⟨hearly, -⟩ | hlate
    · cases i with
      | tvDec cat => exact catLegal_of_categoryOf_eq_none (by simpa [EarlyError] using hearly)
      | tvEnc cat => exact catLegal_of_categoryOf_eq_none (by simpa [EarlyError] using hearly)
      | qzQuant cls => exact clsLegal_of_stepsOf_eq_none (q := s.qstep) (by simpa [EarlyError] using hearly)
      | qzDequant cls => exact clsLegal_of_stepsOf_eq_none (q := s.qstep) (by simpa [EarlyError] using hearly)
      | _ => simp [EarlyError] at hearly
    · rcases hlate.cases with h | h <;> cases h
  · rcases hE.cause (e := .invalidProbability) he ht with ⟨hearly, -⟩ | hlate
    · cases i <;> simp_all [EarlyError]
    · cases i <;> simp [LateError] at hlate ⊢
  · rcases hE.cause (e := .divideByZero) he ht with ⟨hearly, -⟩ | hlate
    · cases i <;> simp [EarlyError] at hearly ⊢
    · rcases hlate.cases with h | h <;> cases h
  · rcases hE.cause (e := .bufferBounds) he ht with ⟨hearly, -⟩ | hlate
    · cases i <;> simp [EarlyError] at hearly ⊢
    · cases i <;> simp [LateError] at hlate ⊢

/-- Settles O22: execution raises none of these codes, so they come from the checks before it. -/
theorem earlyErrorsChangeNothingElse : Obligations.EarlyErrorsChangeNothingElse := by
  intro s t i he h ht
  obtain ⟨e, hcode, hb, hp⟩ : ∃ e : Err, t.err = e.code ∧ e ≠ .bufferBounds ∧ e ≠ .invalidProbability := by
    rcases ht with ht | ht | ht | ht
    · exact ⟨.rangeViolation, ht, by decide, by decide⟩
    · exact ⟨.unsupportedMode, ht, by decide, by decide⟩
    · exact ⟨.sequenceError, ht, by decide, by decide⟩
    · exact ⟨.divideByZero, ht, by decide, by decide⟩
  rcases (exec_ended h).cause he hcode with ⟨-, rfl⟩ | hlate
  · rfl
  · exact (hlate.cases.elim hb hp).elim

/-- Settles O20: each cause makes the check before execution fail, and no execution raises the code. -/
theorem rangeViolationBeforeAnyChange : Obligations.RangeViolationBeforeAnyChange := by
  refine ⟨?_, ?_, ?_, ?_⟩
  · rintro s o ha ⟨j, hj, hbig⟩
    have hfirst : firstPosition o ≤ j.val := by
      unfold firstPosition
      split_ifs with hskip
      · have := Fin.val_ne_of_ne (hj hskip); simp at this; omega
      · omega
    have hc : allCodable s o ≠ true := fun hc => absurd ((allCodable_iff s o).mp hc j hfirst) (by unfold coefAt; omega)
    exact (whenEncoding_active ha _).trans (if_neg hc)
  · intro s cat c ha hcat hval
    have ho : tvOffset c s.val.toNat = none := by
      rw [Option.eq_none_iff_forall_ne_some]
      intro off hoff
      have := tvOffset_eq_some.mp hoff
      omega
    rw [exec_tvEnc hcat, whenEncoding_active ha, ho]
    rfl
  · rintro s cls dc ac hsteps ⟨k, hk⟩
    have hfit : ((List.finRange 16).all fun slot => fitsCoef (product s dc ac slot)) ≠ true := fun hall => by
      have h := (fitsCoef_iff _).mp (List.all_eq_true.mp hall k (List.mem_finRange k))
      unfold product at h
      rw [slotStep_toNat] at h
      split_ifs at hk h <;> omega
    simp only [exec, execQzDequant, hsteps]
    exact if_neg hfit
  · intro s t i he h ht
    rcases (exec_ended h).cause (e := .rangeViolation) he ht with ⟨hearly, -⟩ | hlate
    · cases i <;> simp [EarlyError] at hearly ⊢
    · rcases hlate.cases with h | h <;> cases h

theorem Written.refl (i : Instr) (s : State) : Written i s s := by cases i <;> rfl

/-- Whether a command completes or raises an error, it has written no more than its row of `Written`, besides the halt. -/
theorem Ended.written {i : Instr} {s t : State} (h : Ended i s t) :
    ∃ u, Written i s u ∧ t = { u with err := t.err, errInfo := t.errInfo, midHalt := t.midHalt } := by
  rcases h with hw | ⟨e, -, rfl⟩ | ⟨e, u, -, hw, rfl⟩
  · exact ⟨t, hw, rfl⟩
  · exact ⟨s, .refl i s, rfl⟩
  · exact ⟨u, hw, rfl⟩

/-- Settles O52, command by command: what `Written` does not list for the command is as before. -/
theorem whoWritesWhat : Obligations.WhoWritesWhat := by
  intro i s t h
  obtain ⟨u, hw, ht⟩ := (exec_ended h).written
  rw [ht]
  dsimp only
  cases i <;> (unfold Written at hw; dsimp only at hw; rw [hw]; simp)

end Sys2Proof.Machine
end

section
/-! The quantizer's commands (44_quantizer.md R222 to R230) and the indices of the tables (10_state.md R48, R49). -/

namespace Sys2Proof.Machine

theorem exec_qzQuant {s : State} {cls : BitVec 2} {dc ac : BitVec 16} (h : stepsOf s.qstep cls = some (dc, ac))
    (hdc : dc ≠ 0) (hac : ac ≠ 0) :
    exec (.qzQuant cls) s = .next (s.mapCoefs fun slot v => tdiv v (slotStep dc ac slot).toNat) := by
  simp only [exec, execQzQuant, h]
  exact if_neg (not_or.mpr ⟨hdc, hac⟩)

theorem exec_qzDequant {s : State} {cls : BitVec 2} {dc ac : BitVec 16} (h : stepsOf s.qstep cls = some (dc, ac))
    (hfit : ∀ k : Fin 16, -32768 ≤ product s dc ac k ∧ product s dc ac k ≤ 32767) :
    exec (.qzDequant cls) s = .next (s.mapCoefs fun slot _ => product s dc ac slot) := by
  simp only [exec, execQzDequant, h]
  exact if_pos (List.all_eq_true.mpr fun k _ => (fitsCoef_iff _).mpr (hfit k))

/-- Products that fit a register are what the register then holds. -/
theorem State.c_dequant {s : State} {dc ac : BitVec 16} {k : Fin 16}
    (hfit : -32768 ≤ product s dc ac k ∧ product s dc ac k ≤ 32767) :
    (s.mapCoefs fun slot _ => product s dc ac slot).c k = product s dc ac k := by
  rw [State.c_mapCoefs, toInt_ofInt_16 hfit.1 hfit.2]

theorem product_eq (s : State) (dc ac : BitVec 16) (k : Fin 16) :
    product s dc ac k = s.c k * ((if k = 0 then dc.toNat else ac.toNat : Nat) : Int) := by
  unfold product; rw [slotStep_toNat]

/-- Settles O46: a quotient of a coefficient fits the register. -/
theorem quantDividesTowardZero : Obligations.QuantDividesTowardZero := by
  intro s cls dc ac hcls hdc hac
  refine ⟨_, exec_qzQuant (stepsOf_eq_some.mpr hcls) hdc hac, rfl, ?_, fun k hk => ?_⟩
  · rw [State.c_quant, tdiv_eq]; rfl
  · rw [State.c_quant, tdiv_eq, slotStep_toNat, if_neg hk]

/-- Settles O48: a product that fits is what the register then holds. -/
theorem dequantMultiplies : Obligations.DequantMultiplies := by
  intro s cls dc ac hcls hfit
  have hfit' (k : Fin 16) : -32768 ≤ product s dc ac k ∧ product s dc ac k ≤ 32767 := by
    rw [product_eq]; exact_mod_cast hfit k
  refine ⟨_, exec_qzDequant (stepsOf_eq_some.mpr hcls) hfit', rfl, fun k => ?_⟩
  rw [State.c_dequant (hfit' k), product_eq]

/-- Settles O47: the zero steps are found before any division, and a product with 0 fits every register. -/
theorem stepZero : Obligations.StepZero := by
  refine ⟨fun s cls dc ac hsteps hzero => ?_, fun s cls hsteps => ?_⟩
  · simp only [exec, execQzQuant, hsteps]
    exact if_pos hzero
  · have hzero (k : Fin 16) : product s 0 0 k = 0 := by rw [product_eq]; split_ifs <;> exact mul_zero _
    have hfit (k : Fin 16) : -32768 ≤ product s 0 0 k ∧ product s 0 0 k ≤ 32767 := by rw [hzero]; decide
    exact ⟨_, exec_qzDequant hsteps hfit, rfl, fun k => (State.c_dequant (hfit k)).trans (hzero k)⟩

/-- A quotient multiplied by its divisor is a coefficient if the dividend is one. -/
theorem tdiv_mul_range {a : Int} {b : Nat} (hb : 0 < b) (h1 : -32768 ≤ a) (h2 : a ≤ 32767) :
    -32768 ≤ tdiv a b * b ∧ tdiv a b * b ≤ 32767 := by
  have habs := (tdiv_mul a hb).1
  have hpos (h : 0 ≤ a) : 0 ≤ tdiv a b * b := mul_nonneg ((tdiv_sign a b).1 h) (Int.natCast_nonneg b)
  have hneg (h : a ≤ 0) : tdiv a b * b ≤ 0 := mul_nonpos_of_nonpos_of_nonneg ((tdiv_sign a b).2 h) (Int.natCast_nonneg b)
  omega

/-- Settles O49: a quotient times its divisor lies between 0 and the dividend, so it fits the register again. -/
theorem dequantAfterQuant : Obligations.DequantAfterQuant := by
  intro s cls dc ac hsteps hdc hac
  have hstep (k : Fin 16) : 0 < (slotStep dc ac k).toNat := by
    have hdc' : dc.toNat ≠ (0 : BitVec 16).toNat := BitVec.toNat_ne_iff_ne.mpr hdc
    have hac' : ac.toNat ≠ (0 : BitVec 16).toNat := BitVec.toNat_ne_iff_ne.mpr hac
    rw [slotStep_toNat]
    split_ifs
    · exact Nat.pos_of_ne_zero hdc'
    · exact Nat.pos_of_ne_zero hac'
  let t := s.mapCoefs fun slot v => tdiv v (slotStep dc ac slot).toNat
  have hprod (k : Fin 16) : product t dc ac k = tdiv (s.c k) (slotStep dc ac k).toNat * (slotStep dc ac k).toNat :=
    congrArg (· * ((slotStep dc ac k).toNat : Int)) (State.c_quant s _ k)
  have hfit (k : Fin 16) : -32768 ≤ product t dc ac k ∧ product t dc ac k ≤ 32767 := by
    rw [hprod]
    exact tdiv_mul_range (hstep k) (State.c_range s k).1 (State.c_range s k).2
  refine ⟨t, _, exec_qzQuant hsteps hdc hac, exec_qzDequant (s := t) hsteps hfit, fun k => ?_⟩
  rw [State.c_dequant (hfit k), hprod, ← slotStep_toNat]
  exact tdiv_mul (s.c k) (hstep k)

/-- Settles O39: the index is a mixed-radix number whose digits are the block type, band, context, node and bit. -/
theorem tableIndices : Obligations.TableIndices := by
  refine ⟨fun t k => ⟨rfl, probIndex_lt t k⟩, fun t k b => ⟨rfl, brcIndex_lt t k b⟩, ?_⟩
  rintro ⟨bt, band, ctx⟩ k b ⟨bt', band', ctx'⟩ k' b' h
  have hb := Bool.toNat_lt b
  have hb' := Bool.toNat_lt b'
  simp only [brcIndex, probIndex] at h
  have htoNat : ∀ x y : Bool, x.toNat = y.toNat → x = y := by decide
  have hbits : b = b' := htoNat b b' (by omega)
  have hnode : k = k' := by rw [Fin.ext_iff]; omega
  have hctx : ctx = ctx' := by rw [Fin.ext_iff]; omega
  have hband : band = band' := by rw [Fin.ext_iff]; omega
  have hbt : bt = bt' := by rw [← BitVec.toNat_inj]; omega
  rw [hbits, hnode, hctx, hband, hbt]
  exact ⟨rfl, rfl, rfl⟩

end Sys2Proof.Machine
end

section
/-! The boolean decoder's commands (40_boolean_decoder.md R111 to R118): the decoder a query leaves, written out field by
field, and the queries that stop at a byte nothing has written. -/

namespace Sys2Proof.Machine

theorem shiftLeft_eq_ofNat {n : Nat} (x : BitVec n) (k : Nat) : x <<< k = BitVec.ofNat n (x.toNat * 2 ^ k) := by
  apply BitVec.eq_of_toNat_eq
  rw [BitVec.toNat_shiftLeft, Nat.shiftLeft_eq, BitVec.toNat_ofNat]

theorem zeroExtend_shiftLeft_eq_ofNat (b : Byte) (k : Nat) :
    (b.zeroExtend 32 : Word) <<< k = BitVec.ofNat 32 (b.toNat * 2 ^ k) := by
  rw [shiftLeft_eq_ofNat, BitVec.toNat_setWidth_of_le (by decide)]

theorem bitcnt_add (x : BitVec 3) (k : Nat) : x + BitVec.ofNat 3 k = BitVec.ofNat 3 ((x.toNat + k) % 8) := by
  apply BitVec.eq_of_toNat_eq
  rw [BitVec.toNat_add, BitVec.toNat_ofNat, BitVec.toNat_ofNat]
  omega

/-- The decoder after the doublings of a query, field by field (R113). -/
theorem Decoder.renormed_eq (ibuf : Memory 8) (k : Nat) (d : Decoder) :
    d.renormed ibuf k = { d with
      range := BitVec.ofNat 8 (d.range.toNat * 2 ^ k)
      value :=
        if d.bitcnt.toNat + k < 8 then BitVec.ofNat 32 (d.value.toNat * 2 ^ k)
        else BitVec.ofNat 32 (d.value.toNat * 2 ^ k) |||
          BitVec.ofNat 32 ((d.nextValue ibuf).toNat * 2 ^ (d.bitcnt.toNat + k - 8))
      bitcnt := BitVec.ofNat 3 ((d.bitcnt.toNat + k) % 8)
      pos := if 8 ≤ d.bitcnt.toNat + k ∧ d.pos.toNat < d.llen.toNat then d.pos + 1 else d.pos
      eoi := d.eoi || decide (8 ≤ d.bitcnt.toNat + k ∧ d.llen.toNat ≤ d.pos.toNat) } := by
  unfold Decoder.renormed Decoder.shifted
  rw [← shiftLeft_eq_ofNat, ← shiftLeft_eq_ofNat, ← zeroExtend_shiftLeft_eq_ofNat, ← bitcnt_add]
  by_cases hc : d.bitcnt.toNat + k < 8
  · have hc' : ¬8 ≤ d.bitcnt.toNat + k := by omega
    simp [hc, hc']
  · have hc' : 8 ≤ d.bitcnt.toNat + k := by omega
    by_cases hp : d.pos.toNat < d.llen.toNat
    · have hp' : ¬d.llen.toNat ≤ d.pos.toNat := by omega
      simp [hc, hc', hp, hp', Decoder.advanced]
    · have hp' : d.llen.toNat ≤ d.pos.toNat := by omega
      simp [hc, hc', hp, hp', Decoder.advanced]

/-- The commands of one decode query. -/
theorem exec_query {s : State} {i : Instr} {p : Byte} (hi : i = .bdGet p ∧ p ≠ 0 ∨ i = .bdGetu ∧ p = 128)
    (ha : s.bd.active = true) : exec i s = finish (getToBitr p s) := by
  rcases hi with ⟨rfl, hp⟩ | ⟨rfl, rfl⟩
  · exact (whenDecoding_active ha _).trans (if_neg hp)
  · exact whenDecoding_active ha _

/-- Such a command completes when the query does ... -/
theorem exec_query_ok {s : State} {i : Instr} {p : Byte} {b : Bool} {d : Decoder}
    (hi : i = .bdGet p ∧ p ≠ 0 ∨ i = .bdGetu ∧ p = 128) (ha : s.bd.active = true) (h : s.bd.get s.ibuf p = .ok b d) :
    exec i s = .next { s with bitr := b, bd := d } := by
  rw [exec_query hi ha, getToBitr, getQuery, h]
  rfl

/-- ... and stops when the query does. -/
theorem exec_query_stop {s : State} {i : Instr} {p : Byte} {f : Fault}
    (hi : i = .bdGet p ∧ p ≠ 0 ∨ i = .bdGetu ∧ p = 128) (ha : s.bd.active = true) (h : s.bd.get s.ibuf p = .stop f) :
    exec i s = .fault f := by
  rw [exec_query hi ha, getToBitr, getQuery, h]
  rfl

theorem mul_256_eq_shiftLeft (n : Nat) : n * 256 = n <<< 8 := by rw [Nat.shiftLeft_eq]

theorem decision_eq (d : Decoder) (p : Byte) : d.decision p = decide (split d.range p <<< 8 ≤ d.value.toNat) := by
  rw [← mul_256_eq_shiftLeft]; rfl

/-- Settles O24: the query's result, its doublings counted by `k`, with the fields written out. -/
theorem decodeQueryResult : Obligations.DecodeQueryResult := by
  intro s i p hi ha hr hw sp b r v byte
  have h2 : 2 ≤ s.bd.range.toNat := by omega
  obtain ⟨k, hk, h128, h255, hok, -⟩ := Decoder.get_spec s.ibuf p h2
  have hrange : (s.bd.narrow p).range.toNat = r := by
    rw [Decoder.narrow_range p h2, decision_eq]; rfl
  have hvalue : (s.bd.narrow p).value.toNat = v := by
    rw [Decoder.narrow_value p, decision_eq, mul_256_eq_shiftLeft]
    rfl
  have hbyte : ((s.bd.narrow p).nextValue s.ibuf).toNat = byte := by
    rw [Decoder.narrow_same]
    exact apply_ite BitVec.toNat _ _ _
  rw [hrange] at h128 h255
  refine ⟨k, hk, h128, h255, (exec_query_ok hi ha (hok fun _ => hw)).trans ?_⟩
  rw [decision_eq, Decoder.queried, Decoder.renormed_eq, hrange, hvalue, hbyte, Decoder.narrow_same]
  rfl

theorem or_lt_mul_two_pow {x y m n : Nat} (hx : x < m * 2 ^ n) (hy : y < 2 ^ n) : x ||| y < m * 2 ^ n := by
  rw [← Nat.div_lt_iff_lt_mul (by positivity)] at hx ⊢
  rw [Nat.or_div_two_pow, Nat.div_eq_of_lt hy]
  simpa using hx

/-- A value inside the interval stays inside it when the interval is narrowed (R118 (e)). -/
theorem Decoder.narrow_value_lt {d : Decoder} (p : Byte) (h : 2 ≤ d.range.toNat) (hv : d.value.toNat < d.range.toNat * 256) :
    (d.narrow p).value.toNat < (d.narrow p).range.toNat * 256 := by
  have hsplit := split_lt p h
  rw [Decoder.narrow_value, Decoder.narrow_range p h]
  by_cases hd : split d.range p * 256 ≤ d.value.toNat
  · have hd' : d.decision p = true := decide_eq_true hd
    rw [if_pos hd', if_pos hd']
    omega
  · have hd' : d.decision p ≠ true := fun h => hd (of_decide_eq_true h)
    rw [if_neg hd', if_neg hd']
    exact Nat.lt_of_not_le hd

/-- A value inside the interval stays inside it when both are doubled and a byte enters below (R118 (e)). -/
theorem Decoder.renormed_value_lt {d : Decoder} (ibuf : Memory 8) {k : Nat} (h255 : d.range.toNat * 2 ^ k ≤ 255)
    (hv : d.value.toNat < d.range.toNat * 256) :
    (d.renormed ibuf k).value.toNat < d.range.toNat * 2 ^ k * 256 := by
  have hshift : d.value.toNat * 2 ^ k < d.range.toNat * 2 ^ k * 256 := by
    rw [Nat.mul_right_comm]
    exact Nat.mul_lt_mul_of_pos_right hv (by positivity)
  have hofNat : (BitVec.ofNat 32 (d.value.toNat * 2 ^ k)).toNat = d.value.toNat * 2 ^ k := by
    rw [BitVec.toNat_ofNat]; omega
  rw [Decoder.renormed_eq]
  dsimp only
  split_ifs with hc
  · rwa [hofNat]
  · obtain ⟨j, hj⟩ : ∃ j, d.bitcnt.toNat + k = 8 + j := ⟨d.bitcnt.toNat + k - 8, by omega⟩
    have hjk : j ≤ k := by have := d.bitcnt.isLt; omega
    have hm : d.range.toNat * 2 ^ k * 256 = d.range.toNat * 2 ^ (k - j) * 2 ^ (8 + j) := by
      rw [show k = k - j + j by omega]
      simp only [Nat.add_sub_cancel, pow_add]
      ring
    have hbyte : (d.nextValue ibuf).toNat * 2 ^ j < 2 ^ (8 + j) := by
      rw [pow_add]
      exact Nat.mul_lt_mul_of_pos_right (d.nextValue ibuf).isLt (by positivity)
    rw [show d.bitcnt.toNat + k - 8 = j by omega, BitVec.toNat_or, hofNat, BitVec.toNat_ofNat, hm]
    exact or_lt_mul_two_pow (hm ▸ hshift) ((Nat.mod_le _ _).trans_lt hbyte)

/-- Settles O25: the query that completed is `Decoder.queried`. -/
theorem decodeQueryFacts : Obligations.DecodeQueryFacts := by
  intro s t p ha hr hp h
  have h2 : 2 ≤ s.bd.range.toNat := by omega
  obtain ⟨k, hk, h128, h255, hok, hstop⟩ := Decoder.get_spec s.ibuf p h2
  by_cases hc : s.bd.CanShift s.ibuf k
  · rw [exec_query_ok (.inl ⟨rfl, hp⟩) ha (hok hc)] at h
    cases h
    have hq := Decoder.queried_spec s.ibuf h2 h128 h255
    have hlt := (s.bd.queried s.ibuf p k).range.isLt
    have hrange : (s.bd.queried s.ibuf p k).range.toNat = (s.bd.narrow p).range.toNat * 2 ^ k := by
      rw [hq.range, Decoder.narrow_range p h2]
    have hpos := hq.pos
    refine ⟨split_pos _ _, split_lt p h2, hq.range_ge, by omega, by dsimp only; split_ifs at hpos <;> omega, fun hv => ?_⟩
    have hvalue : (s.bd.queried s.ibuf p k).value.toNat < (s.bd.queried s.ibuf p k).range.toNat * 256 := by
      rw [hrange]
      exact Decoder.renormed_value_lt s.ibuf h255 (Decoder.narrow_value_lt p h2 hv)
    exact ⟨hvalue, by dsimp only; omega⟩
  · rw [exec_query_stop (.inl ⟨rfl, hp⟩) ha (hstop hc)] at h
    cases h

/-- Settles O27: the query stops exactly when its doublings reach the byte due. -/
theorem unwrittenInputStopsADecode : Obligations.UnwrittenInputStopsADecode := by
  constructor
  · intro s i p hi ha hr hpos hnone sp r
    have h2 : 2 ≤ s.bd.range.toNat := by omega
    obtain ⟨k, hk, h128, h255, hok, hstop⟩ := Decoder.get_spec s.ibuf p h2
    have hrange : (s.bd.narrow p).range.toNat = r := by
      rw [Decoder.narrow_range p h2, decision_eq]; simp only [decide_eq_true_eq]; rfl
    have hq := Decoder.queried_spec s.ibuf h2 h128 h255
    rw [hrange] at h128 h255
    refine ⟨k, hk, h128, h255, fun hc => exec_query_stop hi ha (hstop fun hcan => ?_), fun hc => ?_⟩
    · have := hcan hc hpos
      rw [hnone] at this
      cases this
    · refine ⟨_, exec_query_ok hi ha (hok fun hc' => absurd hc' (by omega)), rfl, BitVec.eq_of_toNat_eq ?_⟩
      exact hq.pos.trans (if_neg (by omega))
  · intro s k hfit hk hlen hnone
    have hf := (partitionFits_iff s.bdBase s.bdLen s.ibufSize).mpr hfit
    simp only [exec, execBdInit, hf, if_true, Decoder.openPartition_stop s.bd hk hlen hnone]
    rfl

/-- Settles O23: `Decoder.opened` is the decoder the statement writes out. -/
theorem bdInitOpensPartition : Obligations.BdInitOpensPartition := by
  refine ⟨by decide, fun s => ⟨fun hfit hw => ?_, fun hbig => ?_⟩⟩
  · have hf := (partitionFits_iff s.bdBase s.bdLen s.ibufSize).mpr hfit
    simp only [exec, execBdInit, hf, if_true, Decoder.openPartition_ok s.bd hw]
    rfl
  · exact if_neg fun hf => absurd ((partitionFits_iff _ _ _).mp hf) (by omega)

end Sys2Proof.Machine
end

section
/-! Tree decisions (43_token_walker.md R172 to R180, R190): their counters, a table element that is 0, the first query of a
walk. -/

namespace Sys2Proof.Machine

/-- A decision at a node whose probability is not loaded is refused, with nothing of the query done (R265). -/
theorem treeGet_unloaded {s : State} {t : TreeCtx} {node : Fin 11} (h : s.prob.get (probIndex t node) = 0) :
    treeGet t node s = .raise .invalidProbability s := if_pos h

theorem treePut_unloaded {s : State} {t : TreeCtx} {node : Fin 11} (h : s.prob.get (probIndex t node) = 0) (b : Bool) :
    treePut t node b s = .raise .invalidProbability s := if_pos h

theorem treeGet_loaded {s : State} {t : TreeCtx} {node : Fin 11} (h : s.prob.get (probIndex t node) ≠ 0) :
    treeGet t node s =
      (getQuery (s.prob.get (probIndex t node)) s).bind fun b s => .ok b (s.countBranch t node b) := if_neg h

theorem treePut_loaded {s : State} {t : TreeCtx} {node : Fin 11} (h : s.prob.get (probIndex t node) ≠ 0) (b : Bool) :
    treePut t node b s =
      (putQuery b (s.prob.get (probIndex t node)) s).bind fun _ s => .ok () (s.countBranch t node b) := if_neg h

/-- What holds of a result however it ends, at one that completed. -/
theorem Res.Ends.of_ok {σ α : Type} {P : α → σ → Prop} {Q : Err → σ → Prop} {F : Fault → Prop} {r : Res σ α} {a : α} {t : σ}
    (hr : r.Ends P Q F) (h : r = .ok a t) : P a t := by
  subst h; exact hr

theorem getQuery_brc {s u : State} {p : Byte} {b : Bool} (h : getQuery p s = .ok b u) : u.brc = s.brc := by
  rw [getQuery_frame_ok h]

theorem putQuery_frame_ok {s u : State} {p : Byte} {b : Bool} (h : putQuery b p s = .ok () u) : u = { s with be := u.be } :=
  (putQuery_frame b p s).of_ok h

theorem putQuery_brc {s u : State} {p : Byte} {b : Bool} (h : putQuery b p s = .ok () u) : u.brc = s.brc := by
  rw [putQuery_frame_ok h]

/-- Settles O40: a tree query is a query with the element's probability, which counts nothing, and one count. -/
theorem oneCounterPerTreeDecision : Obligations.OneCounterPerTreeDecision := by
  refine ⟨?_, ?_, ?_, ?_, fun s u p b h => getQuery_brc h, fun s u p b h => putQuery_brc h⟩
  · intro s u t k b h j
    by_cases hp : s.prob.get (probIndex t k) = 0
    · rw [treeGet_unloaded hp] at h; cases h
    · rw [treeGet_loaded hp] at h
      obtain ⟨b', v, hq, hv⟩ := Res.bind_eq_ok.mp h
      cases hv
      rw [State.countBranch_brc, Memory.get_write, getQuery_brc hq]
      split_ifs with hj <;> simp [hj]
  · intro s u t k b h j
    by_cases hp : s.prob.get (probIndex t k) = 0
    · rw [treePut_unloaded hp] at h; cases h
    · rw [treePut_loaded hp] at h
      obtain ⟨_, v, hq, hv⟩ := Res.bind_eq_ok.mp h
      cases hv
      rw [State.countBranch_brc, Memory.get_write, putQuery_brc hq]
      split_ifs with hj <;> simp [hj]
  · intro s u c v h
    rw [(tvDec_frame c s).of_ok h]
  · intro s u c v h
    unfold tvEnc at h
    split at h
    · next off _ =>
      rw [(tvEncBits_frame (tables.category c).probs off s).of_ok h]
    · cases h

/-- A walk begins at the first coded position (R173). -/
theorem codedPositions_cons {o : WalkOperands} {i : Fin 16} (h : i.val = firstPosition o) :
    ∃ rest, codedPositions o = i :: rest := by
  cases hl : codedPositions o with
  | nil =>
    have := positions_nil (by have := firstPosition_le o; omega) hl
    have := firstPosition_le o
    omega
  | cons j rest =>
    obtain rfl : j = i := Fin.ext ((positions_cons hl).1.trans h.symm)
    exact ⟨rest, rfl⟩

/-- A decoding walk without the probability of its first query. -/
theorem walkDec_unloaded {s : State} {bt : BitVec 2} {i : Fin 16} {rest : List (Fin 16)} {ctx : Fin 3}
    (h : s.prob.get (probIndex (treeCtx bt i ctx) 0) = 0) :
    walkDec bt (i :: rest) ctx false s = .raise .invalidProbability s := by
  unfold walkDec treeWalk
  rw [show startNode false = 0 from rfl, treeGet_unloaded h]
  rfl

/-- An encoding walk without the probability of its first query, whatever it has to code. -/
theorem walkEnc_unloaded {s : State} {bt : BitVec 2} {i : Fin 16} {rest : List (Fin 16)} {ctx : Fin 3} {nEnd : Nat}
    (h : s.prob.get (probIndex (treeCtx bt i ctx) 0) = 0) :
    walkEnc bt nEnd (i :: rest) ctx false s = .raise .invalidProbability s := by
  unfold walkEnc
  split_ifs
  · simp only [pathOf, treePutAll, treePut_unloaded h, Res.bind_raise]
  · simp only [positionPath, Bool.false_eq_true, if_false, treePutAll, treePut_unloaded h, Res.bind_raise]

theorem exec_twDec {s : State} (o : WalkOperands) (ha : s.bd.active = true) :
    exec (.twDec o) s = finish (endWalk (walkDec o.bt (codedPositions o) (initialContext o) false s.clearCoefs)) :=
  whenDecoding_active ha _

theorem exec_twEnc {s : State} {o : WalkOperands} (ha : s.be.active = true) (hc : allCodable s o = true) :
    exec (.twEnc o) s =
      finish (endWalk (walkEnc o.bt (endPosition s o) (codedPositions o) (initialContext o) false s)) :=
  (whenEncoding_active ha _).trans (if_pos hc)

/-- Settles O19: the first query of either walk is refused before the walk has done anything. -/
theorem unloadedTableStopsAWalk : Obligations.UnloadedTableStopsAWalk := by
  refine ⟨fun s t node h => ⟨treeGet_unloaded h, treePut_unloaded h⟩, fun s o i _ hi hp => ⟨fun ha => ?_, fun ha hb => ?_⟩⟩
  · obtain ⟨rest, hl⟩ := codedPositions_cons hi
    rw [exec_twDec o ha, hl, walkDec_unloaded (s := s.clearCoefs) hp]
    exact ⟨_, rfl, rfl, rfl⟩
  · obtain ⟨rest, hl⟩ := codedPositions_cons hi
    have hc : allCodable s o = true := (allCodable_iff s o).mpr fun j hj => hb j (Fin.le_def.mpr (hi ▸ hj))
    rw [exec_twEnc ha hc, hl, walkEnc_unloaded hp]
    exact ⟨_, rfl, rfl, rfl⟩

/-- `BE.PUT` of a nonzero probability completes exactly when its query does. -/
theorem putQuery_of_exec_bePut {s u : State} {b : Bool} {p : Byte} (ha : s.be.active = true) (hp : p ≠ 0)
    (h : exec (.bePut b p) s = .next u) (hu : u.err = 0) : putQuery b p s = .ok () u := by
  have h' : finish (putQuery b p s) = .next u := ((whenEncoding_active ha _).trans (if_neg hp)).symm.trans h
  rcases finish_eq_next.mp h' with hok | ⟨e, v, -, rfl⟩
  · exact hok
  · exact absurd hu (Err.code_ne_zero e)

/-- The end of block of a walk that has nothing to code (R190 (b)). -/
theorem walkEnc_eob {s u : State} {bt : BitVec 2} {i : Fin 16} {rest : List (Fin 16)} {ctx : Fin 3} {nEnd : Nat}
    (hn : nEnd ≤ i.val) (h : treePut (treeCtx bt i ctx) 0 false s = .ok () u) :
    walkEnc bt nEnd (i :: rest) ctx false s = .ok (walkResult i ctx true) u := by
  unfold walkEnc
  rw [if_pos (by simpa using hn)]
  simp only [pathOf, treePutAll, h, Res.bind_ok]

theorem walkResult_pos (i : Fin 16) (ctx : Fin 3) (eob : Bool) : (walkResult i ctx eob).pos.toNat = i.val :=
  Nat.mod_eq_of_lt (by omega)

theorem walkResult_ctx (n : Nat) (ctx : Fin 3) (eob : Bool) : (walkResult n ctx eob).ctx.toNat = ctx.val :=
  Nat.mod_eq_of_lt (by omega)

/-- Settles O43: such a block ends at its first position. -/
theorem zeroBlockIsOneEndOfBlock : Obligations.ZeroBlockIsOneEndOfBlock := by
  intro s u o i _ ha hi hz hp h hu
  have hq := putQuery_of_exec_bePut ha hp h hu
  have hzero (j : Fin 16) (hj : firstPosition o ≤ j.val) : coefAt s j = 0 := hz j (Fin.le_def.mpr (hi ▸ hj))
  have hend : endPosition s o = i.val := by
    rcases endPosition_cases s o with ⟨hend, -⟩ | ⟨j, hj, -, hnz⟩
    · rw [hend, hi]
    · exact absurd (hzero j hj) hnz
  have hc : allCodable s o = true := (allCodable_iff s o).mpr fun j hj => by rw [hzero j hj]; decide
  obtain ⟨rest, hl⟩ := codedPositions_cons hi
  have hput : treePut (treeCtx o.bt i (initialContext o)) 0 false s =
      .ok () (u.countBranch (treeCtx o.bt i (initialContext o)) 0 false) :=
    (treePut_loaded (t := treeCtx o.bt i (initialContext o)) hp false).trans (congrArg (Res.bind · _) hq)
  have hframe := putQuery_frame_ok hq
  rw [exec_twEnc ha hc, hl, walkEnc_eob hend.le hput]
  refine ⟨_, rfl, ?_, walkResult_pos i _ _, walkResult_ctx i _ _, rfl, fun j => ?_⟩
  · rw [hframe]
    rfl
  · refine (Memory.get_write _ _ _ _).trans (ite_congr rfl (fun hj => ?_) fun _ => ?_)
    · rw [putQuery_brc hq, hj]
      rfl
    · rw [putQuery_brc hq]

/-- Settles O37: the tables evaluated outcome by outcome; a magnitude of an extended range by its category's range. -/
theorem treeRowsAndPaths : Obligations.TreeRowsAndPaths := by
  refine ⟨rfl, rfl, rfl, rfl, rfl, rfl, rfl, rfl, rfl, rfl, rfl, by decide, fun tok htok => ?_, by decide, fun a h5 hmax => ?_⟩
  · cases tok with
    | eob => exact absurd rfl htok
    | cat c => cases c <;> exact ⟨by decide, by decide⟩
    | _ => exact ⟨by decide, by decide⟩
  · obtain ⟨c, hc⟩ := exists_tokenOf_eq_cat_iff.mpr h5
    obtain ⟨off, hoff⟩ := tokenOf_range hmax hc
    have h := tvOffset_eq_some.mp hoff
    exact ⟨c, hc, by omega, by omega⟩

end Sys2Proof.Machine
end

section
/-! The boolean encoder's commands (41_boolean_encoder.md R133 to R138): the encoder a query and a flush leave, written out
field by field. -/

namespace Sys2Proof.Machine

theorem eq_ofNat_of_toNat {w n : Nat} {x : BitVec w} (h : x.toNat = n) : x = BitVec.ofNat w n := by
  rw [← h, BitVec.ofNat_toNat, BitVec.setWidth_eq]

/-- A count of bytes that the register of `OBUF_LEN` holds did not wrap. -/
theorem eq_add_of_toNat {x y : Word} {n : Nat} (h : x.toNat = y.toNat + n) : x = y + BitVec.ofNat 32 n := by
  apply BitVec.eq_of_toNat_eq
  rw [BitVec.toNat_add, BitVec.toNat_ofNat, Nat.add_mod_mod, ← h, Nat.mod_eq_of_lt x.isLt]

/-- An encode query by the number of its doublings, which the narrowed range alone determines: it finds the buffer full when
a byte is due there, and completes otherwise. -/
theorem Encoder.put_cases {e : Encoder} {size : Nat} (hsize : size < 2 ^ 32) (h : e.Sound size) (b : Bool) (p : Byte) :
    ∃ k ≤ 7, 128 ≤ (e.narrow b p).range.toNat * 2 ^ k ∧ (e.narrow b p).range.toNat * 2 ^ k ≤ 255 ∧
      (e.bitcnt.toNat ≤ k ∧ e.len.toNat = size → ∃ e', e.put size b p = .raise .bufferBounds e') ∧
      (¬(e.bitcnt.toNat ≤ k ∧ e.len.toNat = size) → ∃ e', e.put size b p = .ok () e' ∧ e.Coded e' b p k size) := by
  have h2 : 2 ≤ e.range.toNat := by have := h.range_ge; omega
  obtain ⟨k, hk, h128, h255⟩ := Encoder.narrow_norm b p h2
  obtain ⟨hraise, hok⟩ := Encoder.renorm_spec hsize (Encoder.narrow_coding h b p) hk (show k < 8 by omega) h128 h255
  have hlen : (e.narrow b p).len = e.len := by cases b <;> rfl
  have hcnt : (e.narrow b p).bitcnt = e.bitcnt := by cases b <;> rfl
  rw [hlen, hcnt] at hraise hok
  refine ⟨k, hk, h128, h255, fun hx => ?_, fun hx => ?_⟩
  · obtain ⟨e', he'⟩ := hraise hx
    exact ⟨e', by rw [Encoder.put, he', Res.bind_raise]⟩
  · obtain ⟨e1, he1, -⟩ := hok hx
    rcases Encoder.put_spec hsize h b p with ⟨e', hr, -⟩ | ⟨e', k', he', hc⟩
    · rw [Encoder.put, he1, Res.bind_ok] at hr
      cases hr
    · have hrange := hc.range
      rw [← Encoder.narrow_range b p h2] at hrange
      have hge := hc.sound.range_ge
      have hlt := e'.range.isLt
      obtain rfl := norm_unique (hrange ▸ hge) (by omega) h128 h255
      exact ⟨e', he', hc⟩

/-- The encoder after a query whose count does not run out. -/
theorem Encoder.Coded.eq_inside {e e' : Encoder} {b : Bool} {p : Byte} {k size : Nat} (h : e.Coded e' b p k size)
    (hk : k < e.bitcnt.toNat) :
    e' = { e with
      range := BitVec.ofNat 8 ((if b then e.range.toNat - split e.range p else split e.range p) * 2 ^ k)
      bottom := BitVec.ofNat 32 ((e.bottom.toNat + if b then split e.range p else 0) * 2 ^ k)
      bitcnt := BitVec.ofNat 5 (e.bitcnt.toNat - k), qcnt := e.qcnt + 1 } := by
  obtain ⟨hobuf, hbottom⟩ := h.inside hk
  have hlen : e'.len = e.len := BitVec.eq_of_toNat_eq (h.len.trans (if_neg (by omega)))
  have hcnt := h.bitcnt.trans (if_neg (by omega))
  rw [← eq_ofNat_of_toNat h.range, ← eq_ofNat_of_toNat hbottom, ← eq_ofNat_of_toNat hcnt, ← h.qcnt, ← h.active, ← hlen,
    ← hobuf]

/-- The encoder after a query that appends a byte. -/
theorem Encoder.Coded.eq_append {e e' : Encoder} {b : Bool} {p : Byte} {k size : Nat} (h : e.Coded e' b p k size)
    (hk : e.bitcnt.toNat ≤ k) :
    e' = { e with
      range := BitVec.ofNat 8 ((if b then e.range.toNat - split e.range p else split e.range p) * 2 ^ k)
      bottom := BitVec.ofNat 32
        ((e.bottom.toNat + if b then split e.range p else 0) * 2 ^ e.bitcnt.toNat % 2 ^ 24 * 2 ^ (k - e.bitcnt.toNat))
      bitcnt := BitVec.ofNat 5 (e.bitcnt.toNat + 8 - k), qcnt := e.qcnt + 1, len := e.len + 1, obuf := e'.obuf } := by
  have hlen : e'.len = e.len + 1 := eq_add_of_toNat (h.len.trans (if_pos hk))
  have hcnt := h.bitcnt.trans (if_pos hk)
  rw [← eq_ofNat_of_toNat h.range, ← eq_ofNat_of_toNat (h.append hk).1, ← eq_ofNat_of_toNat hcnt, ← h.qcnt, ← h.active,
    ← hlen]

/-- The commands of one encode query. -/
theorem exec_encodeQuery {s : State} {i : Instr} {b : Bool} {p : Byte}
    (hi : i = .bePut b p ∧ p ≠ 0 ∨ i = .bePutu b ∧ p = 128) (ha : s.be.active = true) :
    exec i s = finish (putQuery b p s) := by
  rcases hi with ⟨rfl, hp⟩ | ⟨rfl, rfl⟩
  · exact (whenEncoding_active ha _).trans (if_neg hp)
  · exact whenEncoding_active ha _

theorem exec_encodeQuery_ok {s : State} {i : Instr} {b : Bool} {p : Byte} {e : Encoder}
    (hi : i = .bePut b p ∧ p ≠ 0 ∨ i = .bePutu b ∧ p = 128) (ha : s.be.active = true)
    (h : s.be.put s.obufSize b p = .ok () e) : exec i s = .next { s with be := e } := by
  rw [exec_encodeQuery hi ha, putQuery, h]
  rfl

theorem exec_encodeQuery_full {s : State} {i : Instr} {b : Bool} {p : Byte} {e : Encoder}
    (hi : i = .bePut b p ∧ p ≠ 0 ∨ i = .bePutu b ∧ p = 128) (ha : s.be.active = true)
    (h : s.be.put s.obufSize b p = .raise .bufferBounds e) :
    exec i s = .next { { s with be := e }.haltEntry .bufferBounds with midHalt := true } := by
  rw [exec_encodeQuery hi ha, putQuery, h]
  rfl

/-- Settles O29: the fields of `Encoder.Coded` and `Appended`, by whether the count runs out and the buffer is full. -/
theorem encodeQueryResult : Obligations.EncodeQueryResult := by
  intro s i b p hi _ ha hs hsize sp r x c n
  have h2 : 2 ≤ s.be.range.toNat := by have := hs.range_ge; omega
  obtain ⟨k, hk, h128, h255, hfull, hok⟩ := Encoder.put_cases hsize hs b p
  rw [Encoder.narrow_range b p h2] at h128 h255
  by_cases hx : c ≤ k ∧ n = s.obufSize
  · obtain ⟨e', he'⟩ := hfull hx
    exact ⟨k, _, hk, h128, h255, exec_encodeQuery_full hi ha he', fun hc => absurd hx.1 (by omega),
      fun _ hn => absurd hx.2 (by omega), fun _ _ => ⟨rfl, rfl⟩⟩
  · obtain ⟨e', he', hc⟩ := hok hx
    refine ⟨k, _, hk, h128, h255, exec_encodeQuery_ok hi ha he', fun hck => ?_, fun hck _ => ?_, fun hck hn => absurd ⟨hck, hn⟩ hx⟩
    · exact congrArg (fun e : Encoder => { s with be := e }) (hc.eq_inside hck)
    · obtain ⟨-, happ⟩ := hc.append hck
      exact ⟨congrArg (fun e : Encoder => { s with be := e }) (hc.eq_append hck), happ.byte, happ.number, happ.beyond,
        fun hx => happ.kept (Nat.div_eq_of_lt hx), happ.before⟩

/-- Settles O31, by whether the buffer has room for four bytes. -/
theorem beFlushEndsStream : Obligations.BeFlushEndsStream := by
  intro s _ ha hs hsize n
  have hexec : exec .beFlush s = finish ((s.be.flush s.obufSize).into fun e => { s with be := e }) :=
    whenEncoding_active ha _
  by_cases hn : n + 4 ≤ s.obufSize
  · obtain ⟨e', he', hf⟩ := Encoder.flush_ok hsize hs.toCoding hn
    refine ⟨{ s with be := e' }, by rw [hexec, he']; rfl, fun _ => ⟨?_, hf.number, fun a ha => hf.beyond a (hf.len.trans_le ha),
      hf.kept, hf.before⟩, fun hbig => absurd hn (by omega)⟩
    have hsame := hf.same
    rw [eq_add_of_toNat hf.len] at hsame
    exact congrArg (fun e : Encoder => { s with be := e }) hsame
  · obtain ⟨e', he'⟩ := Encoder.flush_full hsize hs.toCoding (by omega)
    exact ⟨_, by rw [hexec, he']; rfl, fun hsmall => absurd hsmall hn, fun _ => ⟨rfl, rfl⟩⟩

end Sys2Proof.Machine
end

section
/-! The token value commands as lists of single queries (42_token_value.md R158, R159). -/

namespace Sys2Proof.Machine

theorem bitDecisions_prob (ps : List Byte) (off : Nat) : (bitDecisions ps off).map Decision.prob = ps := by
  induction ps with
  | nil => rfl
  | cons p ps ih => rw [bitDecisions_cons, List.map_cons, ih]

/-- The bits of an offset, appended to a number, are its binary digits (R158). -/
theorem bitDecisions_foldl (ps : List Byte) (off acc : Nat) :
    ((bitDecisions ps off).map Decision.bit).foldl (fun n b => 2 * n + b.toNat) acc =
      acc * 2 ^ ps.length + off % 2 ^ ps.length := by
  induction ps generalizing acc with
  | nil => simp [bitDecisions, Nat.mod_one]
  | cons p ps ih =>
    rw [bitDecisions_cons, List.map_cons, List.foldl_cons, ih, List.length_cons, Nat.mod_pow_succ, Nat.toNat_testBit, pow_succ]
    ring

theorem bitsNumber_bitDecisions {ps : List Byte} {off : Nat} (h : off < 2 ^ ps.length) :
    bitsNumber ((bitDecisions ps off).map Decision.bit) = off := by
  rw [bitsNumber, bitDecisions_foldl, Nat.mod_eq_of_lt h, Nat.zero_mul, Nat.zero_add]

/-- A decoding piece that only starves completes when the input is written. -/
theorem Res.Ends.of_written {α : Type} {s : State} {P : α → State → Prop} {r : Res State α}
    (h : r.Ends P (fun _ _ => False) s.Starved) (hw : s.bd.InputWritten s.ibuf) : ∃ a t, r = .ok a t ∧ P a t :=
  (h.mono (fun _ _ h => h) (fun _ _ h => h) fun _ hf => hf.2 hw).eq_ok

/-- Settles O35: the command reads the decisions of the offset, which the single commands answer alike. -/
theorem tvDecReadsAnOffset : Obligations.TvDecReadsAnOffset := by
  intro s cat c hcat hinv he ha hw
  have hok := hinv.decodeOk he ha
  obtain ⟨v, x, hx, -, hsame, hq, hbase, hlt⟩ := (tvDec_ends hok c).of_written hw
  obtain ⟨hreads, -, hmax, -⟩ := tvDec_reads hx
  obtain ⟨u, hans, -, hbd⟩ := hreads.answers decode_encode hok.range rfl rfl he ha
  have hv : (BitVec.ofNat 16 v).toNat = v := Nat.mod_eq_of_lt (by omega)
  refine ⟨{ x with val := BitVec.ofNat 16 v }, u, (offsetDecisions c (v - (tables.category c).base)).map Decision.bit, ?_, ?_,
    ?_, ?_, hv.trans_lt hlt, hq⟩
  · rw [exec_tvDec hcat, whenDecoding_active ha, hx]
    rfl
  · conv_lhs => rw [← bitDecisions_prob (tables.category c).probs (v - (tables.category c).base), List.map_map]
    exact hans
  · rw [← hbd, hsame]
  · rw [offsetDecisions_eq, bitsNumber_bitDecisions (by omega)]
    exact hv.trans (by omega)

theorem exec_tvEnc_in_range {s : State} {cat : BitVec 3} {c : Category} {off : Nat} (hcat : categoryOf cat = some c)
    (ha : s.be.active = true) (h : tvOffset c s.val.toNat = some off) :
    exec (.tvEnc cat) s = finish (tvEncBits (tables.category c).probs off s) := by
  rw [exec_tvEnc hcat, whenEncoding_active ha, h, tvEnc, h]
  rfl

/-- Settles O36: the command and the single commands both code the decisions of the offset. -/
theorem tvEncWritesAnOffset : Obligations.TvEncWritesAnOffset := by
  intro s cat c off hcat hinv he ha hval hoff
  have hok := hinv.encodeOk he ha
  have hexec := exec_tvEnc_in_range hcat ha (tvOffset_eq_some.mpr ⟨hval, hoff⟩)
  obtain ⟨u, hu, hsame⟩ := codeAll_presentAll decode_encode (ds := offsetDecisions c off) hok.sound hok.size rfl rfl he ha
  rw [offsetDecisions_eq, ← tvEncBits_codeAll _ (probs_ne_zero c)] at hsame
  rw [offsetDecisions, List.map_map] at hu
  have hends := tvEncBits_ends hok 0 (tables.category c).probs off
  have hframe := tvEncBits_frame (tables.category c).probs off s
  cases hr : tvEncBits (tables.category c).probs off s with
  | ok a x =>
    rw [hr] at hends hsame
    obtain ⟨hstep, hx, hq⟩ := hends
    obtain ⟨hu0, hube⟩ := hsame
    have hx0 : x.err = 0 := by rw [hx]; exact he
    refine ⟨x, u, by rw [hexec, hr]; rfl, hu, hx0.trans hu0.symm, fun hne => absurd hx0 hne, fun _ => ⟨?_, hq, hstep.beyond⟩⟩
    rw [hube]
    exact hx
  | raise e x =>
    rw [hr] at hends hsame hframe
    obtain ⟨hx, rfl⟩ := hframe
    have hroom : s.obufSize < s.be.len.toNat + (tables.category c).probs.length := by
      rcases hends.cause with ⟨-, hroom⟩ | ⟨hcode, -⟩
      · exact hroom
      · cases hcode
    have hcseq : x.cseq = s.cseq := by rw [hx]
    exact ⟨{ x.haltEntry .bufferBounds with midHalt := true }, u, by rw [hexec, hr]; rfl, hu, hsame.symm,
      fun _ => ⟨rfl, congrArg (· - 1) hcseq, hroom⟩, fun h0 => absurd h0 (Err.code_ne_zero .bufferBounds)⟩
  | stop f =>
    rw [hr] at hends
    exact hends.elim

end Sys2Proof.Machine
end

section
/-! Whole walks (43_token_walker.md R180, R190): what `TW.DEC` and `TW.ENC` leave, and the single queries they stand for. -/

namespace Sys2Proof.Machine

/-- The clauses of a finished decoding walk that the coefficients and the walk's result alone decide (R177, R180, R181). -/
theorem WalkDone.coefs {s x : State} {o : WalkOperands} {w : WalkResult}
    (h : WalkDone s.clearCoefs (firstPosition o) (initialContext o) false w x) (j : Fin 16) :
    (w.pos.toNat ≤ j.val → x.c (tables.zigzag j) = 0) ∧ (x.c j).natAbs ≤ 2114 := by
  have hzero (i : Fin 16) (hi : i.val < firstPosition o ∨ w.pos.toNat ≤ i.val) : x.c (tables.zigzag i) = 0 := by
    rw [h.outside i hi, State.c_clearCoefs]
  refine ⟨fun hj => hzero j (.inr hj), ?_⟩
  obtain ⟨i, rfl⟩ := zigzag_bijective.surjective j
  by_cases hi : i.val < firstPosition o ∨ w.pos.toNat ≤ i.val
  · rw [hzero i hi]; decide
  · exact h.bound i (by omega) (by omega)

theorem WalkDone.eob_iff {s x : State} {n : Nat} {ctx : Fin 3} {lastz : Bool} {w : WalkResult}
    (h : WalkDone s n ctx lastz w x) : w.eob = false ↔ w.pos.toNat = 16 := by
  refine ⟨h.whole, fun hpos => ?_⟩
  cases he : w.eob with
  | false => rfl
  | true => exact absurd (h.eob he).1 (by omega)

theorem ofNat_ctx (k : Fin 3) : (BitVec.ofNat 2 k.val).toNat = k.val := Nat.mod_eq_of_lt (by omega)

/-- A command that decodes a block reads the decisions that code the block it leaves. -/
theorem walkDec_walkDecisions {s x : State} {o : WalkOperands} {w : WalkResult} (hok : s.DecodeOk)
    (h : walkDec o.bt (codedPositions o) (initialContext o) false s.clearCoefs = .ok w x)
    (hstep : s.clearCoefs.DecodeStep x) : Reads (x.walkDecisions o w.pos.toNat) s.clearCoefs x := by
  have hfirst := firstPosition_le o
  unfold State.walkDecisions
  rw [hstep.prob]
  exact walkDec_reads (clearCoefs_decodeStep hok).ok rfl (fun j _ => State.c_clearCoefs s _) (by omega) h

/-- Settles O41, by how the walk ends: a finished walk leaves `WalkDone` and has read the decisions of its block. -/
theorem twDecDecodesABlock : Obligations.TwDecDecodesABlock := by
  intro s o hinv he ha hw
  have hok := hinv.decodeOk he ha
  have hends := walkDec_command hok o
  cases hr : walkDec o.bt (codedPositions o) (initialContext o) false s.clearCoefs with
  | ok w x =>
    rw [hr] at hends
    have hdone : WalkDone s.clearCoefs (firstPosition o) (initialContext o) false w x := hends
    have hx := hdone.step.same
    have hx0 : x.err = 0 := by rw [hx]; exact he
    have hreads := walkDec_walkDecisions hok hr hdone.step
    obtain ⟨u, hans, hu0, hbd⟩ := hreads.answers decode_encode (s' := s) hok.range rfl rfl he ha
    obtain ⟨q, hq1, hq2, hq⟩ := hdone.queries
    have hfirst := firstPosition_le o
    refine ⟨{ x with tw := w }, exec_twDec_of_walkDec ha hr, fun _ => hx0, fun hne => absurd hx0 hne, fun _ => ⟨?_, ?_, ?_, ?_,
      hdone.pos_ge, hdone.pos_le, hdone.eob_iff, fun j => (hdone.coefs j).1, fun hskip => ?_, fun j => (hdone.coefs j).2,
      fun j heob => (hdone.eob heob).2.2 j, fun hpos => ?_, fun j h1 h2 => ?_, ⟨u, hans, hu0, hbd⟩, hreads.counts,
      ⟨q, hq1 (by omega), by omega, hq⟩⟩⟩
    · rw [hx]
      rfl
    · exact hdone.step.active.trans ha
    · exact hdone.step.lbase
    · exact hdone.step.llen
    · have hfirst1 : firstPosition o = 1 := by unfold firstPosition; rw [if_pos hskip]
      have h0 := hdone.outside 0 (.inl (by rw [hfirst1]; decide))
      rw [State.c_clearCoefs] at h0
      exact h0
    · rw [show ({ x with tw := w } : State).tw.ctx = _ from hdone.ctx_start hpos]
      exact ofNat_ctx _
    · rw [show ({ x with tw := w } : State).tw.ctx = _ from hdone.ctx_end j h1 h2]
      exact ofNat_ctx _
  | raise e x =>
    rw [hr] at hends
    obtain ⟨hstep, rfl, hnot⟩ : s.DecodeStep x ∧ e = .invalidProbability ∧ ¬s.Loaded o.bt := hends
    have hcseq : x.cseq = s.cseq := by rw [hstep.same]
    exact ⟨{ x.haltEntry .invalidProbability with midHalt := true }, by rw [exec_twDec o ha, hr]; rfl,
      fun hl => absurd hl hnot, fun _ => ⟨rfl, congrArg (· - 1) hcseq, hnot⟩,
      fun h0 => absurd h0 (Err.code_ne_zero .invalidProbability)⟩
  | stop f =>
    rw [hr] at hends
    exact absurd hw hends.2

/-- The end of a block is where its zeros begin (R190). -/
theorem endPosition_unique {s : State} {o : WalkOperands} {n : Nat} (hf : firstPosition o ≤ n)
    (hz : ∀ j : Fin 16, n ≤ j.val → coefAt s j = 0)
    (hnz : ∀ j : Fin 16, firstPosition o ≤ j.val → j.val + 1 = n → coefAt s j ≠ 0) (h16 : n ≤ 16) : endPosition s o = n := by
  have hlast (hlt : firstPosition o < n) : n ≤ endPosition s o := by
    by_contra hc
    have h := hnz ⟨n - 1, by omega⟩ (by simp only; omega) (by simp only; omega)
    exact h (endPosition_last s o ⟨n - 1, by omega⟩ (by simp only; omega) (by simp only; omega))
  rcases endPosition_cases s o with ⟨hend, hzero⟩ | ⟨j, hj, hend, hne⟩
  · omega
  · have : j.val < n := by
      by_contra hc
      exact hne (hz j (by omega))
    omega

/-- A command that encodes a block codes its decisions. -/
theorem walkEnc_walkDecisions {s : State} {o : WalkOperands} (hc : allCodable s o = true) (n : Nat) :
    ((walkEnc o.bt n (codedPositions o) (initialContext o) false s).bind fun _ t => .ok () t) =
      codeAll (s.walkDecisions o n) s :=
  walkEnc_codeAll fun i hi => (allCodable_iff s o).mp hc i ((mem_codedPositions o i).mp hi)

/-- Settles O42: the walk codes the decisions of the block, and the single commands code the same. -/
theorem twEncEncodesABlock : Obligations.TwEncEncodesABlock := by
  intro s o n hinv he ha hb hfn h16 hz hnz
  have hok := hinv.encodeOk he ha
  obtain rfl : endPosition s o = n := endPosition_unique hfn hz hnz h16
  have hc : allCodable s o = true := (allCodable_iff s o).mpr hb
  have hends := walkEnc_command hok o hc
  have hcode := walkEnc_walkDecisions hc (endPosition s o)
  obtain ⟨u, hu, hsame⟩ := codeAll_presentAll decode_encode (ds := s.walkDecisions o (endPosition s o)) hok.sound hok.size rfl
    rfl he ha
  cases hr : walkEnc o.bt (endPosition s o) (codedPositions o) (initialContext o) false s with
  | ok w x =>
    rw [hr] at hends hcode
    rw [← hcode] at hsame
    obtain ⟨hstep, hcoded⟩ := hends
    obtain ⟨hu0, hube⟩ := hsame
    have hx0 : x.err = 0 := by rw [hstep.same]; exact he
    refine ⟨{ x with tw := w }, u, by rw [exec_twEnc ha hc, hr]; rfl, hu, hx0.trans hu0.symm, fun _ _ => hx0,
      fun hne => absurd hx0 hne, fun _ => ⟨?_, hstep.active.trans ha, codeAll_counts (t := x) hcode.symm, hstep.beyond, hstep.len_ge,
        hcoded.pos, hcoded.eob, fun hn => ?_, fun j h1 h2 => ?_⟩⟩
    · rw [hube]
      exact congrArg (fun y : State => { y with tw := w }) hstep.same
    · rw [show ({ x with tw := w } : State).tw.ctx = _ from hcoded.ctx_start hn]
      exact ofNat_ctx _
    · rw [show ({ x with tw := w } : State).tw.ctx = _ from hcoded.ctx_end j h1 h2]
      exact ofNat_ctx _
  | raise e x =>
    rw [hr] at hends hcode
    rw [← hcode] at hsame
    have hcseq : x.cseq = s.cseq := by rw [hends.same]
    refine ⟨{ x.haltEntry e with midHalt := true }, u, by rw [exec_twEnc ha hc, hr]; rfl, hu, hsame.symm, fun hl hroom => ?_,
      fun _ => ⟨congrArg (· - 1) hcseq, ?_⟩, fun h0 => absurd h0 (Err.code_ne_zero e)⟩
    · rcases hends.cause with ⟨-, hfull⟩ | ⟨-, hnot⟩
      · exact absurd hroom (by omega)
      · exact absurd hl hnot
    · rcases hends.cause with ⟨rfl, hfull⟩ | ⟨rfl, hnot⟩
      · exact .inr ⟨rfl, hfull⟩
      · exact .inl ⟨rfl, hnot⟩
  | stop f =>
    rw [hr] at hends
    exact hends.elim

end Sys2Proof.Machine
end
